-- ==== Sys2Proof/Word.lean ====
section
/-! DEFINITION. The word types of the decode engine and the plain enumerations that more than one layer names. -/

namespace Sys2Proof

/-- A byte: a cell of `IN` and of `OUT`, an entry of `LIT` and of `LPOS` (20_memory.md R46). -/
abbrev Byte := BitVec 8

/-- A 16-bit header field or length register (10_state.md R17, R18, R28). -/
abbrev Half := BitVec 16

/-- 256 entries of 8 bits, indexed by a byte: the type of `LIT` and of `LPOS` (10_state.md R14, R15). -/
abbrev Table := Vector Byte 256

/-- The bitstream cursor `CUR`, the program counter of this machine (10_state.md R11): the index in `IN` of the byte
that holds the next bit, and the weight of that bit inside the byte. -/
structure Cursor where
  byte : Nat
  mask : Byte
  deriving DecidableEq, Repr, Inhabited

/-- Why bytes do not decode. -/
inductive DecodeError where
  /-- The input ends before the instruction does (60_exceptions.md R191). -/
  | endOfInput
  /-- The first four bytes of a PXA header are not the magic (44_pxa_engine.md R141). -/
  | badMagic
  deriving DecidableEq, Repr, Inhabited

/-- Which of the five encodings the next instruction is read in: where the call stands in the procedures of
45_dispatcher.md R161, 44_pxa_engine.md R139 and 46_p8_decoder.md R169. DESIGN CHOICE (log 1): the spec keeps this as
control flow. -/
inductive Phase where
  /-- The Dispatcher looks at the first four bytes. -/
  | sniff
  /-- The PXA engine parses its header. -/
  | pxaHeader
  /-- The PXA block loop. -/
  | pxaBlocks
  /-- The P8 decoder parses its header. -/
  | p8Header
  /-- The P8 main loop. -/
  | p8Codes
  deriving DecidableEq, Repr, Inhabited

/-- `FORMAT`, the Dispatcher's route (10_state.md R20). -/
inductive Format where
  | none
  | pxa
  | p8
  | legacy
  deriving DecidableEq, Repr, Inhabited

end Sys2Proof
end

