-- ==== Sys2Proof/Config.lean ====
section
/-! DEFINITION. What the build fixes (the open parameters of 00_scope.md R8) and the free values. -/

namespace Sys2Proof

/-- The open parameters of the build (00_scope.md R8; decisions D3 and D20). They are plain data held in the state and
never written, so a statement about a state holds for every value of them. -/
structure Config where
  /-- `LIT_INIT`, the order of the adaptive table at the start of a call. -/
  litInit : Table
  /-- `P8_ALPHABET`, indices 0 to 59. -/
  alphabet : Vector Byte 60
  /-- `P8_TRAILER_1`. -/
  trailer1 : List Byte
  /-- `P8_TRAILER_2`. -/
  trailer2 : List Byte
  deriving DecidableEq, Repr, Inhabited

/-- What 00_scope.md R8 asks of the open parameters: `LIT_INIT` is a permutation of the byte values, the trailers are not
empty. -/
abbrev Config.wf (c : Config) : Prop :=
  c.litInit.toList.Nodup ∧ c.trailer1 ≠ [] ∧ c.trailer2 ≠ []

/-! Free values: after a fault the registers have no value (60_exceptions.md R199; log 6). Nothing in Lean can evaluate
these constants. The argument is a number that no two uses share. -/

/-- A free 16-bit register. -/
opaque Config.freeHalf : Nat → Half

/-- A free natural-number register. -/
opaque Config.freeNat : Nat → Nat

/-- A free cursor. -/
opaque Config.freeCursor : Nat → Cursor

/-- A free `FORMAT`. -/
opaque Config.freeFormat : Nat → Format

/-- A free table. -/
opaque Config.freeTable : Nat → Table

end Sys2Proof
end

