-- ==== Sys2Proof/Machine/Constants.lean ====
section
/-! DEFINITION. The constants of 00_scope.md R9, each named once (93_implementation_defined.md U9 calls the literals
unaudited), and the default values of the open parameters. -/

namespace Sys2Proof.Machine

/-- The widest `get_bits` (40_bit_reader.md R92). -/
abbrev getBitsMax : Nat := 15

/-- Group width and bit budget of the selector chain, `get_chain(1, 2)` (41_chain_decoder.md R102). -/
abbrev selectorLink : Nat := 1
abbrev selectorBudget : Nat := 2

/-- The offset field is `(3 - selector) * 5` bits wide (41_chain_decoder.md R102). -/
abbrev selectorTop : Nat := 3
abbrev offsetUnit : Nat := 5

/-- The width at which the value 0 is the RAW sentinel (41_chain_decoder.md R102). -/
abbrev sentinelWidth : Nat := 10

/-- `block_offset = n + 1` (42_block_decoder.md R112). -/
abbrev offsetBias : Nat := 1

/-- Group width and bit budget of the length chain, `get_chain(3, 100000)` (42_block_decoder.md R112). -/
abbrev lengthLink : Nat := 3
abbrev lengthBudget : Nat := 100000

/-- The shortest COPY (42_block_decoder.md R112). -/
abbrev minCopyLen : Nat := 3

/-- The width of a byte of a RAW run (42_block_decoder.md R115). -/
abbrev rawWidth : Nat := 8

/-- Base width of the literal field, cap of its prefix bits, largest table position (42_block_decoder.md R116). -/
abbrev litBaseWidth : Nat := 4
abbrev litPrefixCap : Nat := 16
abbrev litPosLimit : Nat := 255

/-- Length of either header; the first block or code stands right after it (44_pxa_engine.md R140, R144,
46_p8_decoder.md R170, R171). -/
abbrev headerLen : Nat := 8

/-- How many bytes the Dispatcher looks at (45_dispatcher.md R160). -/
abbrev sniffLen : Nat := 4

/-- `00 'p' 'x' 'a'` (30_encoding.md R61). -/
abbrev pxaMagic : List Byte := [0x00#8, 0x70#8, 0x78#8, 0x61#8]

/-- `':' 'c' ':' 00` (30_encoding.md R71). -/
abbrev p8Magic : List Byte := [0x3A#8, 0x63#8, 0x3A#8, 0x00#8]

/-- Codes below this are alphabet literals, the others back-references; also the alphabet's size (46_p8_decoder.md R169,
R176; 90_conflicts.md C1). -/
abbrev p8AlphabetSize : Nat := 60

/-- `block_offset = (val - 60) * 16 + val2 % 16`, `block_len = val2 / 16 + 2` (46_p8_decoder.md R177). -/
abbrev p8Nibble : Nat := 16
abbrev p8LenBias : Nat := 2

/-- `'?'` (46_p8_decoder.md R176). -/
abbrev p8Fallback : Byte := 0x3F#8

/-- The P8 capacity of a dispatched call without a cap (45_dispatcher.md R163, decision D17). -/
abbrev p8UncappedCap : Nat := 65535

/-- `LIT[i] = i`, the default of `LIT_INIT` (10_state.md R31, decision D3). -/
def identityTable : Table := ⟨⟨(List.range 256).map (BitVec.ofNat 8)⟩, by simp⟩

/-- PRESUMED (log 5): the generally known alphabet, 93_implementation_defined.md K2, indices 0 to 59. -/
def knownAlphabet : Vector Byte 60 :=
  ⟨⟨([0x5E, 0x0A, 0x20, 0x30, 0x31, 0x32, 0x33, 0x34, 0x35, 0x36, 0x37, 0x38, 0x39,
      0x61, 0x62, 0x63, 0x64, 0x65, 0x66, 0x67, 0x68, 0x69, 0x6A, 0x6B, 0x6C, 0x6D, 0x6E, 0x6F, 0x70, 0x71, 0x72,
      0x73, 0x74, 0x75, 0x76, 0x77, 0x78, 0x79, 0x7A] : List Byte)
    ++ [0x21, 0x23, 0x25, 0x28, 0x29, 0x7B, 0x7D, 0x5B, 0x5D, 0x3C, 0x3E,
        0x2B, 0x3D, 0x2F, 0x2A, 0x3A, 0x3B, 0x2E, 0x2C, 0x7E, 0x5F]⟩, by simp⟩

/-- `"if(_update60)_update=function()_update60()_update"`, with which both generally known trailers begin. -/
def knownTrailerStem : List Byte :=
  [0x69, 0x66, 0x28, 0x5F, 0x75, 0x70, 0x64, 0x61, 0x74, 0x65, 0x36, 0x30, 0x29]                  -- if(_update60)
  ++ [0x5F, 0x75, 0x70, 0x64, 0x61, 0x74, 0x65, 0x3D]                                              -- _update=
  ++ [0x66, 0x75, 0x6E, 0x63, 0x74, 0x69, 0x6F, 0x6E, 0x28, 0x29]                                  -- function()
  ++ [0x5F, 0x75, 0x70, 0x64, 0x61, 0x74, 0x65, 0x36, 0x30, 0x28, 0x29]                            -- _update60()
  ++ [0x5F, 0x75, 0x70, 0x64, 0x61, 0x74, 0x65]                                                    -- _update

/-- PRESUMED (log 5): the generally known `P8_TRAILER_1`, 93_implementation_defined.md K2. -/
def knownTrailer1 : List Byte :=
  knownTrailerStem ++ [0x36, 0x30, 0x28, 0x29, 0x65, 0x6E, 0x64]                                   -- 60()end

/-- PRESUMED (log 5): the generally known `P8_TRAILER_2`, 93_implementation_defined.md K2. -/
def knownTrailer2 : List Byte :=
  knownTrailerStem ++ [0x5F, 0x62, 0x75, 0x74, 0x74, 0x6F, 0x6E, 0x73, 0x28, 0x29]                 -- _buttons()
  ++ [0x5F, 0x75, 0x70, 0x64, 0x61, 0x74, 0x65, 0x36, 0x30, 0x28, 0x29, 0x65, 0x6E, 0x64]          -- _update60()end

/-- The defaults of the open parameters: the identity table (decision D3) and the values of
93_implementation_defined.md K2 (log 5). No statement rests on them. -/
def defaultConfig : Config where
  litInit := identityTable
  alphabet := knownAlphabet
  trailer1 := knownTrailer1
  trailer2 := knownTrailer2

end Sys2Proof.Machine
end

