-- ==== Sys2Proof/Machine/LiteralTable.lean ====
section
/-! DEFINITION. Unit 4, the Adaptive Literal Model (43_literal_model.md R130 to R134): the table `LIT` and its inverse
`LPOS`. -/

namespace Sys2Proof.Machine

/-- Entry `i` of a table (43_literal_model.md R130). -/
def readTable (t : Table) (i : Byte) : Byte := t[i.toNat]'i.isLt

/-- Write entry `i` of a table. -/
def writeTable (t : Table) (i v : Byte) : Table := t.set i.toNat v i.isLt

/-- `LIT` and `LPOS` together, which only a LIT block writes (10_state.md R16). -/
structure Tables where
  lit : Table
  lpos : Table
  deriving DecidableEq, Repr

/-- The entry at `i` moves to `i + 1` and its position counter goes up by one (43_literal_model.md R132). -/
def moveBack (i : Nat) (t : Tables) : Tables :=
  let b := readTable t.lit (BitVec.ofNat 8 i)
  ⟨writeTable t.lit (BitVec.ofNat 8 (i + 1)) b, writeTable t.lpos b (readTable t.lpos b + 1#8)⟩

/-- `for i from lpos down to 1` (43_literal_model.md R131): the highest entry moves first. -/
def shiftBack : Nat → Tables → Tables
  | 0, t => t
  | i + 1, t => shiftBack i (moveBack i t)

/-- `mtf_update(lpos, c)` with the position counters (43_literal_model.md R131, R132). -/
def moveToFront (lpos c : Byte) (t : Tables) : Tables :=
  let u := shiftBack lpos.toNat t
  ⟨writeTable u.lit 0#8 c, writeTable u.lpos c 0#8⟩

/-- `LPOS` at the start of a call: `LPOS[b]` is the index `i` with `LIT[i] = b` (10_state.md R15, R31; log 12). -/
def inverseTable (t : Table) : Table :=
  ⟨⟨(List.range 256).map (fun b => BitVec.ofNat 8 (t.toList.idxOf (BitVec.ofNat 8 b)))⟩, by simp⟩

end Sys2Proof.Machine
end

