-- ==== Sys2Proof/Syntax.lean ====
section
/-! DEFINITION. The instructions: one constructor per row of spec/opcode_table.json. Operands are the fields of the
encodings of 30_encoding.md (R61 to R75), not the values computed from them. -/

namespace Sys2Proof

/-- The instructions of the decode engine. -/
inductive Instr where
  /-- LIT0: marker 1, 0 one-bits, a zero, a 4-bit field `v`; table position 0 + v (30_encoding.md R63). -/
  | lit0 (v : BitVec 4)
  /-- LIT1: marker 1, 1 one-bits, a zero, a 5-bit field `v`; table position 16 + v (30_encoding.md R63). -/
  | lit1 (v : BitVec 5)
  /-- LIT2: marker 1, 2 one-bits, a zero, a 6-bit field `v`; table position 48 + v (30_encoding.md R63). -/
  | lit2 (v : BitVec 6)
  /-- LIT3: marker 1, 3 one-bits, a zero, a 7-bit field `v`; table position 112 + v (30_encoding.md R63). -/
  | lit3 (v : BitVec 7)
  /-- LIT4: marker 1, 4 one-bits, a zero, a 8-bit field `v`; table position 240 + v (30_encoding.md R63). -/
  | lit4 (v : BitVec 8)
  /-- LIT.E5: marker 1, 5 one-bits, a zero, a 9-bit field that is read and discarded (30_encoding.md R69). -/
  | litE5 (v : BitVec 9)
  /-- LIT.E6: marker 1, 6 one-bits, a zero, a 10-bit field that is read and discarded (30_encoding.md R69). -/
  | litE6 (v : BitVec 10)
  /-- LIT.E7: marker 1, 7 one-bits, a zero, a 11-bit field that is read and discarded (30_encoding.md R69). -/
  | litE7 (v : BitVec 11)
  /-- LIT.E8: marker 1, 8 one-bits, a zero, a 12-bit field that is read and discarded (30_encoding.md R69). -/
  | litE8 (v : BitVec 12)
  /-- LIT.E9: marker 1, 9 one-bits, a zero, a 13-bit field that is read and discarded (30_encoding.md R69). -/
  | litE9 (v : BitVec 13)
  /-- LIT.E10: marker 1, 10 one-bits, a zero, a 14-bit field that is read and discarded (30_encoding.md R69). -/
  | litE10 (v : BitVec 14)
  /-- LIT.E11: marker 1, 11 one-bits, a zero, a 15-bit field that is read and discarded (30_encoding.md R69). -/
  | litE11 (v : BitVec 15)
  /-- LIT.E12: marker 1, 12 one-bits, a zero; the field is not read (30_encoding.md R69, decision D7). -/
  | litE12
  /-- LIT.E13: marker 1, 13 one-bits, a zero; the field is not read (30_encoding.md R69, decision D7). -/
  | litE13
  /-- LIT.E14: marker 1, 14 one-bits, a zero; the field is not read (30_encoding.md R69, decision D7). -/
  | litE14
  /-- LIT.E15: marker 1, 15 one-bits, a zero; the field is not read (30_encoding.md R69, decision D7). -/
  | litE15
  /-- LIT.E16: marker 1 and 16 one-bits, nothing more is read (30_encoding.md R69, decisions D6 and D7). -/
  | litE16
  /-- COPY15: a 15-bit offset field `n` and the value of the length chain (30_encoding.md R64, R66). -/
  | copy15 (n : BitVec 15) (chain : Nat)
  /-- COPY10: a 10-bit offset field `n` and the value of the length chain (30_encoding.md R64, R66). -/
  | copy10 (n : BitVec 10) (chain : Nat)
  /-- COPY5: a 5-bit offset field `n` and the value of the length chain (30_encoding.md R64, R66). -/
  | copy5 (n : BitVec 5) (chain : Nat)
  /-- RAW: the sentinel. The bytes of the run follow in the stream; they are no operand (42_block_decoder.md R115). -/
  | raw
  /-- P8.ESC: `00 b` (30_encoding.md R72). -/
  | p8Esc (b : Byte)
  /-- P8.SYM: one byte `val`, 1 to 59 (30_encoding.md R72). -/
  | p8Sym (val : Byte)
  /-- P8.BACK: `val val2`, `val` 60 to 255 (30_encoding.md R72). -/
  | p8Back (val val2 : Byte)
  /-- HDR.PXA: the 8-byte PXA header with its two 16-bit fields (30_encoding.md R61). -/
  | hdrPxa (rawLen compLen : Half)
  /-- HDR.P8: the 8-byte P8 header with its 16-bit length (30_encoding.md R71). -/
  | hdrP8 (len : Half)
  /-- SNIFF.PXA: the first four bytes, of which at least one matches the PXA magic (30_encoding.md R75). -/
  | sniffPxa (b0 b1 b2 b3 : Byte)
  /-- SNIFF.P8: the first four bytes are the P8 magic (30_encoding.md R75). -/
  | sniffP8
  /-- SNIFF.LEGACY: the first four bytes match neither test (30_encoding.md R75). -/
  | sniffLegacy (b0 b1 b2 b3 : Byte)
  deriving DecidableEq, Repr, Inhabited

end Sys2Proof
end

