-- ==== Sys2Proof/Machine/State.lean ====
section
/-! DEFINITION. The state of one decode call (10_state.md R10), its parameters (00_scope.md R8), the reasons a step can
stop, and the state after reset. -/

namespace Sys2Proof.Machine

/-- A byte memory: address and byte pairs, addresses strictly rising. An address that is not listed holds no value
(10_state.md R23). -/
abbrev Memory := List Host.Cell

/-- `ENTRY`, the entry point called (45_dispatcher.md R159). -/
inductive Entry where
  /-- `decompress`. -/
  | auto
  /-- `decompress_pxa`. -/
  | pxa
  /-- `decompress_p8`. -/
  | p8
  deriving DecidableEq, Repr, Inhabited

/-- `STATUS` (10_state.md R21). -/
inductive Status where
  /-- No call yet, or the result of the last call has been taken. -/
  | idle
  /-- A call is in progress. -/
  | running
  /-- The call ended with `Ok`. -/
  | done
  /-- The call ended with an error or the abort. -/
  | fault
  deriving DecidableEq, Repr, Inhabited

/-- `ERR`, the kind of the fault that ended the call (10_state.md R22, 60_exceptions.md R190), in the order of the codes
0 to 7. -/
inductive Err where
  | none
  | endOfInput
  | invalidHeader
  | invalidBlock
  | literalOverflow
  | outputExceeded
  | unsupported
  | consistencyFailure
  deriving DecidableEq, Repr, Inhabited

/-- Why the machine has no next state. No running step of a state that meets State.Inv ends in one of these. -/
inductive Fault where
  /-- Raised by the step when `STATUS` is not RUNNING: no call is in progress, so nothing runs (60_exceptions.md R198,
  R201; log 7). Safe. -/
  | noCallRunning
  /-- Raised by a read of a cell of `OUT` that holds no value (10_state.md R23; log 9). Safe. -/
  | outCellHasNoValue
  /-- Raised by a write of `OUT` at or above the capacity (00_scope.md 6.3, 10_state.md R23; log 9). Safe. -/
  | outBeyondCapacity
  deriving DecidableEq, Repr, Inhabited

/-- Why an instruction has no meaning. -/
inductive Refusal where
  /-- Raised by exec's arm of an instruction that has no meaning yet. Safe. -/
  | notModelled (mnemonic : String)
  deriving DecidableEq, Repr, Inhabited

/-- The state of one decode call. -/
structure State where
  /-- The open parameters of the build (00_scope.md R8). Never written by a step. -/
  cfg : Config
  /-- `IN`; its length is `IN_LEN` (00_scope.md R8, 10_state.md R24). Never written by a step. -/
  input : List Byte
  /-- `CAP` (00_scope.md R8). Never written by a step. -/
  cap : Option Nat
  /-- `ENTRY` (00_scope.md R8). Never written by a step. -/
  entry : Entry
  /-- `P8_OUT_CAP` (00_scope.md R8). Never written by a step. -/
  p8OutCap : Nat
  /-- `CUR` (10_state.md R11). -/
  cur : Cursor
  /-- `LIT[0..255]` (10_state.md R14). -/
  lit : Table
  /-- `LPOS[0..255]` (10_state.md R15). -/
  lpos : Table
  /-- `RAW_LEN` (10_state.md R17). -/
  rawLen : Half
  /-- `COMP_LEN` (10_state.md R17). -/
  compLen : Half
  /-- `MAX_LEN` (10_state.md R18). -/
  maxLen : Half
  /-- `DEST_POS` (10_state.md R19; a natural number, log 10). -/
  destPos : Nat
  /-- `FORMAT` (10_state.md R20). -/
  format : Format
  /-- `STATUS` (10_state.md R21). -/
  status : Status
  /-- `ERR` (10_state.md R22). -/
  err : Err
  /-- `OUT` (10_state.md R23). -/
  out : Memory
  /-- `P8_LEN` (10_state.md R28). -/
  p8Len : Half
  /-- `P8_SRC` (10_state.md R28). -/
  p8Src : Nat
  /-- `P8_CAP` (10_state.md R28). -/
  p8Cap : Nat
  /-- The model's own field (log 1): where in its procedure the call stands. -/
  phase : Phase
  /-- The model's own field (log 8): the length the call returned, none while it has returned no bytes. -/
  result : Option Nat
  /-- The model's own field (log 6): selects the next free values. -/
  free : Nat
  deriving DecidableEq, Repr

/-- `FORMAT` at the start of a call (10_state.md R31). -/
abbrev State.startFormat : Entry → Format
  | .auto => .none
  | .pxa => .pxa
  | .p8 => .p8

/-- The first thing that executes is the entry point named by `ENTRY` (70_reset_and_hazards.md R220). -/
abbrev State.startPhase : Entry → Phase
  | .auto => .sniff
  | .pxa => .pxaHeader
  | .p8 => .p8Header

/-- The state at the start of a call with the given parameters (10_state.md R31, 70_reset_and_hazards.md R220). The
registers that R31 leaves unspecified until a header parse are zero: DESIGN CHOICE, log 3. -/
def State.start (cfg : Config) (input : List Byte) (cap : Option Nat) (entry : Entry) (p8OutCap : Nat) : State where
  cfg := cfg
  input := input
  cap := cap
  entry := entry
  p8OutCap := p8OutCap
  cur := ⟨0, 1#8⟩
  lit := cfg.litInit
  lpos := inverseTable cfg.litInit
  rawLen := 0#16
  compLen := 0#16
  maxLen := 0#16
  destPos := 0
  format := State.startFormat entry
  status := .running
  err := .none
  out := []
  p8Len := 0#16
  p8Src := 0
  p8Cap := 0
  phase := State.startPhase entry
  result := none
  free := 0

/-- The machine right after reset, which is the start of a call (70_reset_and_hazards.md R220): here a call of
`decompress` on an empty input without a cap. The parameters are a DESIGN CHOICE, log 4. -/
def State.reset : State := State.start defaultConfig [] none .auto 0

end Sys2Proof.Machine
end

