-- ==== Sys2Proof/Machine/Flags.lean ====
section
/-! DEFINITION. The engine has no condition codes (10_state.md R26). What it decides on instead: the two loop conditions,
the checks of a back-reference, the completion check, and how an `ERR` value is numbered. -/

namespace Sys2Proof.Machine

/-- The loop condition of the PXA engine, `CUR.byte < COMP_LEN and DEST_POS < MAX_LEN` (44_pxa_engine.md R146). -/
def moreBlocks (s : State) : Bool := decide (s.cur.byte < s.compLen.toNat ∧ s.destPos < s.maxLen.toNat)

/-- The loop condition of the P8 decoder, `DEST_POS < P8_LEN` (46_p8_decoder.md R174, decision D15). -/
def moreCodes (s : State) : Bool := decide (s.destPos < s.p8Len.toNat)

/-- The three checks of a back-reference: it is rejected when the offset is zero, reaches before `OUT[0]`, or the copy
would pass the capacity (42_block_decoder.md R113, 46_p8_decoder.md R177). -/
def copyRejected (offset len capacity destPos : Nat) : Bool :=
  decide (offset = 0 ∨ offset > destPos ∨ destPos + len > capacity)

/-- The completion check of the PXA engine (44_pxa_engine.md R148). -/
def pxaComplete (s : State) : Bool := s.destPos == s.maxLen.toNat

/-- The code of an `ERR` value (60_exceptions.md R190, decision D5). Nothing depends on it. -/
def errCode : Err → Nat
  | .none => 0
  | .endOfInput => 1
  | .invalidHeader => 2
  | .invalidBlock => 3
  | .literalOverflow => 4
  | .outputExceeded => 5
  | .unsupported => 6
  | .consistencyFailure => 7

/-- The kind that a rejection of the decoder raises (60_exceptions.md R191, R192). -/
def decodeErr : DecodeError → Err
  | .endOfInput => .endOfInput
  | .badMagic => .invalidHeader

end Sys2Proof.Machine
end

