-- ==== Sys2Proof/Machine/Operands.lean ====
section
/-! DEFINITION. Every operand the engine forms from the fields of an instruction (30_encoding.md R67, R72), and the two
capacities (44_pxa_engine.md R143, 45_dispatcher.md R163). All are unsigned. -/

namespace Sys2Proof.Machine

/-- `lpos` of a LIT block with `e` prefix bits and field `v`: `((1 << e) - 1) * 16 + v` (30_encoding.md R67). -/
def literalPosition (e v : Nat) : Nat := (2 ^ e - 1) * 2 ^ litBaseWidth + v

/-- `block_offset = n + 1` (30_encoding.md R67). -/
def blockOffset (n : Nat) : Nat := n + offsetBias

/-- `block_len`, the value of the length chain plus 3 (30_encoding.md R67). -/
def blockLength (chain : Nat) : Nat := chain + minCopyLen

/-- `block_offset` of a P8 back-reference (46_p8_decoder.md R177). -/
def p8Offset (val val2 : Byte) : Nat := (val.toNat - p8AlphabetSize) * p8Nibble + val2.toNat % p8Nibble

/-- `block_len` of a P8 back-reference (46_p8_decoder.md R177). -/
def p8Length (val2 : Byte) : Nat := val2.toNat / p8Nibble + p8LenBias

/-- The byte of a P8 literal code, with the fallback as R176 writes it (46_p8_decoder.md R176, decision D28). -/
def p8Symbol (alphabet : Vector Byte 60) (val : Byte) : Byte :=
  if h : val.toNat < 60 then alphabet[val.toNat] else p8Fallback

/-- `MAX_LEN = min(CAP, RAW_LEN)`, or `RAW_LEN` with no cap (44_pxa_engine.md R143). -/
def pxaCapacity (cap : Option Nat) (rawLen : Half) : Half :=
  match cap with
  | none => rawLen
  | some k => BitVec.ofNat 16 (min k rawLen.toNat)

/-- `P8_CAP`: `P8_OUT_CAP` when `decompress_p8` is called (45_dispatcher.md R159), else the cap, or 65535 with none
(45_dispatcher.md R163, decision D17). -/
def p8Capacity (entry : Entry) (cap : Option Nat) (p8OutCap : Nat) : Nat :=
  match entry with
  | .p8 => p8OutCap
  | .auto | .pxa => cap.getD p8UncappedCap

end Sys2Proof.Machine
end

