-- ==== Sys2Proof/Machine/Ops.lean ====
section
/-! DEFINITION. The named operations: memory, one byte of output, the byte-serial copy, the table update on the state,
raising a fault, the end of a call, and what the host does around a call. -/

namespace Sys2Proof.Machine

/-- The three outcomes of a step of this machine. -/
abbrev Outcome := Host.Outcome State Fault Refusal

/-- Go on from a next state; a fault or a refusal stops. -/
def andThen (o : Outcome) (f : State → Outcome) : Outcome :=
  match o with
  | .next s => f s
  | .fault r => .fault r
  | .refused r => .refused r

/-! ### Memory -/

/-- The byte at an address, none where no value has been written (10_state.md R23). -/
def Memory.read : Memory → Nat → Option Byte
  | [], _ => none
  | (a, b) :: m, x => if x = a then some b else Memory.read m x

/-- Write one byte, keeping the addresses strictly rising. -/
def Memory.write : Memory → Nat → Byte → Memory
  | [], x, v => [(x, v)]
  | (a, b) :: m, x, v =>
    if x < a then (x, v) :: (a, b) :: m
    else if x = a then (x, v) :: m
    else (a, b) :: Memory.write m x v

/-- The canonical form: addresses strictly rising. An unlisted address reads as no value, which no entry can equal. -/
abbrev Memory.wf (m : Memory) : Prop := List.Pairwise (fun p q => p.1 < q.1) m

/-! ### One byte of output -/

/-- `OUT[DEST_POS] <- b ; DEST_POS <- DEST_POS + 1` (10_state.md R19). -/
def State.appendByte (b : Byte) (s : State) : State :=
  { s with out := s.out.write s.destPos b, destPos := s.destPos + 1 }

/-- Append a byte below the capacity. A write at or above it is no cell of `OUT`: the model stops (log 9). -/
def putByte (capacity : Nat) (b : Byte) (s : State) : Outcome :=
  if s.destPos < capacity then .next (s.appendByte b) else .fault .outBeyondCapacity

/-- `MemRead(OUT, a, 1)`, legal only below `DEST_POS` (00_scope.md 6.3). -/
def State.readOut (s : State) (a : Nat) : Option Byte := if a < s.destPos then s.out.read a else none

/-- The copy of a back-reference, one byte at a time in ascending order, so that an overlapping copy reads what it has
written (20_memory.md R51, 42_block_decoder.md R114, 46_p8_decoder.md R178). -/
def copyBytes (capacity offset : Nat) : Nat → State → Outcome
  | 0, s => .next s
  | k + 1, s =>
    match s.readOut (s.destPos - offset) with
    | none => .fault .outCellHasNoValue
    | some b => andThen (putByte capacity b s) (copyBytes capacity offset k)

/-! ### The cursor and the tables -/

/-- The cursor moves to `c`. -/
def State.setCursor (c : Cursor) (s : State) : State := { s with cur := c }

/-- `P8_SRC` moves to `src`. -/
def State.setSource (src : Nat) (s : State) : State := { s with p8Src := src }

/-- `mtf_update(lpos, c)` on the state (43_literal_model.md R131, R132). -/
def State.moveToFront (lpos c : Byte) (s : State) : State :=
  let t := Sys2Proof.Machine.moveToFront lpos c ⟨s.lit, s.lpos⟩
  { s with lit := t.lit, lpos := t.lpos }

/-! ### Raising a fault -/

/-- The state a fault leaves (60_exceptions.md R198, R199): `ERR` and `STATUS` are written and the call is over. After
it only the kind has a value: every register that is state of the call (10_state.md R10, R28) is a free value and `OUT`
holds no value (log 6; decision D25, 93_implementation_defined.md U8). The parameters, which are no state (R29), are as
they were. -/
def State.raised (e : Err) (s : State) : State :=
  { s with
    status := .fault
    err := e
    result := none
    out := []
    format := Config.freeFormat s.free
    destPos := Config.freeNat (3 * s.free)
    p8Src := Config.freeNat (3 * s.free + 1)
    p8Cap := Config.freeNat (3 * s.free + 2)
    cur := Config.freeCursor s.free
    lit := Config.freeTable (2 * s.free)
    lpos := Config.freeTable (2 * s.free + 1)
    rawLen := Config.freeHalf (4 * s.free)
    compLen := Config.freeHalf (4 * s.free + 1)
    maxLen := Config.freeHalf (4 * s.free + 2)
    p8Len := Config.freeHalf (4 * s.free + 3)
    free := s.free + 1 }

/-- `raise E`, and `abort ConsistencyFailure` (60_exceptions.md R197, R198): the one way an exception is taken. There is
no return from it (R201). -/
def raise (e : Err) (s : State) : Outcome := .next (s.raised e)

/-! ### The end of a call -/

/-- The call ends with `Ok` of `len` bytes (44_pxa_engine.md R150, 46_p8_decoder.md R182). DESIGN CHOICE (log 33): the
cursor, the table, the other registers and `OUT` stay as the loop left them, of which 70_reset_and_hazards.md R223 says
nothing. -/
def State.finished (len : Nat) (s : State) : State := { s with status := .done, result := some len }

/-- `OUT[0 .. n)` ends with the snippet, byte for byte at its exact end (46_p8_decoder.md R181). -/
def endsWith (m : Memory) (n : Nat) (snippet : List Byte) : Bool :=
  decide (snippet.length ≤ n) &&
    (List.range snippet.length).all (fun i => m.read (n - snippet.length + i) == snippet[i]?)

/-- `strip_trailer(n)` (46_p8_decoder.md R181, decision D19): the first of the two that matches, at most one. -/
def stripTrailer (cfg : Config) (m : Memory) (n : Nat) : Nat :=
  if endsWith m n cfg.trailer1 then n - cfg.trailer1.length
  else if endsWith m n cfg.trailer2 then n - cfg.trailer2.length
  else n

/-- The PXA engine after its loop (44_pxa_engine.md R148, R150). -/
def finishPxa (s : State) : Outcome :=
  if pxaComplete s then .next (s.finished s.maxLen.toNat) else raise .consistencyFailure s

/-- The P8 decoder after its loop (46_p8_decoder.md R181, R182). -/
def finishP8 (s : State) : Outcome := .next (s.finished (stripTrailer s.cfg s.out s.destPos))

/-! ### The host around a call -/

/-- The bytes a call returned (44_pxa_engine.md R150, 45_dispatcher.md R163, 46_p8_decoder.md R182), none unless it ended
with `Ok`. -/
def State.okBytes (s : State) : Option (List Byte) :=
  match s.status with
  | .done => s.result.map (fun n => (List.range n).filterMap s.out.read)
  | .idle | .running | .fault => none

/-- A new call: every piece of state takes its reset value, whatever the previous call did (70_reset_and_hazards.md
R220). Only the counter of free values goes on, so that no two calls share one (log 6). -/
def State.beginCall (cfg : Config) (input : List Byte) (cap : Option Nat) (entry : Entry) (p8OutCap : Nat)
    (s : State) : State :=
  { State.start cfg input cap entry p8OutCap with free := s.free }

/-- The host has taken the result of the last call (10_state.md R21; log 30). -/
def State.takeResult (s : State) : State := { s with status := .idle, err := .none, result := none, out := [] }

/-- No call yet (10_state.md R21; log 30). -/
def State.idle : State := { State.reset with status := .idle }

end Sys2Proof.Machine
end

