-- ==== Sys2Proof/Machine/Copy.lean ====
section
/-! DEFINITION. The COPY blocks (42_block_decoder.md R112 to R114). -/

namespace Sys2Proof.Machine

/-- A COPY whose operands have been read: the three checks, then the byte-serial copy (42_block_decoder.md R113, R114).
The capacity is `MAX_LEN`, the cap included (decision D12). -/
def copyBlock (offset len : Nat) (s : State) : Outcome :=
  if copyRejected offset len s.maxLen.toNat s.destPos then raise .invalidBlock s
  else copyBytes s.maxLen.toNat offset len s

/-- COPY15. -/
def execCopy15 (n : BitVec 15) (chain : Nat) (s : State) : Outcome :=
  copyBlock (blockOffset n.toNat) (blockLength chain) s

/-- COPY10. -/
def execCopy10 (n : BitVec 10) (chain : Nat) (s : State) : Outcome :=
  copyBlock (blockOffset n.toNat) (blockLength chain) s

/-- COPY5. -/
def execCopy5 (n : BitVec 5) (chain : Nat) (s : State) : Outcome :=
  copyBlock (blockOffset n.toNat) (blockLength chain) s

end Sys2Proof.Machine
end

