-- ==== Sys2Proof/Machine/Header.lean ====
section
/-! DEFINITION. The two headers (44_pxa_engine.md R142 to R144, 46_p8_decoder.md R171, R172). The length and magic checks
come before them, in the fetch. -/

namespace Sys2Proof.Machine

/-- The fields, the capacity, an output buffer with no cell written, the cursor on the first bit after the header, the
table at its start-of-call value (44_pxa_engine.md R142 to R144, decisions D2 and D3). -/
def State.pxaStarted (rawLen compLen : Half) (s : State) : State :=
  { s with
    rawLen := rawLen
    compLen := compLen
    maxLen := pxaCapacity s.cap rawLen
    out := []
    destPos := 0
    cur := ⟨headerLen, 1#8⟩
    lit := s.cfg.litInit
    lpos := inverseTable s.cfg.litInit
    phase := .pxaBlocks }

/-- HDR.PXA. -/
def execHdrPxa (rawLen compLen : Half) (s : State) : Outcome := .next (s.pxaStarted rawLen compLen)

/-- The length, the capacity of the call (log 11), the first code and the empty output (46_p8_decoder.md R171). -/
def State.p8Started (len : Half) (capacity : Nat) (s : State) : State :=
  { s with p8Len := len, p8Cap := capacity, p8Src := headerLen, destPos := 0, phase := .p8Codes }

/-- HDR.P8: rejected when the length exceeds the capacity (46_p8_decoder.md R172). -/
def execHdrP8 (len : Half) (s : State) : Outcome :=
  let capacity := p8Capacity s.entry s.cap s.p8OutCap
  if len.toNat > capacity then raise .outputExceeded s else .next (s.p8Started len capacity)

end Sys2Proof.Machine
end

