-- ==== Sys2Proof/Machine/Literal.lean ====
section
/-! DEFINITION. The LIT blocks (42_block_decoder.md R116, R117; 43_literal_model.md R130 to R132): LIT0 to LIT4, and the
forms LIT.E5 to LIT.E16 whose table position is always above 255 (30_encoding.md R69). -/

namespace Sys2Proof.Machine

/-- `emit_literal(lpos)` (42_block_decoder.md R117): the byte is resolved before the table is rotated (70_reset_and_hazards.md
R226). -/
def emitLiteral (lpos : Byte) (s : State) : Outcome :=
  let c := readTable s.lit lpos
  andThen (putByte s.maxLen.toNat c s) (fun t => .next (t.moveToFront lpos c))

/-- A LIT block with `e` prefix bits whose field `v` has been read: rejected when the position is above 255
(42_block_decoder.md R116). -/
def literalBlock (e v : Nat) (s : State) : Outcome :=
  let lpos := literalPosition e v
  if lpos > litPosLimit then raise .literalOverflow s else emitLiteral (BitVec.ofNat 8 lpos) s

/-- A LIT block whose field would be wider than 15 bits: rejected without reading it (42_block_decoder.md R116, decision
D7). -/
def literalTooWide (s : State) : Outcome := raise .literalOverflow s

/-- LIT0. -/
def execLit0 (v : BitVec 4) (s : State) : Outcome := literalBlock 0 v.toNat s

/-- LIT1. -/
def execLit1 (v : BitVec 5) (s : State) : Outcome := literalBlock 1 v.toNat s

/-- LIT2. -/
def execLit2 (v : BitVec 6) (s : State) : Outcome := literalBlock 2 v.toNat s

/-- LIT3. -/
def execLit3 (v : BitVec 7) (s : State) : Outcome := literalBlock 3 v.toNat s

/-- LIT4. -/
def execLit4 (v : BitVec 8) (s : State) : Outcome := literalBlock 4 v.toNat s

/-- LIT.E5. -/
def execLitE5 (v : BitVec 9) (s : State) : Outcome := literalBlock 5 v.toNat s

/-- LIT.E6. -/
def execLitE6 (v : BitVec 10) (s : State) : Outcome := literalBlock 6 v.toNat s

/-- LIT.E7. -/
def execLitE7 (v : BitVec 11) (s : State) : Outcome := literalBlock 7 v.toNat s

/-- LIT.E8. -/
def execLitE8 (v : BitVec 12) (s : State) : Outcome := literalBlock 8 v.toNat s

/-- LIT.E9. -/
def execLitE9 (v : BitVec 13) (s : State) : Outcome := literalBlock 9 v.toNat s

/-- LIT.E10. -/
def execLitE10 (v : BitVec 14) (s : State) : Outcome := literalBlock 10 v.toNat s

/-- LIT.E11. -/
def execLitE11 (v : BitVec 15) (s : State) : Outcome := literalBlock 11 v.toNat s

/-- LIT.E12. -/
def execLitE12 (s : State) : Outcome := literalTooWide s

/-- LIT.E13. -/
def execLitE13 (s : State) : Outcome := literalTooWide s

/-- LIT.E14. -/
def execLitE14 (s : State) : Outcome := literalTooWide s

/-- LIT.E15. -/
def execLitE15 (s : State) : Outcome := literalTooWide s

/-- LIT.E16. -/
def execLitE16 (s : State) : Outcome := literalTooWide s

end Sys2Proof.Machine
end

