-- ==== Sys2Proof/Machine/P8.lean ====
section
/-! DEFINITION. The P8 codes (46_p8_decoder.md R175 to R178). -/

namespace Sys2Proof.Machine

/-- A back-reference against a capacity: the three checks, then the byte-serial copy (46_p8_decoder.md R177, R178,
decisions D16 and D18). -/
def p8Copy (offset len : Nat) (s : State) : Outcome :=
  if copyRejected offset len s.p8Cap s.destPos then raise .invalidBlock s
  else copyBytes s.p8Cap offset len s

/-- P8.ESC: the byte, verbatim (46_p8_decoder.md R175). -/
def execP8Esc (b : Byte) (s : State) : Outcome := putByte s.p8Cap b s

/-- P8.SYM: the byte of the alphabet (46_p8_decoder.md R176). -/
def execP8Sym (val : Byte) (s : State) : Outcome := putByte s.p8Cap (p8Symbol s.cfg.alphabet val) s

/-- P8.BACK (46_p8_decoder.md R177, R178). -/
def execP8Back (val val2 : Byte) (s : State) : Outcome := p8Copy (p8Offset val val2) (p8Length val2) s

end Sys2Proof.Machine
end

