-- ==== Sys2Proof/Machine/BitReader.lean ====
section
/-! DEFINITION. Unit 1, the Bit Reader (40_bit_reader.md R90 to R94), and the byte fetch of the P8 decoder
(46_p8_decoder.md R173). They read `IN`, here a list of bytes. -/

namespace Sys2Proof.Machine

/-- One bit further: past mask 128 the mask is 1 again and the byte index goes up (40_bit_reader.md R90). -/
def Cursor.advance (c : Cursor) : Cursor :=
  if c.mask = 128#8 then ⟨c.byte + 1, 1#8⟩ else ⟨c.byte, c.mask * 2#8⟩

/-- `get_bit` (40_bit_reader.md R90): the bound is checked before the byte is read. -/
def getBit (inp : List Byte) (c : Cursor) : Except DecodeError (Bool × Cursor) :=
  match inp[c.byte]? with
  | none => .error .endOfInput
  | some x => .ok ((x &&& c.mask) != 0#8, Cursor.advance c)

/-- `n` bits, least significant first (40_bit_reader.md R91). -/
def readBits (inp : List Byte) : Nat → Cursor → Except DecodeError (Nat × Cursor)
  | 0, c => .ok (0, c)
  | n + 1, c => do
    let (b, c1) ← getBit inp c
    let (v, c2) ← readBits inp n c1
    .ok (b.toNat + 2 * v, c2)

/-- `get_bits(n)`, defined for `n ≤ 15` only (40_bit_reader.md R91, R92; 93_implementation_defined.md U1). -/
def getBits (inp : List Byte) (n : Nat) (_h : n ≤ getBitsMax) (c : Cursor) : Except DecodeError (Nat × Cursor) :=
  readBits inp n c

/-- The bit address of a cursor, `8 * CUR.byte + log2(CUR.mask)` (10_state.md R11). -/
def Cursor.address (c : Cursor) : Nat := 8 * c.byte + Nat.log2 c.mask.toNat

/-- The cursor at a bit address (10_state.md R11). -/
def cursorAt (k : Nat) : Cursor := ⟨k / 8, BitVec.ofNat 8 (2 ^ (k % 8))⟩

/-- Bit `k` of the stream is bit `k % 8` of `IN[k / 8]` (20_memory.md R40). -/
def streamBit (inp : List Byte) (k : Nat) : Option Bool := inp[k / 8]?.map (fun x => x.getLsbD (k % 8))

/-- `next_byte` (46_p8_decoder.md R173). -/
def nextByte (inp : List Byte) (src : Nat) : Except DecodeError (Byte × Nat) :=
  match inp[src]? with
  | none => .error .endOfInput
  | some b => .ok (b, src + 1)

/-- A 16-bit header field, high byte first (20_memory.md R42). -/
def bigEndian (hi lo : Byte) : Half := BitVec.ofNat 16 (hi.toNat * 256 + lo.toNat)

end Sys2Proof.Machine
end

