-- ==== Sys2Proof/Machine/Raw.lean ====
section
/-! DEFINITION. The RAW block (42_block_decoder.md R115). -/

namespace Sys2Proof.Machine

/-- The run with room for `k` more bytes: the fullness test is `k = 0`, before each read (42_block_decoder.md R115,
decision D8). A zero byte ends the run and is consumed, not appended. -/
def rawRun : Nat → State → Outcome
  | 0, s => .next s
  | k + 1, s =>
    match getBits s.input rawWidth (by decide) s.cur with
    | .error e => raise (decodeErr e) s
    | .ok (v, c) =>
      if v = 0 then .next (s.setCursor c)
      else andThen (putByte s.maxLen.toNat (BitVec.ofNat 8 v) (s.setCursor c)) (rawRun k)

/-- RAW. -/
def execRaw (s : State) : Outcome := rawRun (s.maxLen.toNat - s.destPos) s

end Sys2Proof.Machine
end

