-- ==== Sys2Proof/Machine/Sniff.lean ====
section
/-! DEFINITION. The Dispatcher's three routes (45_dispatcher.md R161 to R163). The bytes that were classified take no
further part. -/

namespace Sys2Proof.Machine

/-- `FORMAT` is written and a decoder is entered (45_dispatcher.md R161). -/
def State.routed (format : Format) (phase : Phase) (s : State) : State := { s with format := format, phase := phase }

/-- SNIFF.PXA. -/
def execSniffPxa (_b0 _b1 _b2 _b3 : Byte) (s : State) : Outcome := .next (s.routed .pxa .pxaHeader)

/-- SNIFF.P8. -/
def execSniffP8 (s : State) : Outcome := .next (s.routed .p8 .p8Header)

/-- SNIFF.LEGACY: `FORMAT <- LEGACY ; raise Unsupported` (45_dispatcher.md R161, R162). -/
def execSniffLegacy (_b0 _b1 _b2 _b3 : Byte) (s : State) : Outcome := raise .unsupported (s.routed .legacy s.phase)

end Sys2Proof.Machine
end

