-- ==== Sys2Proof/Machine/Dispatch.lean ====
section
/-! DEFINITION. One arm per constructor of Instr. -/

namespace Sys2Proof.Machine

def exec (i : Instr) (s : State) : Host.Outcome State Fault Refusal :=
  match i with
  | .lit0 v => Sys2Proof.Machine.execLit0 v s
  | .lit1 v => Sys2Proof.Machine.execLit1 v s
  | .lit2 v => Sys2Proof.Machine.execLit2 v s
  | .lit3 v => Sys2Proof.Machine.execLit3 v s
  | .lit4 v => Sys2Proof.Machine.execLit4 v s
  | .litE5 v => Sys2Proof.Machine.execLitE5 v s
  | .litE6 v => Sys2Proof.Machine.execLitE6 v s
  | .litE7 v => Sys2Proof.Machine.execLitE7 v s
  | .litE8 v => Sys2Proof.Machine.execLitE8 v s
  | .litE9 v => Sys2Proof.Machine.execLitE9 v s
  | .litE10 v => Sys2Proof.Machine.execLitE10 v s
  | .litE11 v => Sys2Proof.Machine.execLitE11 v s
  | .litE12 => Sys2Proof.Machine.execLitE12 s
  | .litE13 => Sys2Proof.Machine.execLitE13 s
  | .litE14 => Sys2Proof.Machine.execLitE14 s
  | .litE15 => Sys2Proof.Machine.execLitE15 s
  | .litE16 => Sys2Proof.Machine.execLitE16 s
  | .copy15 n chain => Sys2Proof.Machine.execCopy15 n chain s
  | .copy10 n chain => Sys2Proof.Machine.execCopy10 n chain s
  | .copy5 n chain => Sys2Proof.Machine.execCopy5 n chain s
  | .raw => Sys2Proof.Machine.execRaw s
  | .p8Esc b => Sys2Proof.Machine.execP8Esc b s
  | .p8Sym val => Sys2Proof.Machine.execP8Sym val s
  | .p8Back val val2 => Sys2Proof.Machine.execP8Back val val2 s
  | .hdrPxa rawLen compLen => Sys2Proof.Machine.execHdrPxa rawLen compLen s
  | .hdrP8 len => Sys2Proof.Machine.execHdrP8 len s
  | .sniffPxa b0 b1 b2 b3 => Sys2Proof.Machine.execSniffPxa b0 b1 b2 b3 s
  | .sniffP8 => Sys2Proof.Machine.execSniffP8 s
  | .sniffLegacy b0 b1 b2 b3 => Sys2Proof.Machine.execSniffLegacy b0 b1 b2 b3 s

end Sys2Proof.Machine
end

