-- ==== Sys2Proof/Machine/Chain.lean ====
section
/-! DEFINITION. Unit 2, the Chain Integer Decoder (41_chain_decoder.md R100 to R104). -/

namespace Sys2Proof.Machine

/-- Groups of `link` bits until one is not maximal, at most `k` of them: the value is the sum of the groups
(41_chain_decoder.md R100). -/
def chainGroups (inp : List Byte) (link : Nat) (h : link ≤ getBitsMax) : Nat → Cursor → Except DecodeError (Nat × Cursor)
  | 0, c => .ok (0, c)
  | k + 1, c => do
    let (vv, c1) ← getBits inp link h c
    if vv = 2 ^ link - 1 then do
      let (rest, c2) ← chainGroups inp link h k c1
      .ok (vv + rest, c2)
    else .ok (vv, c1)

/-- `get_chain(link, budget)` (41_chain_decoder.md R100), defined under the preconditions of R104. The budget is tested
after each whole group, so it admits `⌈budget / link⌉` groups and ends the chain after that many maximal ones (log 28). -/
def getChain (inp : List Byte) (link budget : Nat) (h : 1 ≤ link ∧ link ≤ getBitsMax ∧ 1 ≤ budget) (c : Cursor) :
    Except DecodeError (Nat × Cursor) :=
  chainGroups inp link h.2.1 ((budget + link - 1) / link) c

/-- The selector of `get_num`, `get_chain(1, 2)` (41_chain_decoder.md R102). -/
def getSelector (inp : List Byte) (c : Cursor) : Except DecodeError (Nat × Cursor) :=
  getChain inp selectorLink selectorBudget (by decide) c

/-- The length chain of a COPY, `get_chain(3, 100000)` (42_block_decoder.md R112). -/
def getLengthChain (inp : List Byte) (c : Cursor) : Except DecodeError (Nat × Cursor) :=
  getChain inp lengthLink lengthBudget (by decide) c

/-- The width of the offset field, `(3 - selector) * 5` (41_chain_decoder.md R102). -/
def offsetWidth (selector : Nat) : Nat := (selectorTop - selector) * offsetUnit

theorem offsetWidth_le (selector : Nat) : offsetWidth selector ≤ getBitsMax := by
  simp only [offsetWidth, selectorTop, offsetUnit, getBitsMax]
  omega

/-- The selector and the offset field of `get_num` (41_chain_decoder.md R102). -/
def getNumField (inp : List Byte) (c : Cursor) : Except DecodeError (Nat × Nat × Cursor) := do
  let (selector, c1) ← getSelector inp c
  let (v, c2) ← getBits inp (offsetWidth selector) (offsetWidth_le selector) c1
  .ok (selector, v, c2)

/-- The RAW sentinel: the 10-bit width and the value 0 (41_chain_decoder.md R102). -/
def isSentinel (selector v : Nat) : Bool := offsetWidth selector == sentinelWidth && v == 0

/-- `get_num` (41_chain_decoder.md R102, R103). -/
def getNum (inp : List Byte) (c : Cursor) : Except DecodeError (Option Nat × Cursor) := do
  let (selector, v, c1) ← getNumField inp c
  .ok (if isSentinel selector v then none else some v, c1)

end Sys2Proof.Machine
end

