-- ==== Sys2Proof/WellFormed.lean ====
section
/-! DEFINITION. Which terms of Instr are instructions: the bounds that 30_encoding.md puts on a field beyond its width. -/

namespace Sys2Proof

/-- The largest value of a length chain: every group maximal until the budget ends it (41_chain_decoder.md R101). -/
abbrev chainMax : Nat := 233338

/-- The Dispatcher's lenient PXA test, an OR of four positional comparisons (30_encoding.md R75, 45_dispatcher.md R161). -/
def resemblesPxa (b0 b1 b2 b3 : Byte) : Bool :=
  b0 == 0x00#8 || b1 == 0x70#8 || b2 == 0x78#8 || b3 == 0x61#8

/-- The Dispatcher's P8 test, all four bytes (30_encoding.md R75, 45_dispatcher.md R161, decision D10). -/
def isP8Magic (b0 b1 b2 b3 : Byte) : Bool :=
  b0 == 0x3A#8 && b1 == 0x63#8 && b2 == 0x3A#8 && b3 == 0x00#8

/-- A term of Instr is an instruction when its fields hold what its encoding can hold. -/
def Instr.wf : Instr → Bool
  | .lit0 _ | .lit1 _ | .lit2 _ | .lit3 _ | .lit4 _ => true
  | .litE5 _ | .litE6 _ | .litE7 _ | .litE8 _ | .litE9 _ | .litE10 _ | .litE11 _ => true
  | .litE12 | .litE13 | .litE14 | .litE15 | .litE16 => true
  | .copy15 _ chain => decide (chain ≤ chainMax)
  | .copy10 n chain => n != 0#10 && decide (chain ≤ chainMax)
  | .copy5 _ chain => decide (chain ≤ chainMax)
  | .raw => true
  | .p8Esc _ => true
  | .p8Sym val => decide (1 ≤ val.toNat ∧ val.toNat < 60)
  | .p8Back val _ => decide (60 ≤ val.toNat)
  | .hdrPxa _ _ => true
  | .hdrP8 _ => true
  | .sniffPxa b0 b1 b2 b3 => resemblesPxa b0 b1 b2 b3
  | .sniffP8 => true
  | .sniffLegacy b0 b1 b2 b3 => !resemblesPxa b0 b1 b2 b3 && !isP8Magic b0 b1 b2 b3

end Sys2Proof
end

