-- ==== Sys2Proof/Decode.lean ====
section
/-! DEFINITION. The decoder, one function per encoding, total on any bytes, and after it the encoder and the words of the
opcode table. -/

namespace Sys2Proof

open Sys2Proof.Machine

/-- The unary run of one-bits of a LIT block: at most `k` bits are read; the terminating zero is consumed
(42_block_decoder.md R116, decision D6). -/
def prefixOnes (inp : List Byte) : Nat → Cursor → Except DecodeError (Nat × Cursor)
  | 0, c => .ok (0, c)
  | k + 1, c => do
    let (b, c1) ← getBit inp c
    if b then do
      let (e, c2) ← prefixOnes inp k c1
      .ok (e + 1, c2)
    else .ok (0, c1)

/-- The field of a LIT block with `e` prefix bits, `4 + e` bits wide (42_block_decoder.md R116). -/
def literalField (inp : List Byte) (e : Nat) (h : litBaseWidth + e ≤ getBitsMax) (c : Cursor) (mk : Nat → Instr) :
    Except DecodeError (Instr × Cursor) := do
  let (v, c1) ← getBits inp (litBaseWidth + e) h c
  .ok (mk v, c1)

/-- A block after the marker 1 (30_encoding.md R63, R69; 42_block_decoder.md R116). A field wider than 15 bits is not
read (decision D7). -/
def decodeLiteral (inp : List Byte) (c : Cursor) : Except DecodeError (Instr × Cursor) := do
  let (e, c1) ← prefixOnes inp litPrefixCap c
  match e with
  | 0 => literalField inp 0 (by decide) c1 (fun v => .lit0 (BitVec.ofNat 4 v))
  | 1 => literalField inp 1 (by decide) c1 (fun v => .lit1 (BitVec.ofNat 5 v))
  | 2 => literalField inp 2 (by decide) c1 (fun v => .lit2 (BitVec.ofNat 6 v))
  | 3 => literalField inp 3 (by decide) c1 (fun v => .lit3 (BitVec.ofNat 7 v))
  | 4 => literalField inp 4 (by decide) c1 (fun v => .lit4 (BitVec.ofNat 8 v))
  | 5 => literalField inp 5 (by decide) c1 (fun v => .litE5 (BitVec.ofNat 9 v))
  | 6 => literalField inp 6 (by decide) c1 (fun v => .litE6 (BitVec.ofNat 10 v))
  | 7 => literalField inp 7 (by decide) c1 (fun v => .litE7 (BitVec.ofNat 11 v))
  | 8 => literalField inp 8 (by decide) c1 (fun v => .litE8 (BitVec.ofNat 12 v))
  | 9 => literalField inp 9 (by decide) c1 (fun v => .litE9 (BitVec.ofNat 13 v))
  | 10 => literalField inp 10 (by decide) c1 (fun v => .litE10 (BitVec.ofNat 14 v))
  | 11 => literalField inp 11 (by decide) c1 (fun v => .litE11 (BitVec.ofNat 15 v))
  | 12 => .ok (.litE12, c1)
  | 13 => .ok (.litE13, c1)
  | 14 => .ok (.litE14, c1)
  | 15 => .ok (.litE15, c1)
  | _ => .ok (.litE16, c1)

/-- The COPY of a selector and a field, with the value of its length chain (30_encoding.md R64). -/
def copyInstr (selector v chain : Nat) : Instr :=
  match selector with
  | 0 => .copy15 (BitVec.ofNat 15 v) chain
  | 1 => .copy10 (BitVec.ofNat 10 v) chain
  | _ => .copy5 (BitVec.ofNat 5 v) chain

/-- A block after the marker 0: RAW on the sentinel, else a COPY, whose chain is read before any check
(42_block_decoder.md R111, R112, decision D9). -/
def decodeCopyOrRaw (inp : List Byte) (c : Cursor) : Except DecodeError (Instr × Cursor) := do
  let (selector, v, c1) ← getNumField inp c
  if isSentinel selector v then .ok (.raw, c1)
  else do
    let (chain, c2) ← getLengthChain inp c1
    .ok (copyInstr selector v chain, c2)

/-- A PXA block at the cursor, and the cursor after its fields (42_block_decoder.md R110). The opcode map is complete
(30_encoding.md R62), so the only rejection is an input that ends inside the block. -/
def decodeBlock (inp : List Byte) (c : Cursor) : Except DecodeError (Instr × Cursor) := do
  let (marker, c1) ← getBit inp c
  if marker then decodeLiteral inp c1 else decodeCopyOrRaw inp c1

/-- A P8 code at the byte index `src`, and the index after it (30_encoding.md R72; 46_p8_decoder.md R169). -/
def decodeCode (inp : List Byte) (src : Nat) : Except DecodeError (Instr × Nat) := do
  let (val, s1) ← nextByte inp src
  if val = 0#8 then do
    let (b, s2) ← nextByte inp s1
    .ok (.p8Esc b, s2)
  else if val.toNat < p8AlphabetSize then .ok (.p8Sym val, s1)
  else do
    let (val2, s2) ← nextByte inp s1
    .ok (.p8Back val val2, s2)

/-- The PXA header: the length before the magic (44_pxa_engine.md R140, R141), then the fields (R142). -/
def decodePxaHeader (inp : List Byte) : Except DecodeError Instr :=
  match inp with
  | m0 :: m1 :: m2 :: m3 :: r0 :: r1 :: k0 :: k1 :: _ =>
    if [m0, m1, m2, m3] = pxaMagic then .ok (.hdrPxa (bigEndian r0 r1) (bigEndian k0 k1)) else .error .badMagic
  | _ => .error .endOfInput

/-- The P8 header: any four magic bytes, the length, two unused bytes (46_p8_decoder.md R170, R171). -/
def decodeP8Header (inp : List Byte) : Except DecodeError Instr :=
  match inp with
  | _ :: _ :: _ :: _ :: l0 :: l1 :: _ :: _ :: _ => .ok (.hdrP8 (bigEndian l0 l1))
  | _ => .error .endOfInput

/-- The Dispatcher's classes, the PXA test first (45_dispatcher.md R160, R161). -/
def decodeSniff (inp : List Byte) : Except DecodeError Instr :=
  match inp with
  | b0 :: b1 :: b2 :: b3 :: _ =>
    if resemblesPxa b0 b1 b2 b3 then .ok (.sniffPxa b0 b1 b2 b3)
    else if isP8Magic b0 b1 b2 b3 then .ok .sniffP8
    else .ok (.sniffLegacy b0 b1 b2 b3)
  | _ => .error .endOfInput

/-- The instruction in the bytes, read in the encoding of the phase; `c` and `src` say where a block or a code stands. -/
def decodeIn (p : Phase) (inp : List Byte) (c : Cursor) (src : Nat) : Except DecodeError Instr :=
  match p with
  | .sniff => decodeSniff inp
  | .pxaHeader => decodePxaHeader inp
  | .pxaBlocks => (decodeBlock inp c).map Prod.fst
  | .p8Header => decodeP8Header inp
  | .p8Codes => (decodeCode inp src).map Prod.fst

/-! The encoder, written from the tables of 30_encoding.md. A stream-order list of bits, first bit first. -/

/-- The low `n` bits of `v`, least significant first (20_memory.md R41). -/
def fieldBits : Nat → Nat → List Bool
  | 0, _ => []
  | n + 1, v => (v % 2 == 1) :: fieldBits n (v / 2)

/-- Bytes in memory order, each least significant bit first (20_memory.md R40). -/
def byteBits (bs : List Byte) : List Bool := bs.flatMap (fun b => fieldBits 8 b.toNat)

/-- LIT: marker, `e` ones, a zero, the field of `4 + e` bits (30_encoding.md R63). -/
def literalBits (e v : Nat) : List Bool := true :: (List.replicate e true ++ false :: fieldBits (4 + e) v)

/-- LIT with a prefix too long for a field: marker, `e` ones, a zero (30_encoding.md R69). -/
def overlongBits (e : Nat) : List Bool := true :: (List.replicate e true ++ [false])

/-- How many groups the length budget admits (41_chain_decoder.md R101). -/
abbrev lengthGroups : Nat := 33334

/-- The length chain of a value: maximal groups, then the last group unless the budget has ended the chain
(30_encoding.md R66). -/
def chainBits (x : Nat) : List Bool :=
  (List.replicate (x / 7) [true, true, true]).flatten ++ (if x / 7 < lengthGroups then fieldBits 3 (x % 7) else [])

/-- The high and low byte of a 16-bit header field (20_memory.md R42). -/
def halfBytes (v : Half) : List Byte := [BitVec.ofNat 8 (v.toNat / 256), BitVec.ofNat 8 (v.toNat % 256)]

/-- The bits of an instruction in stream order: 30_encoding.md R61 (HDR.PXA), R63 and R69 (LIT), R64 (COPY), R65 (RAW),
R71 (HDR.P8, unused bytes zero as in R76), R72 (P8 codes), R75 (the first four bytes). -/
def encode : Instr → List Bool
  | .lit0 v => literalBits 0 v.toNat
  | .lit1 v => literalBits 1 v.toNat
  | .lit2 v => literalBits 2 v.toNat
  | .lit3 v => literalBits 3 v.toNat
  | .lit4 v => literalBits 4 v.toNat
  | .litE5 v => literalBits 5 v.toNat
  | .litE6 v => literalBits 6 v.toNat
  | .litE7 v => literalBits 7 v.toNat
  | .litE8 v => literalBits 8 v.toNat
  | .litE9 v => literalBits 9 v.toNat
  | .litE10 v => literalBits 10 v.toNat
  | .litE11 v => literalBits 11 v.toNat
  | .litE12 => overlongBits 12
  | .litE13 => overlongBits 13
  | .litE14 => overlongBits 14
  | .litE15 => overlongBits 15
  | .litE16 => true :: List.replicate 16 true
  | .copy15 n chain => [false, false] ++ fieldBits 15 n.toNat ++ chainBits chain
  | .copy10 n chain => [false, true, false] ++ fieldBits 10 n.toNat ++ chainBits chain
  | .copy5 n chain => [false, true, true] ++ fieldBits 5 n.toNat ++ chainBits chain
  | .raw => [false, true, false] ++ fieldBits 10 0
  | .p8Esc b => byteBits [0x00#8, b]
  | .p8Sym val => byteBits [val]
  | .p8Back val val2 => byteBits [val, val2]
  | .hdrPxa rawLen compLen => byteBits ([0x00#8, 0x70#8, 0x78#8, 0x61#8] ++ halfBytes rawLen ++ halfBytes compLen)
  | .hdrP8 len => byteBits ([0x3A#8, 0x63#8, 0x3A#8, 0x00#8] ++ halfBytes len ++ [0x00#8, 0x00#8])
  | .sniffPxa b0 b1 b2 b3 => byteBits [b0, b1, b2, b3]
  | .sniffP8 => byteBits [0x3A#8, 0x63#8, 0x3A#8, 0x00#8]
  | .sniffLegacy b0 b1 b2 b3 => byteBits [b0, b1, b2, b3]

/-- The bits of a length chain: three per group, the last group left out when the budget ends the chain
(30_encoding.md R66, 41_chain_decoder.md R101). -/
def chainWidth (x : Nat) : Nat := 3 * (x / 7) + (if x / 7 < lengthGroups then 3 else 0)

/-- How many bits an instruction has (30_encoding.md R63, R64, R68, R69; R65 for the part of RAW before its run; whole
bytes elsewhere: R61, R71, R72, R75). -/
def Instr.bits : Instr → Nat
  | .lit0 _ => 6
  | .lit1 _ => 8
  | .lit2 _ => 10
  | .lit3 _ => 12
  | .lit4 _ => 14
  | .litE5 _ => 16
  | .litE6 _ => 18
  | .litE7 _ => 20
  | .litE8 _ => 22
  | .litE9 _ => 24
  | .litE10 _ => 26
  | .litE11 _ => 28
  | .litE12 => 14
  | .litE13 => 15
  | .litE14 => 16
  | .litE15 => 17
  | .litE16 => 17
  | .copy15 _ chain => 17 + chainWidth chain
  | .copy10 _ chain => 13 + chainWidth chain
  | .copy5 _ chain => 8 + chainWidth chain
  | .raw => 13
  | .p8Esc _ => 16
  | .p8Sym _ => 8
  | .p8Back _ _ => 16
  | .hdrPxa _ _ => 64
  | .hdrP8 _ => 64
  | .sniffPxa _ _ _ _ => 32
  | .sniffP8 => 32
  | .sniffLegacy _ _ _ _ => 32

/-- The phase in which an instruction is read. -/
def Instr.phase : Instr → Phase
  | .lit0 _ | .lit1 _ | .lit2 _ | .lit3 _ | .lit4 _ => .pxaBlocks
  | .litE5 _ | .litE6 _ | .litE7 _ | .litE8 _ | .litE9 _ | .litE10 _ | .litE11 _ => .pxaBlocks
  | .litE12 | .litE13 | .litE14 | .litE15 | .litE16 => .pxaBlocks
  | .copy15 _ _ | .copy10 _ _ | .copy5 _ _ | .raw => .pxaBlocks
  | .p8Esc _ | .p8Sym _ | .p8Back _ _ => .p8Codes
  | .hdrPxa _ _ => .pxaHeader
  | .hdrP8 _ => .p8Header
  | .sniffPxa _ _ _ _ | .sniffP8 | .sniffLegacy _ _ _ _ => .sniff

/-- The value of bits, least significant first. -/
def bitsValue : List Bool → Nat
  | [] => 0
  | b :: bs => b.toNat + 2 * bitsValue bs

/-- The bytes that hold a stream-order list of bits, the last byte filled with zeros (20_memory.md R40). -/
def packBits (bits : List Bool) : List Byte :=
  (List.range ((bits.length + 7) / 8)).map (fun k => BitVec.ofNat 8 (bitsValue ((bits.drop (8 * k)).take 8)))

/-! The words of spec/opcode_table.json (log 29). -/

/-- The `n` bytes of a number, low byte first. -/
def lowFirstBytes (n w : Nat) : List Byte := (List.range n).map (fun k => BitVec.ofNat 8 (w >>> (8 * k)))

/-- The bytes of a table word. The rows of the headers and of SNIFF.P8 give `match` as one big-endian number; such a
word is recognised by its magic. Every other row numbers the bits in stream order. -/
def tableBytes (nbits w : Nat) : List Byte :=
  let low := lowFirstBytes ((nbits + 7) / 8) w
  let high := low.reverse
  if (nbits = 32 ∨ nbits = 64) ∧ (high.take 4 = pxaMagic ∨ high.take 4 = p8Magic) then high else low

/-- Which of the five encodings a table word belongs to: a header or the Dispatcher's four bytes by the magic, the
two-byte escape of P8 (no PXA block of 16 bits has a zero low byte), else a PXA block. -/
def tablePhase (nbits w : Nat) : Phase :=
  let magic := (tableBytes nbits w).take 4
  if nbits = 64 ∧ magic = pxaMagic then .pxaHeader
  else if nbits = 64 ∧ magic = p8Magic then .p8Header
  else if nbits = 32 ∧ (magic = pxaMagic ∨ magic = p8Magic) then .sniff
  else if nbits = 16 ∧ w % 256 = 0 then .p8Codes
  else .pxaBlocks

/-- The bytes of a table word, with zeros after it: enough for every instruction that a word of zeros can go on into. -/
def tableInput (nbits w : Nat) : List Byte := tableBytes nbits w ++ List.replicate 16 0x00#8

/-- The instruction the decoder reads from a table word. -/
def decodeTableWord (nbits w : Nat) : Option Instr :=
  (decodeIn (tablePhase nbits w) (tableInput nbits w) ⟨0, 1#8⟩ 0).toOption

end Sys2Proof
end

