-- ==== Sys2Proof/Machine/Fetch.lean ====
section
/-! DEFINITION. What a step does before an instruction runs: the length and magic checks, the loop conditions, reading
the fields of the next block or code, and the end of the loops. -/

namespace Sys2Proof.Machine

/-- What the fetch finds. -/
inductive Fetched where
  /-- An instruction, and the state in which it runs: its fields have been read. -/
  | run (i : Instr) (s : State)
  /-- No instruction runs: this is the outcome of the step. -/
  | ended (o : Outcome)

/-- A rejection of the decoder is raised as the fault it stands for (60_exceptions.md R191, R192). -/
def rejected (e : DecodeError) (s : State) : Fetched := .ended (raise (decodeErr e) s)

/-- A header or the Dispatcher's four bytes, read by byte index: neither `CUR` nor `P8_SRC` moves (decision D2). -/
def fetchByIndex (d : Except DecodeError Instr) (s : State) : Fetched :=
  match d with
  | .error e => rejected e s
  | .ok i => .run i s

/-- One iteration of the PXA loop, or its end (44_pxa_engine.md R146 to R148). -/
def fetchBlock (s : State) : Fetched :=
  if moreBlocks s then
    match decodeBlock s.input s.cur with
    | .error e => rejected e s
    | .ok (i, c) => .run i (s.setCursor c)
  else .ended (finishPxa s)

/-- One iteration of the P8 loop, or its end (46_p8_decoder.md R174, R181). -/
def fetchCode (s : State) : Fetched :=
  if moreCodes s then
    match decodeCode s.input s.p8Src with
    | .error e => rejected e s
    | .ok (i, src) => .run i (s.setSource src)
  else .ended (finishP8 s)

/-- The next instruction of a running call. -/
def fetchRunning (s : State) : Fetched :=
  match s.phase with
  | .sniff => fetchByIndex (decodeSniff s.input) s
  | .pxaHeader => fetchByIndex (decodePxaHeader s.input) s
  | .pxaBlocks => fetchBlock s
  | .p8Header => fetchByIndex (decodeP8Header s.input) s
  | .p8Codes => fetchCode s

/-- The next instruction. When no call is running there is none, and no next state (log 7). -/
def fetch (s : State) : Fetched :=
  match s.status with
  | .running => fetchRunning s
  | .idle | .done | .fault => .ended (.fault .noCallRunning)

/-- `DEST_POS` as it is, or 0 where it leaves no room below the largest 16-bit length. -/
def roomyDestPos (s : State) : Nat := if s.destPos < 65535 then s.destPos else 0

/-- A header of the largest lengths, in front of a block or a code placed by State.placeWord. -/
def largestHeader (magic : List Byte) : List Byte := magic ++ [0xFF#8, 0xFF#8, 0xFF#8, 0xFF#8]

/-- `s` with the instruction of a table word placed where the next step reads it (log 4, log 29): the input, the place
in the call, and for a block or a code what its loop condition needs. -/
def State.placeWord (nbits w : Nat) (s : State) : State :=
  let bytes := tableInput nbits w
  match tablePhase nbits w with
  | .sniff => { s with status := .running, phase := .sniff, input := bytes }
  | .pxaHeader => { s with status := .running, phase := .pxaHeader, input := bytes }
  | .p8Header => { s with status := .running, phase := .p8Header, input := bytes }
  | .pxaBlocks =>
    { s with
      status := .running
      phase := .pxaBlocks
      format := .pxa
      input := largestHeader pxaMagic ++ bytes
      cur := ⟨headerLen, 1#8⟩
      compLen := 0xFFFF#16
      maxLen := 0xFFFF#16
      destPos := roomyDestPos s }
  | .p8Codes =>
    { s with
      status := .running
      phase := .p8Codes
      format := .p8
      input := largestHeader p8Magic ++ bytes
      p8Src := headerLen
      p8Len := 0xFFFF#16
      p8Cap := 65535
      destPos := roomyDestPos s }

end Sys2Proof.Machine
end

