-- ==== Sys2Proof/Machine/Step.lean ====
section
/-! DEFINITION. One step of the call: fetch, then exec. -/

namespace Sys2Proof.Machine

/-- One step: one instruction of the call, or the end of a loop, or a rejected fetch (log 1). -/
def step (s : State) : Host.Outcome State Fault Refusal :=
  match fetch s with
  | .run i t => exec i t
  | .ended o => o

/-- `s` with the instruction of a table word stored where `step` fetches its next instruction. -/
def State.withFetchWord (s : State) (nbits w : Nat) : State := State.placeWord nbits w s

end Sys2Proof.Machine
end

