-- ==== Sys2Proof/Safety.lean ====
section
/-! DEFINITION. What counts as a safe state and a safe run: the invariant of a call, and the words the statements use. -/

namespace Sys2Proof.Machine

/-- `CUR.mask` is one of 1, 2, 4, ..., 128 (10_state.md R11). -/
def maskLegal (m : Byte) : Prop := ∃ k, k < 8 ∧ m = BitVec.ofNat 8 (2 ^ k)

/-- A legal cursor: the mask is one-hot and the byte index does not pass `IN_LEN`, where it rests with mask 1
(10_state.md R11, R12). -/
def cursorLegal (input : List Byte) (c : Cursor) : Prop :=
  maskLegal c.mask ∧ (c.byte < input.length ∨ c.byte = input.length ∧ c.mask = 1#8)

/-- `LIT` and `LPOS` are inverse to each other, so `LIT` is a permutation of the byte values (10_state.md R14, R15). -/
def tablesInverse (lit lpos : Table) : Prop :=
  (∀ b : Byte, readTable lit (readTable lpos b) = b) ∧ (∀ i : Byte, readTable lpos (readTable lit i) = i)

/-- `OUT[0 .. DEST_POS)` is exactly the set of cells written so far (10_state.md R19, R23). -/
def outFilled (s : State) : Prop := ∀ a, (s.out.read a).isSome = true ↔ a < s.destPos

/-- What holds of a running call in each phase. -/
def phaseInv (s : State) : Prop :=
  match s.phase with
  | .sniff => s.format = .none ∧ s.entry = .auto ∧ s.destPos = 0
  | .pxaHeader => s.format = .pxa ∧ s.destPos = 0
  | .pxaBlocks =>
    s.format = .pxa ∧ s.maxLen = pxaCapacity s.cap s.rawLen ∧ s.destPos ≤ s.maxLen.toNat ∧ headerLen ≤ s.cur.byte
  | .p8Header => s.format = .p8 ∧ s.destPos = 0
  | .p8Codes =>
    s.format = .p8 ∧ s.p8Cap = p8Capacity s.entry s.cap s.p8OutCap ∧ s.p8Len.toNat ≤ s.p8Cap ∧ s.destPos ≤ s.p8Cap ∧
      headerLen ≤ s.p8Src ∧ s.p8Src ≤ s.input.length

/-- The invariant of a call in progress. -/
structure RunningInv (s : State) : Prop where
  cfg : s.cfg.wf
  err : s.err = .none
  result : s.result = none
  cursor : cursorLegal s.input s.cur
  tables : tablesInverse s.lit s.lpos
  filled : outFilled s
  phase : phaseInv s

/-- What holds after `Ok`: the bytes returned have all been written (44_pxa_engine.md R150, 46_p8_decoder.md R182). What it
says of the registers rests on their staying as they were (log 33). -/
structure DoneInv (s : State) : Prop where
  err : s.err = .none
  filled : outFilled s
  tables : tablesInverse s.lit s.lpos
  returned : ∃ n, s.result = some n ∧ n ≤ s.destPos ∧ (s.format = .pxa → n = s.destPos ∧ n = s.maxLen.toNat)

/-- The invariant of the machine: memory is canonical; a running call keeps its own invariant; a call that ended with
`Ok` holds what it returned; a faulted call has a kind and no result (10_state.md R21, R22). -/
structure State.Inv (s : State) : Prop where
  mem : s.out.wf
  running : s.status = .running → RunningInv s
  done : s.status = .done → DoneInv s
  fault : s.status = .fault → s.err ≠ .none ∧ s.result = none

/-- The parameters of the call, which no step changes (10_state.md R24, R29). -/
def sameCall (s t : State) : Prop :=
  t.cfg = s.cfg ∧ t.input = s.input ∧ t.cap = s.cap ∧ t.entry = s.entry ∧ t.p8OutCap = s.p8OutCap

/-- `t` is `s` after raising `e`: the kind of the fault, no bytes returned (60_exceptions.md R198; the field is log 8), and
the parameters, which are no state of the call, as they were (10_state.md R29; log 2). No other field is claimed (R199). -/
def hasRaised (e : Err) (s t : State) : Prop :=
  t.status = .fault ∧ t.err = e ∧ t.result = none ∧ sameCall s t

/-- The table position of a LIT block whose field has been read (30_encoding.md R67), none for every other instruction. -/
def literalOperand : Instr → Option Nat
  | .lit0 v => some (literalPosition 0 v.toNat)
  | .lit1 v => some (literalPosition 1 v.toNat)
  | .lit2 v => some (literalPosition 2 v.toNat)
  | .lit3 v => some (literalPosition 3 v.toNat)
  | .lit4 v => some (literalPosition 4 v.toNat)
  | .litE5 v => some (literalPosition 5 v.toNat)
  | .litE6 v => some (literalPosition 6 v.toNat)
  | .litE7 v => some (literalPosition 7 v.toNat)
  | .litE8 v => some (literalPosition 8 v.toNat)
  | .litE9 v => some (literalPosition 9 v.toNat)
  | .litE10 v => some (literalPosition 10 v.toNat)
  | .litE11 v => some (literalPosition 11 v.toNat)
  | .litE12 | .litE13 | .litE14 | .litE15 | .litE16 => none
  | .copy15 _ _ | .copy10 _ _ | .copy5 _ _ | .raw => none
  | .p8Esc _ | .p8Sym _ | .p8Back _ _ | .hdrPxa _ _ | .hdrP8 _ => none
  | .sniffPxa _ _ _ _ | .sniffP8 | .sniffLegacy _ _ _ _ => none

/-- A LIT block too long for its field to be read (30_encoding.md R69, decisions D6 and D7). -/
def overlongLiteral : Instr → Bool
  | .litE12 | .litE13 | .litE14 | .litE15 | .litE16 => true
  | .lit0 _ | .lit1 _ | .lit2 _ | .lit3 _ | .lit4 _ => false
  | .litE5 _ | .litE6 _ | .litE7 _ | .litE8 _ | .litE9 _ | .litE10 _ | .litE11 _ => false
  | .copy15 _ _ | .copy10 _ _ | .copy5 _ _ | .raw => false
  | .p8Esc _ | .p8Sym _ | .p8Back _ _ | .hdrPxa _ _ | .hdrP8 _ => false
  | .sniffPxa _ _ _ _ | .sniffP8 | .sniffLegacy _ _ _ _ => false

/-- The offset and the length of a COPY block (30_encoding.md R67), none for every other instruction. -/
def copyOperands : Instr → Option (Nat × Nat)
  | .copy15 n chain => some (blockOffset n.toNat, blockLength chain)
  | .copy10 n chain => some (blockOffset n.toNat, blockLength chain)
  | .copy5 n chain => some (blockOffset n.toNat, blockLength chain)
  | .lit0 _ | .lit1 _ | .lit2 _ | .lit3 _ | .lit4 _ => none
  | .litE5 _ | .litE6 _ | .litE7 _ | .litE8 _ | .litE9 _ | .litE10 _ | .litE11 _ => none
  | .litE12 | .litE13 | .litE14 | .litE15 | .litE16 => none
  | .raw => none
  | .p8Esc _ | .p8Sym _ | .p8Back _ _ | .hdrPxa _ _ | .hdrP8 _ => none
  | .sniffPxa _ _ _ _ | .sniffP8 | .sniffLegacy _ _ _ _ => none

/-- What an instruction that only appends to `OUT` leaves alone: everything but `OUT` and `DEST_POS`. -/
def onlyAppends (s t : State) : Prop := t = { s with out := t.out, destPos := t.destPos }

/-- The `n` bytes from `DEST_POS` on are `b 0, b 1, ...` and every other cell reads as before. -/
def appended (s t : State) (n : Nat) (b : Nat → Option Byte) : Prop :=
  t.destPos = s.destPos + n ∧ (∀ k, k < n → t.out.read (s.destPos + k) = b k) ∧
    (∀ a, a < s.destPos ∨ s.destPos + n ≤ a → t.out.read a = s.out.read a)

/-- The bytes that `k` reads of 8 bits yield, and the cursor after them (42_block_decoder.md R115). -/
def readRun (input : List Byte) : Nat → Cursor → Except DecodeError (List Byte × Cursor)
  | 0, c => .ok ([], c)
  | k + 1, c => do
    let (v, c1) ← getBits input rawWidth (by decide) c
    let (bs, c2) ← readRun input k c1
    .ok (BitVec.ofNat 8 v :: bs, c2)

/-- The call has ended. -/
abbrev State.ended (s : State) : Prop := s.status = .done ∨ s.status = .fault

/-- `k` steps, stopping at the first fault or refusal. -/
abbrev runSteps (k : Nat) (s : State) : Outcome := Host.Core.run Sys2Proof.core k s

/-- Literals at the given table positions, one after the other: their bytes, oldest first, and the tables after them
(43_literal_model.md R130 to R132). -/
def literalRun : List Byte → Tables → List Byte × Tables
  | [], t => ([], t)
  | p :: ps, t =>
    let c := readTable t.lit p
    let (bs, u) := literalRun ps (moveToFront p c t)
    (c :: bs, u)

/-- The state without `LPOS` (43_literal_model.md R132). -/
def hideLpos (s : State) : State := { s with lpos := identityTable }

/-- The state without the registers of the PXA path that a P8 call does not use (10_state.md R28). -/
def hidePxa (s : State) : State :=
  { s with
    cur := ⟨0, 0#8⟩
    lit := identityTable
    lpos := identityTable
    rawLen := 0#16
    compLen := 0#16
    maxLen := 0#16 }

/-- A function applied to the next state of an outcome. -/
def onNext (f : State → State) : Outcome → Outcome
  | .next s => .next (f s)
  | .fault r => .fault r
  | .refused r => .refused r

end Sys2Proof.Machine
end

