-- ==== Sys2Proof/Certificates/Slice0/Obligations.lean ====
section
/-! DEFINITION. The statements for the provers. Each docstring says what is stated and which rule of spec/ it formalises;
where a clause rests on a decision of the spec (D<n>) or on a choice of the model (log n), it says so. These rules the
spec marks as its own inferences: R12 (its last sentence), R16, R47, R53, R62 to R65, R68, R94, R101, R118, R147, R183; a
statement that names one of them has basis 'derived'. -/

open Sys2Proof Sys2Proof.Machine

/-! ### The step and the decoder -/

/-- A running step runs exec on the instruction that the decoder of its phase reads: a header and the Dispatcher's bytes
leave the state as it is, a block leaves `CUR` past its fields, a code leaves `P8_SRC` past it. A rejection of the decoder
is raised. (42_block_decoder.md R110, 44_pxa_engine.md R139, R147, 45_dispatcher.md R161, 46_p8_decoder.md R169.) -/
def Obligations.StepRunsTheDecodedInstruction : Prop :=
  ∀ s : State, s.status = .running →
    (s.phase = .sniff →
      (∀ i, decodeSniff s.input = .ok i → step s = exec i s) ∧
      (∀ e, decodeSniff s.input = .error e → step s = raise (decodeErr e) s)) ∧
    (s.phase = .pxaHeader →
      (∀ i, decodePxaHeader s.input = .ok i → step s = exec i s) ∧
      (∀ e, decodePxaHeader s.input = .error e → step s = raise (decodeErr e) s)) ∧
    (s.phase = .p8Header →
      (∀ i, decodeP8Header s.input = .ok i → step s = exec i s) ∧
      (∀ e, decodeP8Header s.input = .error e → step s = raise (decodeErr e) s)) ∧
    (s.phase = .pxaBlocks → s.cur.byte < s.compLen.toNat → s.destPos < s.maxLen.toNat →
      (∀ i c, decodeBlock s.input s.cur = .ok (i, c) → step s = exec i { s with cur := c }) ∧
      (∀ e, decodeBlock s.input s.cur = .error e → step s = raise (decodeErr e) s)) ∧
    (s.phase = .p8Codes → s.destPos < s.p8Len.toNat →
      (∀ i n, decodeCode s.input s.p8Src = .ok (i, n) → step s = exec i { s with p8Src := n }) ∧
      (∀ e, decodeCode s.input s.p8Src = .error e → step s = raise (decodeErr e) s))

/-- Words written out from 95_test_vectors.md and the formats of 30_encoding.md decode to what they stand for: `LIT 47`
(V53), `COPY5 2,6` at bit 4 of its byte (P2), `RAW` (V80), `P8.BACK 2,4` (A3), `HDR.PXA` and `HDR.P8` (P1, P7), a legacy
input (X10), and the first block after an unaligned one (V70). -/
def Obligations.SpecWordsDecode : Prop :=
  decodeBlock [0xFB#8] ⟨0, 1#8⟩ = .ok (.lit1 31#5, ⟨1, 1#8⟩) ∧
  decodeBlock [0x17#8, 0x9F#8, 0xEC#8, 0x30#8] ⟨2, 16#8⟩ = .ok (.copy5 1#5 3, ⟨3, 128#8⟩) ∧
  decodeBlock [0x02#8, 0x00#8, 0x29#8, 0x2D#8, 0x04#8] ⟨0, 1#8⟩ = .ok (.raw, ⟨1, 32#8⟩) ∧
  decodeCode [0x3C#8, 0x22#8] 0 = .ok (.p8Back 0x3C#8 0x22#8, 2) ∧
  decodePxaHeader [0x00#8, 0x70#8, 0x78#8, 0x61#8, 0x00#8, 0x03#8, 0x00#8, 0x0B#8] = .ok (.hdrPxa 3#16 11#16) ∧
  decodeP8Header [0x3A#8, 0x63#8, 0x3A#8, 0x00#8, 0x00#8, 0x06#8, 0x00#8, 0x00#8] = .ok (.hdrP8 6#16) ∧
  decodeSniff [0x2D#8, 0x2D#8, 0x20#8, 0x68#8] = .ok (.sniffLegacy 0x2D#8 0x2D#8 0x20#8 0x68#8) ∧
  decodeBlock [0x17#8, 0x1B#8, 0x00#8] ⟨1, 4#8⟩ = .ok (.copy5 0#5 0, ⟨2, 32#8⟩)

/-! ### Reset and the start of a call -/

/-- The invariant holds at reset. -/
def Obligations.ResetMeetsInvariant : Prop := State.reset.Inv

/-- The invariant holds at the start of every call whose `LIT_INIT` is a permutation (70_reset_and_hazards.md R220,
00_scope.md R8). -/
def Obligations.EveryStartMeetsInvariant : Prop :=
  ∀ (cfg : Config) (input : List Byte) (cap : Option Nat) (entry : Entry) (p8OutCap : Nat), cfg.wf →
    (State.start cfg input cap entry p8OutCap).Inv

/-- The values at the start of a call (10_state.md R31): the cursor `(0, 1)` (decision D2), `LIT` at `LIT_INIT`, and, with
the identity there (decision D3), `LIT[i] = i` and `LPOS[b] = b`; no output, RUNNING, no error, and `FORMAT` by the entry
point. -/
def Obligations.StartOfCallValues : Prop :=
  ∀ (cfg : Config) (input : List Byte) (cap : Option Nat) (entry : Entry) (p8OutCap : Nat),
    let s := State.start cfg input cap entry p8OutCap
    s.cur = ⟨0, 1#8⟩ ∧ (∀ i, readTable s.lit i = readTable cfg.litInit i) ∧
    (cfg.litInit = identityTable → ∀ i, readTable s.lit i = i ∧ readTable s.lpos i = i) ∧
    s.destPos = 0 ∧ (∀ a, s.out.read a = none) ∧ s.status = .running ∧ s.err = .none ∧
    (entry = .auto → s.format = .none) ∧ (entry = .pxa → s.format = .pxa) ∧ (entry = .p8 → s.format = .p8)

/-- A new call does not see the old one: apart from the counter of free values (log 6) the state is that of a first call,
whatever the previous call left (70_reset_and_hazards.md R220, 60_exceptions.md R201). -/
def Obligations.NewCallForgetsTheOld : Prop :=
  ∀ (cfg : Config) (input : List Byte) (cap : Option Nat) (entry : Entry) (p8OutCap : Nat) (s : State),
    { s.beginCall cfg input cap entry p8OutCap with free := 0 } = State.start cfg input cap entry p8OutCap

/-! ### Bit Reader -/

/-- `get_bit` (40_bit_reader.md R90): at or past the end it is the end of the input, before any byte is read; else the
masked bit, and the cursor one bit further. -/
def Obligations.GetBitReadsOneBit : Prop :=
  ∀ (inp : List Byte) (c : Cursor),
    (inp.length ≤ c.byte → getBit inp c = .error .endOfInput) ∧
    (∀ h : c.byte < inp.length,
      getBit inp c = .ok (decide (inp[c.byte] &&& c.mask ≠ 0#8),
        if c.mask = 128#8 then ⟨c.byte + 1, 1#8⟩ else ⟨c.byte, c.mask * 2#8⟩))

/-- `get_bits(n)` from any cursor (40_bit_reader.md R91, and R94, the spec's inference): when the bits exist it answers the number whose bit `i` is
the `i`-th bit read and leaves the cursor `n` bits further; with `n = 0` it reads nothing; else it is the end of the
input. -/
def Obligations.GetBitsReadsTheStreamBits : Prop :=
  ∀ (inp : List Byte) (n : Nat) (h : n ≤ getBitsMax) (c : Cursor), maskLegal c.mask →
    (n = 0 → getBits inp n h c = .ok (0, c)) ∧
    (Cursor.address c + n ≤ 8 * inp.length →
      ∃ v d, getBits inp n h c = .ok (v, d) ∧ v < 2 ^ n ∧ maskLegal d.mask ∧ Cursor.address d = Cursor.address c + n ∧
        ∀ i, i < n → streamBit inp (Cursor.address c + i) = some (v.testBit i)) ∧
    (0 < n → 8 * inp.length < Cursor.address c + n → getBits inp n h c = .error .endOfInput)

/-- Two fields read one after the other are one field (40_bit_reader.md R94, the spec's inference), the end of the input included. -/
def Obligations.GetBitsSplits : Prop :=
  ∀ (inp : List Byte) (a b : Nat) (h : a + b ≤ getBitsMax) (c : Cursor),
    getBits inp (a + b) h c =
      (match getBits inp a (Nat.le_trans (Nat.le_add_right a b) h) c with
      | .error e => .error e
      | .ok (x, c1) =>
        match getBits inp b (Nat.le_trans (Nat.le_add_left b a) h) c1 with
        | .error e => .error e
        | .ok (y, c2) => .ok (x + y * 2 ^ a, c2))

/-! ### Chains -/

/-- `get_chain(1, 2)`, the selector (41_chain_decoder.md R101): `0` is 0 in one bit, `10` is 1 and `11` is 2 in two; no
third bit is read. -/
def Obligations.SelectorChainTable : Prop :=
  ∀ (inp : List Byte) (k : Nat),
    (streamBit inp k = some false → getSelector inp (cursorAt k) = .ok (0, cursorAt (k + 1))) ∧
    (streamBit inp k = some true → streamBit inp (k + 1) = some false →
      getSelector inp (cursorAt k) = .ok (1, cursorAt (k + 2))) ∧
    (streamBit inp k = some true → streamBit inp (k + 1) = some true →
      getSelector inp (cursorAt k) = .ok (2, cursorAt (k + 2)))

/-- The length chain of every value up to 233338, at any bit position and with anything after it, reads as that value;
the largest ends on the budget with no last group (30_encoding.md R66, 41_chain_decoder.md R101). -/
def Obligations.LengthChainDecodes : Prop :=
  ∀ (x : Nat) (pre post : List Bool), x ≤ chainMax →
    getLengthChain (packBits (pre ++ chainBits x ++ post)) (cursorAt pre.length) =
      .ok (x, cursorAt (pre.length + (chainBits x).length))

/-- One more maximal group in front of a chain adds the group's value, as long as the budget has room for it
(41_chain_decoder.md R101, the monotonicity of S3). -/
def Obligations.MaximalGroupAddsItsValue : Prop :=
  ∀ (inp : List Byte) (link budget : Nat) (h : 1 ≤ link ∧ link ≤ getBitsMax ∧ 1 ≤ budget)
    (h' : 1 ≤ link ∧ link ≤ getBitsMax ∧ 1 ≤ budget + link) (k v : Nat) (c : Cursor),
    (∀ i, i < link → streamBit inp (k + i) = some true) →
    getChain inp link budget h (cursorAt (k + link)) = .ok (v, c) →
    getChain inp link (budget + link) h' (cursorAt k) = .ok (2 ^ link - 1 + v, c)

/-- `get_num` answers the sentinel exactly when the selector gives the 10-bit field and the field is 0, else the field's
value, within its range; it consumes 16, 12 or 7 bits (41_chain_decoder.md R103). -/
def Obligations.GetNumSentinelExactly : Prop :=
  ∀ (inp : List Byte) (c c1 c2 : Cursor) (sel v : Nat), maskLegal c.mask →
    getSelector inp c = .ok (sel, c1) → getBits inp (offsetWidth sel) (offsetWidth_le sel) c1 = .ok (v, c2) →
    (getNum inp c = .ok (none, c2) ↔ offsetWidth sel = 10 ∧ v = 0) ∧
    (¬ (offsetWidth sel = 10 ∧ v = 0) → getNum inp c = .ok (some v, c2) ∧ v < 2 ^ 15) ∧
    (sel = 0 ∧ offsetWidth sel = 15 ∧ v < 2 ^ 15 ∧ Cursor.address c2 = Cursor.address c + 16 ∨
      sel = 1 ∧ offsetWidth sel = 10 ∧ v < 2 ^ 10 ∧ Cursor.address c2 = Cursor.address c + 12 ∨
      sel = 2 ∧ offsetWidth sel = 5 ∧ v < 2 ^ 5 ∧ Cursor.address c2 = Cursor.address c + 7)

/-! ### Encodings -/

/-- Decoding the encoding of a PXA block gives the block back, at any bit position, whatever stands before and after it,
with the cursor right after it (30_encoding.md R62 to R66, R69; 20_memory.md R44). The bits of LIT.E12 to LIT.E15 (no
field) are decision D7, those of LIT.E16 (no 17th prefix bit, no field) decisions D6 and D7 (log 15). -/
def Obligations.BlocksRoundTrip : Prop :=
  ∀ (i : Instr) (pre post : List Bool), i.wf = true → i.phase = .pxaBlocks →
    decodeBlock (packBits (pre ++ encode i ++ post)) (cursorAt pre.length) =
      .ok (i, cursorAt (pre.length + (encode i).length))

/-- The other direction: whatever block the decoder reads is well formed and the bits it consumed are exactly that
block's encoding, so no bit string is read as two blocks (30_encoding.md R62 to R69). The bits of LIT.E12 to LIT.E16 rest
on decisions D6 and D7 (log 15). When the decoder rejects is BlockCutShortIsEndOfInput. -/
def Obligations.DecodedBlockIsItsEncoding : Prop :=
  ∀ (inp : List Byte) (k : Nat) (i : Instr) (c : Cursor), decodeBlock inp (cursorAt k) = .ok (i, c) →
    i.wf = true ∧ i.phase = .pxaBlocks ∧ c = cursorAt (k + i.bits) ∧ (encode i).length = i.bits ∧
      ∀ j, j < i.bits → streamBit inp (k + j) = (encode i)[j]?

/-- A block whose fields run past the end of `IN` is EndOfInput, before any check on its operands (60_exceptions.md R191,
R200): so a LIT.E5 to LIT.E11 with a truncated field is no LiteralOverflow and a COPY with a truncated offset or chain no
InvalidBlock. The bits that are there are the first bits of some block's encoding, and that is the only rejection. The
widths of LIT.E12 to LIT.E16 rest on decisions D6 and D7, that the fields of a COPY are read before its checks on decision
D9 (logs 15, 17). -/
def Obligations.BlockCutShortIsEndOfInput : Prop :=
  (∀ (i : Instr) (inp : List Byte) (k : Nat), i.wf = true → i.phase = .pxaBlocks → 8 * inp.length < k + i.bits →
    (∀ j, k + j < 8 * inp.length → streamBit inp (k + j) = (encode i)[j]?) →
    decodeBlock inp (cursorAt k) = .error .endOfInput) ∧
  (∀ (inp : List Byte) (k : Nat) (e : DecodeError), decodeBlock inp (cursorAt k) = .error e →
    e = .endOfInput ∧ ∃ i : Instr, i.wf = true ∧ i.phase = .pxaBlocks ∧ 8 * inp.length < k + i.bits ∧
      ∀ j, k + j < 8 * inp.length → streamBit inp (k + j) = (encode i)[j]?) ∧
  (∀ (i : Instr) (s : State), s.status = .running → s.phase = .pxaBlocks → maskLegal s.cur.mask →
    s.cur.byte < s.compLen.toNat → s.destPos < s.maxLen.toNat → i.wf = true → i.phase = .pxaBlocks →
    8 * s.input.length < Cursor.address s.cur + i.bits →
    (∀ j, Cursor.address s.cur + j < 8 * s.input.length →
      streamBit s.input (Cursor.address s.cur + j) = (encode i)[j]?) →
    ∃ t, step s = .next t ∧ hasRaised .endOfInput s t)

/-- P8 codes round trip, in any place of the input (30_encoding.md R72). -/
def Obligations.CodesRoundTrip : Prop :=
  ∀ (i : Instr) (pre post : List Byte), i.wf = true → i.phase = .p8Codes →
    decodeCode (pre ++ packBits (encode i) ++ post) pre.length = .ok (i, pre.length + i.bits / 8)

/-- The headers and the Dispatcher's classes round trip, whatever follows them (30_encoding.md R61, R71, R75; the P8
test of all four bytes is decision D10). -/
def Obligations.HeadersAndSniffsRoundTrip : Prop :=
  ∀ (i : Instr) (post : List Byte), i.wf = true →
    (i.phase = .pxaHeader → decodePxaHeader (packBits (encode i) ++ post) = .ok i) ∧
    (i.phase = .p8Header → decodeP8Header (packBits (encode i) ++ post) = .ok i) ∧
    (i.phase = .sniff → decodeSniff (packBits (encode i) ++ post) = .ok i)

/-- Every table position 0 to 255 has exactly one LIT form and field, one of LIT0 to LIT4, and every longer prefix is
past 255 whatever the field (30_encoding.md R63, R69). -/
def Obligations.EveryTablePositionHasOneLit : Prop :=
  (∀ p, p ≤ 255 → ∃ e v, e ≤ 4 ∧ v < 2 ^ (4 + e) ∧ literalPosition e v = p ∧
    ∀ e' v', v' < 2 ^ (4 + e') → literalPosition e' v' = p → e' = e ∧ v' = v) ∧
  (∀ e v, 5 ≤ e → 255 < literalPosition e v)

/-! ### LIT -/

/-- A LIT block whose position `p` is a table position writes `LIT[p]` at `DEST_POS` and moves it to the front: the
entries below `p` go up by one, those above stay, the position counters follow (42_block_decoder.md R117,
43_literal_model.md R130 to R132). The room in `OUT` is what 44_pxa_engine.md R146 guarantees when a block starts; that
`LPOS` is the inverse of `LIT` is 10_state.md R15. Nothing else changes. -/
def Obligations.LitAppendsAndMovesToFront : Prop :=
  ∀ (i : Instr) (p : Nat) (s : State), literalOperand i = some p → p ≤ 255 → s.destPos < s.maxLen.toNat →
    tablesInverse s.lit s.lpos →
    ∃ t, exec i s = .next t ∧
      t = { s with out := t.out, destPos := t.destPos, lit := t.lit, lpos := t.lpos } ∧
      appended s t 1 (fun _ => some (readTable s.lit (BitVec.ofNat 8 p))) ∧
      readTable t.lit 0#8 = readTable s.lit (BitVec.ofNat 8 p) ∧
      (∀ k, 1 ≤ k → k ≤ p → readTable t.lit (BitVec.ofNat 8 k) = readTable s.lit (BitVec.ofNat 8 (k - 1))) ∧
      (∀ k, p < k → k ≤ 255 → readTable t.lit (BitVec.ofNat 8 k) = readTable s.lit (BitVec.ofNat 8 k)) ∧
      tablesInverse t.lit t.lpos

/-- The move-to-front update (43_literal_model.md R133): the byte at `p` is at 0, those before it go up by one in their
order, those above stay, and a permutation stays one. After any literals the table is the distinct bytes they produced,
the most recent first, followed by the other bytes in their old order. -/
def Obligations.MoveToFrontShifts : Prop :=
  (∀ (p : Byte) (t : Tables),
    let u := moveToFront p (readTable t.lit p) t
    readTable u.lit 0#8 = readTable t.lit p ∧
    (∀ k, k < p.toNat → readTable u.lit (BitVec.ofNat 8 (k + 1)) = readTable t.lit (BitVec.ofNat 8 k)) ∧
    (∀ k : Byte, p.toNat < k.toNat → readTable u.lit k = readTable t.lit k) ∧
    (t.lit.toList.Nodup → u.lit.toList.Nodup)) ∧
  (∀ (ps : List Byte) (t : Tables), t.lit.toList.Nodup →
    (literalRun ps t).2.lit.toList =
      (literalRun ps t).1.reverse.eraseDups ++ t.lit.toList.filter (fun b => !(literalRun ps t).1.contains b))

/-- The position counters (43_literal_model.md R132): on inverse tables each moved byte's counter goes up by one, the
byte moved to the front has 0, the others stay, and `LIT[LPOS[b]] = b` still holds. -/
def Obligations.MoveToFrontKeepsCounters : Prop :=
  ∀ (p : Byte) (t : Tables), tablesInverse t.lit t.lpos →
    let u := moveToFront p (readTable t.lit p) t
    tablesInverse u.lit u.lpos ∧
    readTable u.lpos (readTable t.lit p) = 0#8 ∧
    (∀ k, k < p.toNat →
      (readTable u.lpos (readTable t.lit (BitVec.ofNat 8 k))).toNat =
        (readTable t.lpos (readTable t.lit (BitVec.ofNat 8 k))).toNat + 1) ∧
    (∀ k : Byte, p.toNat < k.toNat →
      readTable u.lpos (readTable t.lit k) = readTable t.lpos (readTable t.lit k))

/-- `LPOS` is read nowhere (43_literal_model.md R132): a step gives the same outcome whatever it holds, apart from `LPOS`
itself. -/
def Obligations.LposIsNeverRead : Prop :=
  ∀ s : State, onNext hideLpos (step s) = onNext hideLpos (step (hideLpos s))

/-- LIT4 with `v ≥ 16` and every LIT.E5 to LIT.E11 raise LiteralOverflow, whatever the state (30_encoding.md R69,
42_block_decoder.md R116, 60_exceptions.md R194). -/
def Obligations.LiteralPastTableRaises : Prop :=
  ∀ s : State,
    (∀ v : BitVec 8, 16 ≤ v.toNat → ∃ t, exec (.lit4 v) s = .next t ∧ hasRaised .literalOverflow s t) ∧
    (∀ v : BitVec 9, ∃ t, exec (.litE5 v) s = .next t ∧ hasRaised .literalOverflow s t) ∧
    (∀ v : BitVec 10, ∃ t, exec (.litE6 v) s = .next t ∧ hasRaised .literalOverflow s t) ∧
    (∀ v : BitVec 11, ∃ t, exec (.litE7 v) s = .next t ∧ hasRaised .literalOverflow s t) ∧
    (∀ v : BitVec 12, ∃ t, exec (.litE8 v) s = .next t ∧ hasRaised .literalOverflow s t) ∧
    (∀ v : BitVec 13, ∃ t, exec (.litE9 v) s = .next t ∧ hasRaised .literalOverflow s t) ∧
    (∀ v : BitVec 14, ∃ t, exec (.litE10 v) s = .next t ∧ hasRaised .literalOverflow s t) ∧
    (∀ v : BitVec 15, ∃ t, exec (.litE11 v) s = .next t ∧ hasRaised .literalOverflow s t)

/-- LIT.E12 to LIT.E16 raise LiteralOverflow, whatever the state. That no field is read before it is the spec's decision
D7, that E16 reads no 17th prefix bit its decision D6 (30_encoding.md R69, 42_block_decoder.md R116). -/
def Obligations.OverlongLiteralRaises : Prop :=
  ∀ s : State,
    (∃ t, exec .litE12 s = .next t ∧ hasRaised .literalOverflow s t) ∧
    (∃ t, exec .litE13 s = .next t ∧ hasRaised .literalOverflow s t) ∧
    (∃ t, exec .litE14 s = .next t ∧ hasRaised .literalOverflow s t) ∧
    (∃ t, exec .litE15 s = .next t ∧ hasRaised .literalOverflow s t) ∧
    (∃ t, exec .litE16 s = .next t ∧ hasRaised .literalOverflow s t)

/-! ### COPY, RAW -/

/-- A COPY whose offset reaches written cells and whose bytes fit appends `len` bytes: byte `k` is byte `k mod offset` of
the last `offset` bytes of the old output, so an overlapping copy repeats them; nothing else changes (42_block_decoder.md
R114; 20_memory.md R51). That the cells below `DEST_POS` hold values is 10_state.md R23. -/
def Obligations.CopyAppendsEarlierBytes : Prop :=
  ∀ (i : Instr) (offset len : Nat) (s : State), copyOperands i = some (offset, len) → outFilled s →
    offset ≤ s.destPos → s.destPos + len ≤ s.maxLen.toNat →
    ∃ t, exec i s = .next t ∧ onlyAppends s t ∧
      appended s t len (fun k => s.out.read (s.destPos - offset + k % offset)) ∧
      (∀ k, k < len → (t.out.read (s.destPos + k)).isSome = true)

/-- A back-reference whose offset is zero, whose offset exceeds `DEST_POS`, or whose length would pass the capacity
raises InvalidBlock; every other does not (60_exceptions.md R193). The capacity is `MAX_LEN` for a COPY, also when that is
the caller's cap (decision D12, log 20), and `P8_CAP`, not the header's length, for P8.BACK (decision D18, log 25). -/
def Obligations.BackReferenceRejected : Prop :=
  ∀ (i : Instr) (offset len capacity : Nat) (s : State),
    (copyOperands i = some (offset, len) ∧ capacity = s.maxLen.toNat ∨
      ∃ val val2, i = .p8Back val val2 ∧ offset = p8Offset val val2 ∧ len = p8Length val2 ∧ capacity = s.p8Cap) →
    outFilled s →
    (offset = 0 ∨ offset > s.destPos ∨ s.destPos + len > capacity →
      ∃ t, exec i s = .next t ∧ hasRaised .invalidBlock s t) ∧
    (¬ (offset = 0 ∨ offset > s.destPos ∨ s.destPos + len > capacity) →
      ∃ t, exec i s = .next t ∧ t.status = s.status ∧ t.err = s.err)

/-- RAW, after a run of non-zero bytes `bs` that stands at the cursor (42_block_decoder.md R115): a zero byte ends the
run and is consumed, not appended; a full buffer ends it with nothing more read (decision D8); an input that ends first
is EndOfInput. Nothing but `OUT`, `DEST_POS` and `CUR` changes. -/
def Obligations.RawRunAppends : Prop :=
  ∀ (s : State) (bs : List Byte) (c : Cursor), readRun s.input bs.length s.cur = .ok (bs, c) → (∀ b ∈ bs, b ≠ 0#8) →
    (∀ c', getBits s.input rawWidth (by decide) c = .ok (0, c') → s.destPos + bs.length < s.maxLen.toNat →
      ∃ t, exec .raw s = .next t ∧ t = { s with out := t.out, destPos := t.destPos, cur := c' } ∧
        appended s t bs.length (fun k => bs[k]?)) ∧
    (s.destPos + bs.length = s.maxLen.toNat →
      ∃ t, exec .raw s = .next t ∧ t = { s with out := t.out, destPos := t.destPos, cur := c } ∧
        appended s t bs.length (fun k => bs[k]?)) ∧
    (getBits s.input rawWidth (by decide) c = .error .endOfInput → s.destPos + bs.length < s.maxLen.toNat →
      ∃ t, exec .raw s = .next t ∧ hasRaised .endOfInput s t)

/-- Only LIT blocks write the table while a call goes on: every other instruction that raises no fault leaves `LIT` and
`LPOS` as they were, but for HDR.PXA, which sets them to their start-of-call values (10_state.md R16,
70_reset_and_hazards.md R227; 44_pxa_engine.md R144, decision D3). -/
def Obligations.OnlyLitWritesTheTable : Prop :=
  ∀ (i : Instr) (s t : State), exec i s = .next t → t.status ≠ .fault → literalOperand i = none →
    (t.lit = s.lit ∧ t.lpos = s.lpos) ∨
    (∃ r k, i = .hdrPxa r k ∧ t.lit = s.cfg.litInit ∧ t.lpos = inverseTable s.cfg.litInit)

/-! ### The PXA engine -/

/-- The PXA header, checked and parsed (44_pxa_engine.md R140 to R143): fewer than 8 bytes is EndOfInput before any other
check; a magic that is not exact is InvalidHeader; else the two lengths are the big-endian fields and the capacity is the
smaller of the cap and `raw_len`. -/
def Obligations.PxaHeaderCheckedAndParsed : Prop :=
  ∀ s : State, s.status = .running → s.phase = .pxaHeader →
    (s.input.length < 8 → ∃ t, step s = .next t ∧ hasRaised .endOfInput s t) ∧
    (∀ h : 8 ≤ s.input.length,
      (¬ (s.input[0] = 0x00#8 ∧ s.input[1] = 0x70#8 ∧ s.input[2] = 0x78#8 ∧ s.input[3] = 0x61#8) →
        ∃ t, step s = .next t ∧ hasRaised .invalidHeader s t) ∧
      (s.input[0] = 0x00#8 ∧ s.input[1] = 0x70#8 ∧ s.input[2] = 0x78#8 ∧ s.input[3] = 0x61#8 →
        ∃ t, step s = .next t ∧ t.status = .running ∧ sameCall s t ∧
          t.rawLen.toNat = s.input[4].toNat * 256 + s.input[5].toNat ∧
          t.compLen.toNat = s.input[6].toNat * 256 + s.input[7].toNat ∧
          (s.cap = none → t.maxLen = t.rawLen) ∧ (∀ k, s.cap = some k → t.maxLen.toNat = min k t.rawLen.toNat)))

/-- HDR.PXA completes in every state: the two lengths and the capacity (44_pxa_engine.md R142, R143), an empty output,
the cursor on the first bit after the header (R144, decision D2), the table at `LIT_INIT` with `LPOS` its inverse, which
is `LIT[i] = LPOS[i] = i` under the identity (decision D3), the block loop next; nothing else changes. -/
def Obligations.HdrPxaInitialises : Prop :=
  ∀ (r k : Half) (s : State), ∃ t, exec (.hdrPxa r k) s = .next t ∧
    t = { s with rawLen := r, compLen := k, maxLen := t.maxLen, out := [], destPos := 0, cur := ⟨8, 1#8⟩,
                 lit := s.cfg.litInit, lpos := t.lpos, phase := .pxaBlocks } ∧
    (s.cap = none → t.maxLen = r) ∧ (∀ n, s.cap = some n → t.maxLen.toNat = min n r.toNat) ∧
    (s.cfg.wf → tablesInverse t.lit t.lpos) ∧
    (s.cfg.litInit = identityTable → ∀ i, readTable t.lit i = i ∧ readTable t.lpos i = i)

/-- When the block loop's condition fails the call ends: with `DEST_POS = MAX_LEN` it is `Ok` with `MAX_LEN` bytes, else
ConsistencyFailure (44_pxa_engine.md R146, R148, R150; decisions D4 and D13). That the registers stay after `Ok` is the
model's choice (log 33). -/
def Obligations.PxaLoopEnds : Prop :=
  ∀ s : State, s.status = .running → s.phase = .pxaBlocks → ¬ (s.cur.byte < s.compLen.toNat ∧ s.destPos < s.maxLen.toNat) →
    (s.destPos = s.maxLen.toNat →
      step s = .next { s with status := .done, result := some s.maxLen.toNat }) ∧
    (s.destPos ≠ s.maxLen.toNat → ∃ t, step s = .next t ∧ hasRaised .consistencyFailure s t)

/-- Every block consumes at least 6 bits and leaves the cursor inside the input or at its end: the cursor only moves
forward (10_state.md R12, 44_pxa_engine.md R147). -/
def Obligations.EveryBlockConsumesBits : Prop :=
  ∀ s t : State, s.Inv → s.status = .running → s.phase = .pxaBlocks → step s = .next t → t.status = .running →
    t.phase = .pxaBlocks ∧ Cursor.address s.cur + 6 ≤ Cursor.address t.cur ∧
      Cursor.address t.cur ≤ 8 * s.input.length

/-! ### The Dispatcher -/

/-- The Dispatcher's instructions complete in every state: SNIFF.PXA and SNIFF.P8 write `FORMAT` and enter the decoder,
and change nothing else; SNIFF.LEGACY writes `FORMAT` and raises Unsupported (45_dispatcher.md R161, R162), after which
`FORMAT` has no value (log 6). -/
def Obligations.SniffsRoute : Prop :=
  ∀ (b0 b1 b2 b3 : Byte) (s : State),
    exec (.sniffPxa b0 b1 b2 b3) s = .next { s with format := .pxa, phase := .pxaHeader } ∧
    exec .sniffP8 s = .next { s with format := .p8, phase := .p8Header } ∧
    exec (.sniffLegacy b0 b1 b2 b3) s = raise .unsupported { s with format := .legacy } ∧
    (∃ t, exec (.sniffLegacy b0 b1 b2 b3) s = .next t ∧ hasRaised .unsupported s t)

/-- The classification of an input (45_dispatcher.md R160, R161): fewer than four bytes is EndOfInput (decision D11); any
one PXA position is enough for the PXA route; all four P8 bytes take the P8 route; an input with no PXA position and not
all four P8 bytes takes neither and is Unsupported (decision D10, log 18). -/
def Obligations.DispatcherClassifies : Prop :=
  ∀ s : State, s.status = .running → s.phase = .sniff →
    (s.input.length < 4 → ∃ t, step s = .next t ∧ hasRaised .endOfInput s t) ∧
    (∀ h : 4 ≤ s.input.length,
      (s.input[0] = 0x00#8 ∨ s.input[1] = 0x70#8 ∨ s.input[2] = 0x78#8 ∨ s.input[3] = 0x61#8 →
        step s = .next { s with format := .pxa, phase := .pxaHeader }) ∧
      (s.input.take 4 = p8Magic → step s = .next { s with format := .p8, phase := .p8Header }) ∧
      (¬ (s.input[0] = 0x00#8 ∨ s.input[1] = 0x70#8 ∨ s.input[2] = 0x78#8 ∨ s.input[3] = 0x61#8) →
        s.input.take 4 ≠ p8Magic → ∃ t, step s = .next t ∧ hasRaised .unsupported s t))

/-- The legacy path (45_dispatcher.md R162): an input whose first four bytes match neither test is Unsupported, with the
same outcome whatever follows them, and no bytes are returned. That an input with one to three of the P8 bytes is of this
kind is decision D10 (log 18). -/
def Obligations.LegacyIsUnsupported : Prop :=
  ∀ (s : State) (b0 b1 b2 b3 : Byte) (rest : List Byte), s.status = .running → s.phase = .sniff →
    s.input = b0 :: b1 :: b2 :: b3 :: rest → resemblesPxa b0 b1 b2 b3 = false → isP8Magic b0 b1 b2 b3 = false →
    ∃ t, step s = .next t ∧ hasRaised .unsupported s t ∧ t.okBytes = none ∧
      ∀ rest', step { s with input := b0 :: b1 :: b2 :: b3 :: rest' } =
        .next { t with input := b0 :: b1 :: b2 :: b3 :: rest' }

/-! ### The P8 decoder -/

/-- HDR.P8 (46_p8_decoder.md R170 to R172): an input of fewer than 8 bytes is EndOfInput; a length above the capacity is
OutputExceeded; else the length, the capacity, the first code at byte 8 and `DEST_POS` 0 are written and nothing else
changes, `OUT` neither, which in a call that meets the invariant holds no cell here. The capacity is `P8_OUT_CAP` for
`decompress_p8` (45_dispatcher.md R159); for a dispatched call it is the cap or 65535 (R163, decision D17, log 24). When
the capacity is written is log 11. -/
def Obligations.HdrP8ChecksCapacity : Prop :=
  ∀ (len : Half) (s : State),
    (s.status = .running → s.phase = .p8Header → s.input.length < 8 → ∃ t, step s = .next t ∧ hasRaised .endOfInput s t) ∧
    (p8Capacity s.entry s.cap s.p8OutCap < len.toNat →
      ∃ t, exec (.hdrP8 len) s = .next t ∧ hasRaised .outputExceeded s t) ∧
    (len.toNat ≤ p8Capacity s.entry s.cap s.p8OutCap →
      exec (.hdrP8 len) s = .next { s with p8Len := len, p8Cap := p8Capacity s.entry s.cap s.p8OutCap, p8Src := 8,
                                           destPos := 0, phase := .p8Codes }) ∧
    (s.Inv → s.status = .running → s.phase = .p8Header → ∀ a, s.out.read a = none) ∧
    (s.entry = .p8 → p8Capacity s.entry s.cap s.p8OutCap = s.p8OutCap) ∧
    (s.entry = .auto → s.cap = none → p8Capacity s.entry s.cap s.p8OutCap = 65535) ∧
    (∀ k, s.entry = .auto → s.cap = some k → p8Capacity s.entry s.cap s.p8OutCap = k)

/-- P8.ESC (46_p8_decoder.md R175): its second byte is appended verbatim and nothing else changes; when that byte is
missing the step is EndOfInput. -/
def Obligations.EscAppendsVerbatim : Prop :=
  (∀ (b : Byte) (s : State), s.destPos < s.p8Cap →
    ∃ t, exec (.p8Esc b) s = .next t ∧ onlyAppends s t ∧ appended s t 1 (fun _ => some b)) ∧
  (∀ s : State, s.status = .running → s.phase = .p8Codes → s.destPos < s.p8Len.toNat →
    s.input[s.p8Src]? = some 0x00#8 → s.input[s.p8Src + 1]? = none →
    ∃ t, step s = .next t ∧ hasRaised .endOfInput s t)

/-- A P8 code that is asked for at or past the end of `IN`, or whose second byte is missing, is EndOfInput: P8.ESC and
P8.BACK alike, P8.BACK before any check on its operands (46_p8_decoder.md R173, R175, R177; 60_exceptions.md R191, R200).
Every other code runs with `P8_SRC` past it. The loop condition is decision D15 (log 22). -/
def Obligations.CodeCutShortIsEndOfInput : Prop :=
  ∀ s : State, s.status = .running → s.phase = .p8Codes → s.destPos < s.p8Len.toNat →
    (s.input.length ≤ s.p8Src → ∃ t, step s = .next t ∧ hasRaised .endOfInput s t) ∧
    (∀ val : Byte, s.input[s.p8Src]? = some val → val = 0x00#8 ∨ 60 ≤ val.toNat → s.input.length ≤ s.p8Src + 1 →
      ∃ t, step s = .next t ∧ hasRaised .endOfInput s t) ∧
    (∀ val : Byte, s.input[s.p8Src]? = some val → val ≠ 0x00#8 → val.toNat < 60 →
      step s = exec (.p8Sym val) { s with p8Src := s.p8Src + 1 }) ∧
    (∀ b : Byte, s.input[s.p8Src]? = some 0x00#8 → s.input[s.p8Src + 1]? = some b →
      step s = exec (.p8Esc b) { s with p8Src := s.p8Src + 2 }) ∧
    (∀ val val2 : Byte, s.input[s.p8Src]? = some val → 60 ≤ val.toNat → s.input[s.p8Src + 1]? = some val2 →
      step s = exec (.p8Back val val2) { s with p8Src := s.p8Src + 2 })

/-- P8.SYM (46_p8_decoder.md R176): the byte of the alphabet is appended and nothing else changes; an index outside the
60-entry table gives `'?'`. -/
def Obligations.SymAppendsAlphabet : Prop :=
  ∀ (val : Byte) (s : State), s.destPos < s.p8Cap →
    ∃ t, exec (.p8Sym val) s = .next t ∧ onlyAppends s t ∧
      (∀ h : val.toNat < 60, appended s t 1 (fun _ => some (s.cfg.alphabet[val.toNat]))) ∧
      (60 ≤ val.toNat → appended s t 1 (fun _ => some 0x3F#8))

/-- P8.BACK (46_p8_decoder.md R177, R178): offset `(val - 60) * 16 + val2 % 16`, length `val2 / 16 + 2`; within the
written cells and the capacity `P8_CAP` (decision D18) it appends its bytes one at a time, repeating them when they
overlap (decision D16), and nothing else changes. -/
def Obligations.BackCopiesEarlierBytes : Prop :=
  ∀ (val val2 : Byte) (s : State),
    let offset := (val.toNat - 60) * 16 + val2.toNat % 16
    let len := val2.toNat / 16 + 2
    outFilled s → 1 ≤ offset → offset ≤ s.destPos → s.destPos + len ≤ s.p8Cap →
    ∃ t, exec (.p8Back val val2) s = .next t ∧ onlyAppends s t ∧
      appended s t len (fun k => s.out.read (s.destPos - offset + k % offset))

/-- When the P8 loop has produced at least `P8_LEN` bytes (decision D15) the call is `Ok` with the position reached
(decision D18) less a trailer that stands exactly at the end of the output, the first of the two that does (decision
D19); `OUT` is not changed (46_p8_decoder.md R174, R181, R182). That the registers stay after `Ok` is the model's choice
(log 33). -/
def Obligations.P8LoopEnds : Prop :=
  ∀ s : State, s.status = .running → s.phase = .p8Codes → s.p8Len.toNat ≤ s.destPos →
    ∃ n, step s = .next { s with status := .done, result := some n } ∧
      (let ends := fun (tr : List Byte) =>
        tr.length ≤ s.destPos ∧ ∀ i, i < tr.length → s.out.read (s.destPos - tr.length + i) = tr[i]?
      (ends s.cfg.trailer1 → n + s.cfg.trailer1.length = s.destPos) ∧
      (¬ ends s.cfg.trailer1 → ends s.cfg.trailer2 → n + s.cfg.trailer2.length = s.destPos) ∧
      (¬ ends s.cfg.trailer1 → ¬ ends s.cfg.trailer2 → n = s.destPos))

/-- A P8 call uses none of `CUR`, `LIT`, `LPOS`, `RAW_LEN`, `COMP_LEN`, `MAX_LEN`: a step of the P8 path gives the same
outcome whatever they hold, apart from those registers themselves (10_state.md R28). -/
def Obligations.P8IgnoresPxaRegisters : Prop :=
  ∀ s : State, s.phase = .p8Header ∨ s.phase = .p8Codes →
    onNext hidePxa (step s) = onNext hidePxa (step (hidePxa s))

/-! ### Faults -/

/-- Raising a fault (60_exceptions.md R198): `ERR` and `STATUS` are written, no bytes are returned, and no later step of
the call runs. That the parameters stay, that the returned length is a field and that a step after the end of a call stops
are the model's (logs 2, 6, 8 and 7). -/
def Obligations.RaiseEndsTheCall : Prop :=
  ∀ (e : Err) (s : State), ∃ t, raise e s = .next t ∧ t.err = e ∧ t.status = .fault ∧ t.okBytes = none ∧
    hasRaised e s t ∧ ∀ u, step t ≠ .next u

/-- InvalidHeader, OutputExceeded and Unsupported are raised exactly where their rules say, whatever unit runs
(60_exceptions.md R192, R195, R196). That Unsupported needs four bytes is decision D11 (log 19), that one to three P8 bytes
are no match decision D10 (log 18), the capacity of a dispatched P8 call decision D17 (log 24). -/
def Obligations.HeaderKindsRaisedOnlyByTheirUnit : Prop :=
  ∀ s t : State, s.Inv → s.status = .running → step s = .next t →
    (t.err = .invalidHeader ↔ s.phase = .pxaHeader ∧ 8 ≤ s.input.length ∧ s.input.take 4 ≠ pxaMagic) ∧
    (t.err = .outputExceeded ↔ s.phase = .p8Header ∧ ∃ len, decodeP8Header s.input = .ok (.hdrP8 len) ∧
      p8Capacity s.entry s.cap s.p8OutCap < len.toNat) ∧
    (t.err = .unsupported ↔ s.phase = .sniff ∧ ∃ b0 b1 b2 b3, s.input.take 4 = [b0, b1, b2, b3] ∧
      resemblesPxa b0 b1 b2 b3 = false ∧ isP8Magic b0 b1 b2 b3 = false)

/-- The kinds each path can raise (60_exceptions.md R190; 42_block_decoder.md R118, 46_p8_decoder.md R183); EndOfInput is
the only kind that all of them can. -/
def Obligations.FaultKindsOfEachPhase : Prop :=
  ∀ s t : State, s.Inv → s.status = .running → step s = .next t → t.status = .fault →
    match s.phase with
    | .sniff => t.err = .endOfInput ∨ t.err = .unsupported
    | .pxaHeader => t.err = .endOfInput ∨ t.err = .invalidHeader
    | .pxaBlocks =>
      t.err = .endOfInput ∨ t.err = .invalidBlock ∨ t.err = .literalOverflow ∨ t.err = .consistencyFailure
    | .p8Header => t.err = .endOfInput ∨ t.err = .outputExceeded
    | .p8Codes => t.err = .endOfInput ∨ t.err = .invalidBlock

/-! ### Whole-machine rules -/

/-- No step changes a parameter of the call: `IN` is immutable, and so are the cap, the entry point, the P8 buffer's size
and the build's parameters (10_state.md R24, R29). -/
def Obligations.StepKeepsParameters : Prop := ∀ s t : State, step s = .next t → sameCall s t

/-- Output only grows: a step that raises no fault moves `DEST_POS` up or leaves it, never past the capacity, and no cell
written before changes (10_state.md R19, R23; 20_memory.md R47). -/
def Obligations.OutputOnlyGrows : Prop :=
  ∀ s t : State, s.Inv → s.status = .running → step s = .next t → t.status ≠ .fault →
    s.destPos ≤ t.destPos ∧ (∀ a, a < s.destPos → t.out.read a = s.out.read a) ∧
    (s.phase = .pxaBlocks → t.destPos ≤ s.maxLen.toNat) ∧ (s.phase = .p8Codes → t.destPos ≤ s.p8Cap)

/-- Every step keeps the invariant: memory canonical, the mask one-hot and the cursor within the input, `LIT` a
permutation with `LPOS` its inverse, `OUT` filled exactly below `DEST_POS`, `DEST_POS` within the capacity, a kind
exactly after a fault, the bytes an `Ok` returns all written. -/
def Obligations.StepKeepsInvariant : Prop := ∀ s t : State, s.Inv → step s = .next t → t.Inv

/-- From every running state that meets the invariant a step answers a next state: no access is ever made to a cell that
does not exist or holds no value (20_memory.md R49, 70_reset_and_hazards.md R225). -/
def Obligations.RunningStepAnswers : Prop := ∀ s : State, s.Inv → s.status = .running → ∃ t, step s = .next t

/-- Every call ends, with `Ok` or a fault, within `8 * IN_LEN + 3` steps (70_reset_and_hazards.md R223, 44_pxa_engine.md
R147). The step is the model's unit of work (log 1). -/
def Obligations.EveryCallEnds : Prop :=
  ∀ (cfg : Config) (input : List Byte) (cap : Option Nat) (entry : Entry) (p8OutCap : Nat), cfg.wf →
    ∃ n t, n ≤ 8 * input.length + 3 ∧ runSteps n (State.start cfg input cap entry p8OutCap) = .next t ∧ t.ended

/-- An uncapped PXA call that ends with `Ok` returns exactly `raw_len` bytes, and `DEST_POS` is the allocated length
(44_pxa_engine.md R151). -/
def Obligations.UncappedPxaReturnsRawLen : Prop :=
  ∀ (cfg : Config) (input : List Byte) (entry : Entry) (p8OutCap n : Nat) (t : State), cfg.wf →
    runSteps n (State.start cfg input none entry p8OutCap) = .next t → t.status = .done → t.format = .pxa →
    ∃ (h : 8 ≤ input.length) (bs : List Byte), t.okBytes = some bs ∧
      bs.length = input[4].toNat * 256 + input[5].toNat ∧ t.destPos = t.maxLen.toNat ∧ t.maxLen.toNat = bs.length

/-- A capped PXA call of an input whose uncapped call ends with `Ok`: when it has ended, it has returned a prefix of the
uncapped call's bytes, of the length of the cap or all of them, or it has raised InvalidBlock (44_pxa_engine.md R152 in
its conditional form; conflict C3, decision D12). -/
def Obligations.CappedPxaIsPrefix : Prop :=
  ∀ (cfg : Config) (input : List Byte) (k : Nat) (entry : Entry) (p8OutCap m n : Nat) (s u : State), cfg.wf →
    runSteps m (State.start cfg input (some k) entry p8OutCap) = .next s → s.ended →
    runSteps n (State.start cfg input none entry p8OutCap) = .next u → u.status = .done → u.format = .pxa →
    ∃ bs, u.okBytes = some bs ∧
      (s.status = .done ∧ s.okBytes = some (bs.take k) ∨ s.status = .fault ∧ s.err = .invalidBlock)
end

