-- ==== Sys2Proof/Laws/BitReader.lean ====
section
/-! SUPPORT. The Bit Reader on bit addresses: a cursor is the bit address it stands at, one bit read is one bit of the
stream, and the bits of a packed list are the list. -/

namespace Sys2Proof.Machine

/-! ### Except as the reader uses it -/

@[simp] theorem ok_bind {α β : Type} (a : α) (f : α → Except DecodeError β) : (Except.ok a >>= f) = f a := rfl

@[simp] theorem error_bind {α β : Type} (e : DecodeError) (f : α → Except DecodeError β) :
    (Except.error e >>= f) = Except.error e := rfl

/-- A read that answers has answered in each of its parts. -/
theorem bind_eq_ok {α β : Type} {x : Except DecodeError α} {f : α → Except DecodeError β} {b : β} :
    (x >>= f) = .ok b ↔ ∃ a, x = .ok a ∧ f a = .ok b := by
  cases x <;> simp

theorem bind_eq_error {α β : Type} {x : Except DecodeError α} {f : α → Except DecodeError β} {e : DecodeError} :
    (x >>= f) = .error e ↔ x = .error e ∨ ∃ a, x = .ok a ∧ f a = .error e := by
  cases x <;> simp

/-! ### Bit addresses -/

theorem ofNat_two_pow_ne {j : Nat} (h : j < 7) : BitVec.ofNat 8 (2 ^ j) ≠ 128#8 := by
  interval_cases j <;> decide

theorem advance_cursorAt (k : Nat) : Cursor.advance (cursorAt k) = cursorAt (k + 1) := by
  have hk : k % 8 < 8 := Nat.mod_lt _ (by decide)
  unfold Cursor.advance cursorAt
  by_cases h7 : k % 8 = 7
  · have h0 : (k + 1) % 8 = 0 := by omega
    have hd : (k + 1) / 8 = k / 8 + 1 := by omega
    simp [h7, h0, hd]
  · have h1 : (k + 1) % 8 = k % 8 + 1 := by omega
    have hd : (k + 1) / 8 = k / 8 := by omega
    have hne := ofNat_two_pow_ne (j := k % 8) (by omega)
    simp only [h1, hd, if_neg hne, Cursor.mk.injEq, true_and]
    have hlt : k % 8 < 7 := by omega
    generalize k % 8 = j at hlt
    interval_cases j <;> decide

theorem and_two_pow (x : Byte) {j : Nat} (h : j < 8) :
    ((x &&& BitVec.ofNat 8 (2 ^ j)) != 0#8) = x.getLsbD j := by
  interval_cases j <;> revert x <;> decide

/-- One bit read is one bit of the stream (40_bit_reader.md R90, 20_memory.md R40). -/
theorem getBit_cursorAt (inp : List Byte) (k : Nat) :
    getBit inp (cursorAt k) =
      match streamBit inp k with
      | none => .error .endOfInput
      | some b => .ok (b, cursorAt (k + 1)) := by
  unfold getBit streamBit
  rw [advance_cursorAt]
  simp only [cursorAt]
  cases inp[k / 8]? with
  | none => rfl
  | some x => simp only [Option.map_some, and_two_pow x (Nat.mod_lt k (by decide : 8 > 0))]

theorem streamBit_isSome (inp : List Byte) (k : Nat) : (streamBit inp k).isSome = decide (k < 8 * inp.length) := by
  unfold streamBit
  rw [Option.isSome_map]
  by_cases h : k / 8 < inp.length
  · simp [h]; omega
  · simp only [not_lt] at h
    rw [List.getElem?_eq_none h]
    simp
    omega

theorem streamBit_eq_none {inp : List Byte} {k : Nat} (h : 8 * inp.length ≤ k) : streamBit inp k = none := by
  have := streamBit_isSome inp k
  rw [decide_eq_false (by omega)] at this
  simpa using this

theorem exists_streamBit {inp : List Byte} {k : Nat} (h : k < 8 * inp.length) : ∃ b, streamBit inp k = some b := by
  have := streamBit_isSome inp k
  rw [decide_eq_true h] at this
  exact Option.isSome_iff_exists.1 this

/-- A one-hot cursor stands at its bit address (10_state.md R11). -/
theorem cursorAt_address {c : Cursor} (h : maskLegal c.mask) : cursorAt (Cursor.address c) = c := by
  obtain ⟨byte, mask⟩ := c
  obtain ⟨k, hk, rfl⟩ := h
  have : (BitVec.ofNat 8 (2 ^ k)).toNat.log2 = k := by interval_cases k <;> decide
  unfold cursorAt Cursor.address
  simp only [this]
  have h1 : (8 * byte + k) / 8 = byte := by omega
  have h2 : (8 * byte + k) % 8 = k := by omega
  rw [h1, h2]

theorem address_cursorAt (k : Nat) : Cursor.address (cursorAt k) = k := by
  have hk : k % 8 < 8 := Nat.mod_lt _ (by decide)
  have : (BitVec.ofNat 8 (2 ^ (k % 8))).toNat.log2 = k % 8 := by
    generalize k % 8 = j at hk
    interval_cases j <;> decide
  unfold cursorAt Cursor.address
  simp only [this]
  omega

theorem maskLegal_cursorAt (k : Nat) : maskLegal (cursorAt k).mask :=
  ⟨k % 8, Nat.mod_lt _ (by decide), rfl⟩

theorem cursorLegal_cursorAt {input : List Byte} {k : Nat} (h : k ≤ 8 * input.length) :
    cursorLegal input (cursorAt k) := by
  refine ⟨maskLegal_cursorAt k, ?_⟩
  by_cases hk : k = 8 * input.length
  · subst hk
    refine .inr ⟨?_, ?_⟩ <;> simp [cursorAt]
  · refine .inl ?_
    simp only [cursorAt]
    omega

/-- A legal cursor is a bit address inside the input or right at its end. -/
theorem address_le_of_legal {input : List Byte} {c : Cursor} (h : cursorLegal input c) :
    Cursor.address c ≤ 8 * input.length := by
  obtain ⟨⟨k, hk, hm⟩, hb⟩ := h
  have hl : c.mask.toNat.log2 = k := by rw [hm]; interval_cases k <;> decide
  unfold Cursor.address
  rcases hb with hb | ⟨hb, h1⟩
  · omega
  · have : k = 0 := by
      rw [← hl, h1]; decide
    omega

/-! ### Fields -/

/-- A field read at a bit address (40_bit_reader.md R91, R94): what it answers, where it leaves the cursor, and that its
bits are the bits of the stream. -/
theorem readBits_cursorAt_ok {inp : List Byte} {n k v : Nat} {c : Cursor}
    (h : readBits inp n (cursorAt k) = .ok (v, c)) :
    c = cursorAt (k + n) ∧ v < 2 ^ n ∧ k + n ≤ max k (8 * inp.length) ∧
      ∀ i, i < n → streamBit inp (k + i) = some (v.testBit i) := by
  induction n generalizing k v c with
  | zero =>
    simp only [readBits, Except.ok.injEq, Prod.mk.injEq] at h
    obtain ⟨rfl, rfl⟩ := h
    simp
  | succ n ih =>
    rw [readBits, getBit_cursorAt] at h
    cases hb : streamBit inp k with
    | none => simp [hb] at h
    | some b =>
      simp only [hb, ok_bind] at h
      obtain ⟨⟨w, c2⟩, hr, h⟩ := bind_eq_ok.1 h
      simp only [Except.ok.injEq, Prod.mk.injEq] at h
      obtain ⟨rfl, rfl⟩ := h
      obtain ⟨rfl, hlt, hle, hbits⟩ := ih hr
      have hk : k < 8 * inp.length := by
        have := streamBit_isSome inp k
        rw [hb] at this
        simpa using this.symm
      refine ⟨by congr 1; omega, ?_, by omega, ?_⟩
      · have : b.toNat ≤ 1 := Bool.toNat_le b
        rw [Nat.pow_succ]; omega
      · intro i hi
        have hb1 : b.toNat ≤ 1 := Bool.toNat_le b
        cases i with
        | zero =>
          rw [Nat.add_zero, hb, Nat.testBit_zero]
          cases b <;> simp [Nat.add_mod]
        | succ i =>
          have := hbits i (by omega)
          rw [show k + (i + 1) = k + 1 + i by omega, this, Nat.testBit_succ]
          congr 2
          omega

/-- A field read at a bit address answers exactly when all its bits exist; otherwise it is the end of the input. -/
theorem readBits_cursorAt_total (inp : List Byte) (n k : Nat) :
    (n = 0 ∨ k + n ≤ 8 * inp.length → ∃ v, readBits inp n (cursorAt k) = .ok (v, cursorAt (k + n))) ∧
    (¬ (n = 0 ∨ k + n ≤ 8 * inp.length) → readBits inp n (cursorAt k) = .error .endOfInput) := by
  induction n generalizing k with
  | zero => simp [readBits]
  | succ n ih =>
    rw [readBits, getBit_cursorAt]
    by_cases hk : k < 8 * inp.length
    · obtain ⟨b, hb⟩ := exists_streamBit hk
      simp only [hb, ok_bind]
      obtain ⟨h1, h2⟩ := ih (k + 1)
      constructor
      · intro h
        obtain ⟨v, hv⟩ := h1 (by omega)
        rw [hv]
        exact ⟨b.toNat + 2 * v, by simp only [ok_bind]; congr 3; omega⟩
      · intro h
        rw [h2 (by omega)]
        rfl
    · rw [streamBit_eq_none (by omega)]
      simp only [error_bind]
      exact ⟨fun h => absurd h (by omega), fun _ => trivial⟩

/-! ### Packed bits -/

theorem bitsValue_testBit (bs : List Bool) (i : Nat) : (bitsValue bs).testBit i = bs.getD i false := by
  induction bs generalizing i with
  | nil => simp [bitsValue]
  | cons b bs ih =>
    unfold bitsValue
    cases i with
    | zero => cases b <;> simp [Nat.testBit_zero]
    | succ i =>
      rw [Nat.testBit_succ]
      have : (b.toNat + 2 * bitsValue bs) / 2 = bitsValue bs := by
        have := Bool.toNat_le b; omega
      rw [this, ih]
      simp

theorem packBits_length (bits : List Bool) : (packBits bits).length = (bits.length + 7) / 8 := by
  simp [packBits]

/-- The bits of packed bytes are the list that was packed. -/
theorem streamBit_packBits {bits : List Bool} {k : Nat} (h : k < bits.length) :
    streamBit (packBits bits) k = some bits[k] := by
  have hk : k / 8 < (bits.length + 7) / 8 := by omega
  unfold streamBit packBits
  rw [List.getElem?_map, List.getElem?_range hk]
  have h8 : k % 8 < 8 := Nat.mod_lt _ (by decide)
  simp only [Option.map_some, BitVec.getLsbD_ofNat, bitsValue_testBit, h8, decide_true, Bool.true_and]
  rw [List.getD_eq_getElem?_getD, List.getElem?_take_of_lt h8, List.getElem?_drop]
  have : 8 * (k / 8) + k % 8 = k := by omega
  rw [this, List.getElem?_eq_getElem h]
  rfl

theorem fieldBits_length (n v : Nat) : (fieldBits n v).length = n := by
  induction n generalizing v with
  | zero => rfl
  | succ n ih => simp [fieldBits, ih]

theorem fieldBits_getElem {n v i : Nat} (h : i < (fieldBits n v).length) : (fieldBits n v)[i] = v.testBit i := by
  induction n generalizing v i with
  | zero => simp [fieldBits] at h
  | succ n ih =>
    cases i with
    | zero => simp only [fieldBits, List.getElem_cons_zero, Nat.testBit_zero]; rfl
    | succ i =>
      simp only [fieldBits, List.getElem_cons_succ]
      rw [ih, Nat.testBit_succ]

end Sys2Proof.Machine
end

