-- ==== Sys2Proof/Laws/Decode.lean ====
section
/-! SUPPORT. What the decoders consume: every read that answers from a bit address leaves the cursor at a later bit address
inside the input or at its end. -/

namespace Sys2Proof.Machine

/-- A field read at a bit address: nothing but the cursor's new bit address. -/
theorem getBits_cursorAt_pos {inp : List Byte} {n k v : Nat} {h : n ≤ getBitsMax} {c : Cursor}
    (hk : k ≤ 8 * inp.length) (he : getBits inp n h (cursorAt k) = .ok (v, c)) :
    c = cursorAt (k + n) ∧ v < 2 ^ n ∧ k + n ≤ 8 * inp.length := by
  obtain ⟨h1, h2, h3, _⟩ := readBits_cursorAt_ok he
  exact ⟨h1, h2, by omega⟩

theorem getBit_cursorAt_pos {inp : List Byte} {k : Nat} {b : Bool} {c : Cursor}
    (he : getBit inp (cursorAt k) = .ok (b, c)) : c = cursorAt (k + 1) ∧ k + 1 ≤ 8 * inp.length := by
  rw [getBit_cursorAt] at he
  have := streamBit_isSome inp k
  cases hb : streamBit inp k with
  | none => simp [hb] at he
  | some x =>
    rw [hb] at this he
    simp only [Except.ok.injEq, Prod.mk.injEq] at he
    exact ⟨he.2.symm, by simpa using this.symm⟩

/-- A chain that answers: it has consumed whole groups, at least one when the budget admits one, and its value is at most
what its groups can hold. -/
theorem chainGroups_pos {inp : List Byte} {link n k v : Nat} {h : link ≤ getBitsMax} {c : Cursor}
    (hk : k ≤ 8 * inp.length) (he : chainGroups inp link h n (cursorAt k) = .ok (v, c)) :
    ∃ j, c = cursorAt j ∧ k ≤ j ∧ (1 ≤ n → k + link ≤ j) ∧ j ≤ 8 * inp.length ∧ v ≤ n * (2 ^ link - 1) := by
  induction n generalizing k v c with
  | zero =>
    simp only [chainGroups, Except.ok.injEq, Prod.mk.injEq] at he
    exact ⟨k, he.2.symm, by omega, by omega, hk, by omega⟩
  | succ n ih =>
    obtain ⟨⟨vv, c1⟩, hg, he⟩ := bind_eq_ok.1 he
    obtain ⟨rfl, hlt, h2⟩ := getBits_cursorAt_pos hk hg
    dsimp only at he
    have hn : (n + 1) * (2 ^ link - 1) = n * (2 ^ link - 1) + (2 ^ link - 1) := Nat.succ_mul _ _
    split at he
    · obtain ⟨⟨r, c2⟩, hc, he⟩ := bind_eq_ok.1 he
      obtain ⟨j, rfl, hj, _, hj', hv⟩ := ih h2 hc
      simp only [Except.ok.injEq, Prod.mk.injEq] at he
      exact ⟨j, he.2.symm, by omega, by omega, hj', by omega⟩
    · simp only [Except.ok.injEq, Prod.mk.injEq] at he
      exact ⟨k + link, he.2.symm, by omega, by omega, h2, by omega⟩

/-- A unary run that answers: it has consumed its ones, and its zero unless the cap ended it. -/
theorem prefixOnes_pos {inp : List Byte} {n k e : Nat} {c : Cursor} (hk : k ≤ 8 * inp.length)
    (he : prefixOnes inp n (cursorAt k) = .ok (e, c)) :
    ∃ j, c = cursorAt j ∧ e ≤ n ∧ k + min (e + 1) n ≤ j ∧ j ≤ 8 * inp.length := by
  induction n generalizing k e c with
  | zero =>
    simp only [prefixOnes, Except.ok.injEq, Prod.mk.injEq] at he
    exact ⟨k, he.2.symm, by omega, by omega, hk⟩
  | succ n ih =>
    obtain ⟨⟨b, c1⟩, hg, he⟩ := bind_eq_ok.1 he
    obtain ⟨rfl, h1⟩ := getBit_cursorAt_pos hg
    cases b with
    | true =>
      simp only [if_true] at he
      obtain ⟨⟨e', c2⟩, hc, he⟩ := bind_eq_ok.1 he
      obtain ⟨j, rfl, hle, hj, hj'⟩ := ih h1 hc
      simp only [Except.ok.injEq, Prod.mk.injEq] at he
      exact ⟨j, he.2.symm, by omega, by omega, hj'⟩
    | false =>
      simp only [Bool.false_eq_true, if_false, Except.ok.injEq, Prod.mk.injEq] at he
      exact ⟨k + 1, he.2.symm, by omega, by omega, h1⟩

/-- A LIT block after its prefix: the field, when it is read, ends inside the input. -/
theorem decodeLiteral_pos {inp : List Byte} {k : Nat} {i : Instr} {c : Cursor} (hk : k ≤ 8 * inp.length)
    (he : decodeLiteral inp (cursorAt k) = .ok (i, c)) :
    ∃ j, c = cursorAt j ∧ k + 5 ≤ j ∧ j ≤ 8 * inp.length := by
  obtain ⟨⟨e, c2⟩, hp, he⟩ := bind_eq_ok.1 he
  obtain ⟨j, rfl, hle, hj, hj'⟩ := prefixOnes_pos hk hp
  have field : ∀ (e : Nat) (h : litBaseWidth + e ≤ getBitsMax) (mk : Nat → Instr),
      literalField inp e h (cursorAt j) mk = .ok (i, c) → ∃ l, c = cursorAt l ∧ j + 4 ≤ l ∧ l ≤ 8 * inp.length := by
    intro e h mk hl
    obtain ⟨⟨v, d⟩, hb, hl⟩ := bind_eq_ok.1 hl
    obtain ⟨rfl, _, h2⟩ := getBits_cursorAt_pos hj' hb
    simp only [Except.ok.injEq, Prod.mk.injEq] at hl
    exact ⟨j + (litBaseWidth + e), hl.2.symm, by simp only [litBaseWidth]; omega, h2⟩
  have here : 4 ≤ e → ∀ i', Except.ok (i', cursorAt j) = (Except.ok (i, c) : Except DecodeError (Instr × Cursor)) →
      ∃ l, c = cursorAt l ∧ k + 5 ≤ l ∧ l ≤ 8 * inp.length := by
    intro h4 i' h
    simp only [Except.ok.injEq, Prod.mk.injEq] at h
    simp only [litPrefixCap] at hj
    exact ⟨j, h.2.symm, by omega, hj'⟩
  have past : (∃ l, c = cursorAt l ∧ j + 4 ≤ l ∧ l ≤ 8 * inp.length) →
      ∃ l, c = cursorAt l ∧ k + 5 ≤ l ∧ l ≤ 8 * inp.length := by
    rintro ⟨l, rfl, hl, hl'⟩
    simp only [litPrefixCap] at hj
    exact ⟨l, rfl, by omega, hl'⟩
  simp only [litPrefixCap] at hle
  dsimp only at he
  interval_cases e
  all_goals first
    | exact past (field _ _ _ he)
    | exact here (by decide) _ he

/-- A block that decodes at a bit address leaves the cursor at least 6 bits further, inside the input or at its end. -/
theorem decodeBlock_pos {inp : List Byte} {k : Nat} {i : Instr} {c : Cursor}
    (he : decodeBlock inp (cursorAt k) = .ok (i, c)) :
    ∃ j, c = cursorAt j ∧ k + 6 ≤ j ∧ j ≤ 8 * inp.length := by
  obtain ⟨⟨m, c1⟩, hm, he⟩ := bind_eq_ok.1 he
  obtain ⟨rfl, h1⟩ := getBit_cursorAt_pos hm
  cases m with
  | true =>
    obtain ⟨j, rfl, hj, hj'⟩ := decodeLiteral_pos h1 he
    exact ⟨j, rfl, by omega, hj'⟩
  | false =>
    obtain ⟨⟨sel, v, c2⟩, hn, he⟩ := bind_eq_ok.1 he
    obtain ⟨⟨s', c3⟩, hs, hn⟩ := bind_eq_ok.1 hn
    obtain ⟨j, rfl, -, hj, hj', hv⟩ := chainGroups_pos h1 hs
    obtain ⟨⟨w, c4⟩, hw, hn⟩ := bind_eq_ok.1 hn
    simp only [Except.ok.injEq, Prod.mk.injEq] at hn
    obtain ⟨rfl, rfl, rfl⟩ := hn
    obtain ⟨rfl, _, h2⟩ := getBits_cursorAt_pos hj' hw
    have hw5 : 5 ≤ offsetWidth s' := by
      simp only [selectorBudget, selectorLink] at hv
      have : s' ≤ 2 := by simpa using hv
      interval_cases s' <;> decide
    have hj1 : k + 1 + 1 ≤ j := hj (by decide)
    dsimp only at he
    split at he
    · simp only [Except.ok.injEq, Prod.mk.injEq] at he
      exact ⟨_, he.2.symm, by omega, h2⟩
    · obtain ⟨⟨x, c5⟩, hx, he⟩ := bind_eq_ok.1 he
      obtain ⟨l, rfl, hl, -, hl', -⟩ := chainGroups_pos h2 hx
      simp only [Except.ok.injEq, Prod.mk.injEq] at he
      exact ⟨l, he.2.symm, by omega, hl'⟩

/-- A code that decodes consumes one or two bytes of the input. -/
theorem decodeCode_pos {inp : List Byte} {k n : Nat} {i : Instr} (he : decodeCode inp k = .ok (i, n)) :
    i.phase = .p8Codes ∧ k < n ∧ n ≤ inp.length := by
  have byte : ∀ {j : Nat} {b : Byte} {m : Nat}, nextByte inp j = .ok (b, m) → m = j + 1 ∧ j < inp.length := by
    intro j b m hb
    unfold nextByte at hb
    split at hb
    · cases hb
    · rename_i x hx
      simp only [Except.ok.injEq, Prod.mk.injEq] at hb
      exact ⟨hb.2.symm, (List.getElem?_eq_some_iff.1 hx).1⟩
  obtain ⟨⟨val, s1⟩, h1, he⟩ := bind_eq_ok.1 he
  obtain ⟨rfl, hk⟩ := byte h1
  dsimp only at he
  split at he
  · obtain ⟨⟨b, s2⟩, h2, he⟩ := bind_eq_ok.1 he
    obtain ⟨rfl, hk2⟩ := byte h2
    simp only [Except.ok.injEq, Prod.mk.injEq] at he
    obtain ⟨rfl, rfl⟩ := he
    exact ⟨rfl, by omega, by omega⟩
  · split at he
    · simp only [Except.ok.injEq, Prod.mk.injEq] at he
      obtain ⟨rfl, rfl⟩ := he
      exact ⟨rfl, by omega, by omega⟩
    · obtain ⟨⟨b, s2⟩, h2, he⟩ := bind_eq_ok.1 he
      obtain ⟨rfl, hk2⟩ := byte h2
      simp only [Except.ok.injEq, Prod.mk.injEq] at he
      obtain ⟨rfl, rfl⟩ := he
      exact ⟨rfl, by omega, by omega⟩

/-- A sniff that decodes: the input has four bytes. -/
theorem decodeSniff_ok {inp : List Byte} {i : Instr} (he : decodeSniff inp = .ok i) :
    i.phase = .sniff ∧ 4 ≤ inp.length := by
  unfold decodeSniff at he
  split at he
  · refine ⟨?_, by simp⟩
    split at he
    · cases he; rfl
    · split at he <;> (cases he; rfl)
  · cases he

/-- A PXA header that decodes: the input has eight bytes, the first four the magic. -/
theorem decodePxaHeader_ok {inp : List Byte} {i : Instr} (he : decodePxaHeader inp = .ok i) :
    (∃ r k, i = .hdrPxa r k) ∧ 8 ≤ inp.length ∧ inp.take 4 = pxaMagic := by
  unfold decodePxaHeader at he
  split at he
  · split at he
    · rename_i hm
      cases he
      exact ⟨⟨_, _, rfl⟩, by simp, hm⟩
    · cases he
  · cases he

/-- A P8 header that decodes: the input has eight bytes. -/
theorem decodeP8Header_ok {inp : List Byte} {i : Instr} (he : decodeP8Header inp = .ok i) :
    (∃ len, i = .hdrP8 len) ∧ 8 ≤ inp.length := by
  unfold decodeP8Header at he
  split at he
  · cases he
    exact ⟨⟨_, rfl⟩, by simp⟩
  · cases he

end Sys2Proof.Machine
end

