-- ==== Sys2Proof/Laws/LiteralTable.lean ====
section
/-! SUPPORT. The laws of the adaptive table: a read after a write, the identity, the inverse at the start of a call,
and the entries after a shift. -/

namespace Sys2Proof.Machine

@[simp] theorem readTable_writeTable_same (t : Table) (i v : Byte) : readTable (writeTable t i v) i = v := by
  simp [readTable, writeTable]

theorem readTable_writeTable_other (t : Table) {i j : Byte} (v : Byte) (h : j ≠ i) :
    readTable (writeTable t i v) j = readTable t j := by
  have : i.toNat ≠ j.toNat := fun e => h (BitVec.eq_of_toNat_eq e.symm)
  simp only [readTable, writeTable]
  exact Vector.getElem_set_ne _ _ this

theorem readTable_writeTable (t : Table) (i j v : Byte) :
    readTable (writeTable t i v) j = if j = i then v else readTable t j := by
  split
  · subst j; simp
  · exact readTable_writeTable_other t v ‹_›

@[simp] theorem readTable_identityTable (i : Byte) : readTable identityTable i = i := by
  simp [readTable, identityTable]

/-- Two tables that read alike are equal. -/
theorem table_ext {t u : Table} (h : ∀ i : Byte, readTable t i = readTable u i) : t = u := by
  apply Vector.ext
  intro i hi
  have := h (BitVec.ofNat 8 i)
  simpa [readTable, Nat.mod_eq_of_lt hi] using this

/-- An entry of the initial position table is the first index of the byte (10_state.md R15). -/
theorem readTable_inverseTable (t : Table) (b : Byte) :
    readTable (inverseTable t) b = BitVec.ofNat 8 (t.toList.idxOf b) := by
  simp [readTable, inverseTable]

theorem readTable_eq_toList (t : Table) (i : Byte) :
    readTable t i = t.toList[i.toNat]'(by simpa using i.isLt) := by
  simp [readTable]

/-- A table without repeats is a permutation, and its inverse table is its inverse (10_state.md R14, R15). -/
theorem tablesInverse_inverseTable {t : Table} (h : t.toList.Nodup) : tablesInverse t (inverseTable t) := by
  have hlen : t.toList.length = 256 := by simp
  have hinj : Function.Injective (readTable t) := by
    intro i j hij
    rw [readTable_eq_toList, readTable_eq_toList] at hij
    exact BitVec.eq_of_toNat_eq ((List.Nodup.getElem_inj_iff h).1 hij)
  have hleft : ∀ i : Byte, readTable (inverseTable t) (readTable t i) = i := by
    intro i
    rw [readTable_inverseTable, readTable_eq_toList, List.Nodup.idxOf_getElem h]
    simp
  refine ⟨fun b => ?_, hleft⟩
  have : Finite Byte := Finite.of_injective (fun b : Byte => b.toFin) (fun _ _ h => BitVec.toFin_inj.1 h)
  obtain ⟨i, rfl⟩ := (Finite.injective_iff_surjective.1 hinj) b
  rw [hleft i]

theorem identityTable_nodup : identityTable.toList.Nodup := by
  have : identityTable.toList = (List.range 256).map (BitVec.ofNat 8) := rfl
  rw [this]
  refine List.Nodup.map_on ?_ List.nodup_range
  intro a ha b hb hab
  have ha' := List.mem_range.1 ha
  have hb' := List.mem_range.1 hb
  have := congrArg BitVec.toNat hab
  simp only [BitVec.toNat_ofNat] at this
  omega

theorem defaultConfig_wf : defaultConfig.wf :=
  ⟨identityTable_nodup, by decide, by decide⟩

theorem inverseTable_identityTable : inverseTable identityTable = identityTable := by
  apply table_ext
  intro b
  have := (tablesInverse_inverseTable identityTable_nodup).2 b
  simpa using this

/-! ### The shift -/

theorem ofNat_inj_of_lt {a b : Nat} (ha : a < 256) (hb : b < 256) (h : BitVec.ofNat 8 a = BitVec.ofNat 8 b) : a = b := by
  have := congrArg BitVec.toNat h
  simp only [BitVec.toNat_ofNat] at this
  omega

/-- One entry moved back: only the entry after it changes. -/
theorem moveBack_lit {i k : Nat} {t : Tables} (hi : i < 255) (hk : k < 256) :
    readTable (moveBack i t).lit (BitVec.ofNat 8 k) =
      if k = i + 1 then readTable t.lit (BitVec.ofNat 8 i) else readTable t.lit (BitVec.ofNat 8 k) := by
  simp only [moveBack, readTable_writeTable]
  by_cases h : k = i + 1
  · simp [h]
  · rw [if_neg h, if_neg fun e => h (ofNat_inj_of_lt hk (by omega) e)]

theorem moveBack_lpos (i : Nat) (t : Tables) (b : Byte) :
    readTable (moveBack i t).lpos b =
      if b = readTable t.lit (BitVec.ofNat 8 i) then readTable t.lpos b + 1#8 else readTable t.lpos b := by
  simp only [moveBack, readTable_writeTable]
  split
  · rename_i h; rw [h]
  · rfl

/-- The whole shift: the entries below `n` have moved up by one (43_literal_model.md R131). -/
theorem shiftBack_lit {n k : Nat} {t : Tables} (hn : n < 256) (hk : k < 256) :
    readTable (shiftBack n t).lit (BitVec.ofNat 8 k) =
      if 1 ≤ k ∧ k ≤ n then readTable t.lit (BitVec.ofNat 8 (k - 1)) else readTable t.lit (BitVec.ofNat 8 k) := by
  induction n generalizing t with
  | zero => rw [if_neg (by omega)]; rfl
  | succ n ih =>
    rw [shiftBack, ih (by omega)]
    by_cases h1 : 1 ≤ k ∧ k ≤ n
    · rw [if_pos h1, if_pos (by omega), moveBack_lit (by omega) (by omega), if_neg (by omega)]
    · rw [if_neg h1, moveBack_lit (by omega) hk]
      by_cases h : k = n + 1
      · rw [if_pos h, if_pos (by omega), h]; rfl
      · rw [if_neg h, if_neg (by omega)]

/-- The position counters of the shifted bytes have gone up by one (43_literal_model.md R132). -/
theorem shiftBack_lpos {n : Nat} {t : Tables} (hn : n < 256)
    (hd : ∀ j k, j < n → k < n → readTable t.lit (BitVec.ofNat 8 j) = readTable t.lit (BitVec.ofNat 8 k) → j = k)
    (b : Byte) :
    ((∃ k, k < n ∧ readTable t.lit (BitVec.ofNat 8 k) = b) →
      readTable (shiftBack n t).lpos b = readTable t.lpos b + 1#8) ∧
    ((∀ k, k < n → readTable t.lit (BitVec.ofNat 8 k) ≠ b) →
      readTable (shiftBack n t).lpos b = readTable t.lpos b) := by
  induction n generalizing t with
  | zero => exact ⟨fun ⟨k, hk, _⟩ => absurd hk (by omega), fun _ => rfl⟩
  | succ n ih =>
    have same : ∀ k, k < n → readTable (moveBack n t).lit (BitVec.ofNat 8 k) = readTable t.lit (BitVec.ofNat 8 k) := by
      intro k hk
      rw [moveBack_lit (by omega) (by omega), if_neg (by omega)]
    obtain ⟨h1, h2⟩ := @ih (moveBack n t) (by omega) (by
      intro j k hj hk h
      rw [same j hj, same k hk] at h
      exact hd j k (by omega) (by omega) h)
    rw [shiftBack]
    constructor
    · rintro ⟨k, hk, hb⟩
      by_cases hkn : k = n
      · subst hkn
        rw [h2 fun j hj hjb => by
          rw [same j hj] at hjb
          have := hd j k (by omega) (by omega) (hjb.trans hb.symm)
          omega]
        rw [moveBack_lpos, if_pos hb.symm]
      · have hk' : k < n := by omega
        rw [h1 ⟨k, hk', by rw [same k hk', hb]⟩, moveBack_lpos, if_neg]
        intro hbn
        exact hkn (hd k n (by omega) (by omega) (hb.trans hbn))
    · intro h
      rw [h2 fun j hj => by rw [same j hj]; exact h j (by omega), moveBack_lpos,
        if_neg fun e => h n (by omega) e.symm]

/-- The table after a move to the front. -/
theorem moveToFront_lit {p c : Byte} {t : Tables} {k : Nat} (hk : k < 256) :
    readTable (moveToFront p c t).lit (BitVec.ofNat 8 k) =
      if k = 0 then c
      else if k ≤ p.toNat then readTable t.lit (BitVec.ofNat 8 (k - 1)) else readTable t.lit (BitVec.ofNat 8 k) := by
  simp only [moveToFront, readTable_writeTable]
  by_cases h : k = 0
  · simp [h]
  · rw [if_neg h, if_neg (fun e => h (ofNat_inj_of_lt hk (by omega) e)), shiftBack_lit p.isLt hk]
    by_cases h1 : k ≤ p.toNat
    · rw [if_pos (by omega), if_pos h1]
    · rw [if_neg (by omega), if_neg h1]

end Sys2Proof.Machine
end

