-- ==== Sys2Proof/Laws/Memory.lean ====
section
/-! SUPPORT. The laws of the byte memory: a read after a write, and the canonical form. -/

namespace Sys2Proof.Machine

@[simp] theorem Memory.read_nil (x : Nat) : Memory.read [] x = none := rfl

@[simp] theorem Memory.read_write_same (m : Memory) (x : Nat) (v : Byte) : (m.write x v).read x = some v := by
  induction m with
  | nil => simp [Memory.write, Memory.read]
  | cons p m ih =>
    obtain ⟨a, b⟩ := p
    unfold Memory.write
    split
    · simp [Memory.read]
    · split
      · simp [Memory.read]
      · simp [Memory.read, *]

theorem Memory.read_write_other (m : Memory) {x y : Nat} (v : Byte) (h : y ≠ x) :
    (m.write x v).read y = m.read y := by
  induction m with
  | nil => simp [Memory.write, Memory.read, h]
  | cons p m ih =>
    obtain ⟨a, b⟩ := p
    unfold Memory.write
    split
    · simp [Memory.read, h]
    · split
      · subst x; simp [Memory.read, h]
      · simp [Memory.read, ih]

theorem Memory.read_write (m : Memory) (x y : Nat) (v : Byte) :
    (m.write x v).read y = if y = x then some v else m.read y := by
  split
  · subst y; simp
  · exact m.read_write_other v ‹_›

/-- The addresses of a memory after a write are the old ones and the address written. -/
theorem Memory.mem_write {m : Memory} {x : Nat} {v : Byte} {p : Host.Cell} (h : p ∈ m.write x v) :
    p = (x, v) ∨ p ∈ m := by
  induction m with
  | nil => simpa [Memory.write] using h
  | cons q m ih =>
    obtain ⟨a, b⟩ := q
    unfold Memory.write at h
    split at h
    · simpa using h
    · split at h
      · rcases List.mem_cons.1 h with h | h
        · exact .inl h
        · exact .inr (List.mem_cons_of_mem _ h)
      · rcases List.mem_cons.1 h with h | h
        · exact .inr (h ▸ List.mem_cons_self)
        · exact (ih h).imp_right (List.mem_cons_of_mem _)

/-- A write keeps the canonical form. -/
theorem Memory.write_wf {m : Memory} (h : m.wf) (x : Nat) (v : Byte) : (m.write x v).wf := by
  induction m with
  | nil => simp [Memory.write]
  | cons p m ih =>
    obtain ⟨a, b⟩ := p
    obtain ⟨ha, hm⟩ := List.pairwise_cons.1 h
    unfold Memory.write
    split
    · refine List.pairwise_cons.2 ⟨fun q hq => ?_, h⟩
      rcases List.mem_cons.1 hq with rfl | hq
      · assumption
      · exact lt_trans ‹x < a› (ha q hq)
    · split
      · subst x; exact List.pairwise_cons.2 ⟨ha, hm⟩
      · refine List.pairwise_cons.2 ⟨fun q hq => ?_, ih hm⟩
        rcases Memory.mem_write hq with rfl | hq
        · simp only; omega
        · exact ha q hq

/-- An address reads as a value exactly when it is listed. -/
theorem Memory.read_isSome_iff (m : Memory) (x : Nat) : (m.read x).isSome = true ↔ x ∈ m.map Prod.fst := by
  induction m with
  | nil => simp
  | cons p m ih =>
    obtain ⟨a, b⟩ := p
    simp only [Memory.read, List.map_cons, List.mem_cons]
    split
    · simp [*]
    · simp [*]

/-- A memory that lists the addresses 0 to n - 1 in order is canonical. -/
theorem Memory.wf_of_range {m : Memory} {n : Nat} (h : m.map Prod.fst = List.range n) : m.wf := by
  have := List.pairwise_lt_range (n := n)
  rw [← h, List.pairwise_map] at this
  exact this

/-- A memory that lists the addresses below `DEST_POS` in order is filled. -/
theorem outFilled_of_range {s : State} (h : s.out.map Prod.fst = List.range s.destPos) : outFilled s := by
  intro a
  rw [Memory.read_isSome_iff, h, List.mem_range]

theorem Memory.nil_wf : Memory.wf [] := List.Pairwise.nil

/-- The memory of the reset state is canonical. -/
theorem State.reset_mem_wf : Memory.wf State.reset.out := List.Pairwise.nil

theorem Memory.read_none_of_lt {m : Memory} {x : Nat} (h : ∀ p ∈ m, x < p.1) : m.read x = none := by
  induction m with
  | nil => rfl
  | cons p m ih =>
    obtain ⟨a, b⟩ := p
    have : x < a := h (a, b) (by simp)
    simp only [Memory.read]
    rw [if_neg (by omega)]
    exact ih fun q hq => h q (List.mem_cons_of_mem _ hq)

/-- Two canonical memories that read alike are equal data. -/
theorem Memory.ext_of_wf {m n : Memory} (hm : m.wf) (hn : n.wf) (h : ∀ x, m.read x = n.read x) : m = n := by
  induction m generalizing n with
  | nil =>
    cases n with
    | nil => rfl
    | cons q n => obtain ⟨a, b⟩ := q; simpa [Memory.read] using h a
  | cons p m ih =>
    obtain ⟨a, b⟩ := p
    cases n with
    | nil => simpa [Memory.read] using h a
    | cons q n =>
      obtain ⟨c, d⟩ := q
      obtain ⟨ha, hm'⟩ := List.pairwise_cons.1 hm
      obtain ⟨hc, hn'⟩ := List.pairwise_cons.1 hn
      have hac : a = c := by
        by_contra hne
        rcases Nat.lt_or_gt_of_ne hne with hlt | hlt
        · have := h a
          have h1 : Memory.read ((c, d) :: n) a = none := by
            apply Memory.read_none_of_lt
            intro q hq
            rcases List.mem_cons.1 hq with rfl | hq
            · exact hlt
            · exact lt_trans hlt (hc q hq)
          rw [h1] at this
          simp [Memory.read] at this
        · have := h c
          have h1 : Memory.read ((a, b) :: m) c = none := by
            apply Memory.read_none_of_lt
            intro q hq
            rcases List.mem_cons.1 hq with rfl | hq
            · exact hlt
            · exact lt_trans hlt (ha q hq)
          rw [h1] at this
          simp [Memory.read] at this
      subst hac
      have hbd : b = d := by simpa [Memory.read] using h a
      subst hbd
      congr 1
      refine ih hm' hn' fun x => ?_
      by_cases hx : x = a
      · subst hx
        rw [Memory.read_none_of_lt ha, Memory.read_none_of_lt hc]
      · simpa [Memory.read, hx] using h x

end Sys2Proof.Machine
end

