-- ==== Sys2Proof/Laws/State.lean ====
section
/-! SUPPORT. One lemma per field and named update of the state: what the field holds after it. A field that
State.raised leaves to a free value has no lemma. -/

namespace Sys2Proof.Machine

/-! ### State.appendByte -/

@[simp] theorem State.appendByte_cfg (b : Byte) (s : State) : (s.appendByte b).cfg = s.cfg := rfl
@[simp] theorem State.appendByte_input (b : Byte) (s : State) : (s.appendByte b).input = s.input := rfl
@[simp] theorem State.appendByte_cap (b : Byte) (s : State) : (s.appendByte b).cap = s.cap := rfl
@[simp] theorem State.appendByte_entry (b : Byte) (s : State) : (s.appendByte b).entry = s.entry := rfl
@[simp] theorem State.appendByte_p8OutCap (b : Byte) (s : State) : (s.appendByte b).p8OutCap = s.p8OutCap := rfl
@[simp] theorem State.appendByte_cur (b : Byte) (s : State) : (s.appendByte b).cur = s.cur := rfl
@[simp] theorem State.appendByte_lit (b : Byte) (s : State) : (s.appendByte b).lit = s.lit := rfl
@[simp] theorem State.appendByte_lpos (b : Byte) (s : State) : (s.appendByte b).lpos = s.lpos := rfl
@[simp] theorem State.appendByte_rawLen (b : Byte) (s : State) : (s.appendByte b).rawLen = s.rawLen := rfl
@[simp] theorem State.appendByte_compLen (b : Byte) (s : State) : (s.appendByte b).compLen = s.compLen := rfl
@[simp] theorem State.appendByte_maxLen (b : Byte) (s : State) : (s.appendByte b).maxLen = s.maxLen := rfl
@[simp] theorem State.appendByte_destPos (b : Byte) (s : State) : (s.appendByte b).destPos = s.destPos + 1 := rfl
@[simp] theorem State.appendByte_format (b : Byte) (s : State) : (s.appendByte b).format = s.format := rfl
@[simp] theorem State.appendByte_status (b : Byte) (s : State) : (s.appendByte b).status = s.status := rfl
@[simp] theorem State.appendByte_err (b : Byte) (s : State) : (s.appendByte b).err = s.err := rfl
@[simp] theorem State.appendByte_out (b : Byte) (s : State) : (s.appendByte b).out = s.out.write s.destPos b := rfl
@[simp] theorem State.appendByte_p8Len (b : Byte) (s : State) : (s.appendByte b).p8Len = s.p8Len := rfl
@[simp] theorem State.appendByte_p8Src (b : Byte) (s : State) : (s.appendByte b).p8Src = s.p8Src := rfl
@[simp] theorem State.appendByte_p8Cap (b : Byte) (s : State) : (s.appendByte b).p8Cap = s.p8Cap := rfl
@[simp] theorem State.appendByte_phase (b : Byte) (s : State) : (s.appendByte b).phase = s.phase := rfl
@[simp] theorem State.appendByte_result (b : Byte) (s : State) : (s.appendByte b).result = s.result := rfl
@[simp] theorem State.appendByte_free (b : Byte) (s : State) : (s.appendByte b).free = s.free := rfl

/-! ### State.setCursor -/

@[simp] theorem State.setCursor_cfg (c : Cursor) (s : State) : (s.setCursor c).cfg = s.cfg := rfl
@[simp] theorem State.setCursor_input (c : Cursor) (s : State) : (s.setCursor c).input = s.input := rfl
@[simp] theorem State.setCursor_cap (c : Cursor) (s : State) : (s.setCursor c).cap = s.cap := rfl
@[simp] theorem State.setCursor_entry (c : Cursor) (s : State) : (s.setCursor c).entry = s.entry := rfl
@[simp] theorem State.setCursor_p8OutCap (c : Cursor) (s : State) : (s.setCursor c).p8OutCap = s.p8OutCap := rfl
@[simp] theorem State.setCursor_cur (c : Cursor) (s : State) : (s.setCursor c).cur = c := rfl
@[simp] theorem State.setCursor_lit (c : Cursor) (s : State) : (s.setCursor c).lit = s.lit := rfl
@[simp] theorem State.setCursor_lpos (c : Cursor) (s : State) : (s.setCursor c).lpos = s.lpos := rfl
@[simp] theorem State.setCursor_rawLen (c : Cursor) (s : State) : (s.setCursor c).rawLen = s.rawLen := rfl
@[simp] theorem State.setCursor_compLen (c : Cursor) (s : State) : (s.setCursor c).compLen = s.compLen := rfl
@[simp] theorem State.setCursor_maxLen (c : Cursor) (s : State) : (s.setCursor c).maxLen = s.maxLen := rfl
@[simp] theorem State.setCursor_destPos (c : Cursor) (s : State) : (s.setCursor c).destPos = s.destPos := rfl
@[simp] theorem State.setCursor_format (c : Cursor) (s : State) : (s.setCursor c).format = s.format := rfl
@[simp] theorem State.setCursor_status (c : Cursor) (s : State) : (s.setCursor c).status = s.status := rfl
@[simp] theorem State.setCursor_err (c : Cursor) (s : State) : (s.setCursor c).err = s.err := rfl
@[simp] theorem State.setCursor_out (c : Cursor) (s : State) : (s.setCursor c).out = s.out := rfl
@[simp] theorem State.setCursor_p8Len (c : Cursor) (s : State) : (s.setCursor c).p8Len = s.p8Len := rfl
@[simp] theorem State.setCursor_p8Src (c : Cursor) (s : State) : (s.setCursor c).p8Src = s.p8Src := rfl
@[simp] theorem State.setCursor_p8Cap (c : Cursor) (s : State) : (s.setCursor c).p8Cap = s.p8Cap := rfl
@[simp] theorem State.setCursor_phase (c : Cursor) (s : State) : (s.setCursor c).phase = s.phase := rfl
@[simp] theorem State.setCursor_result (c : Cursor) (s : State) : (s.setCursor c).result = s.result := rfl
@[simp] theorem State.setCursor_free (c : Cursor) (s : State) : (s.setCursor c).free = s.free := rfl

/-! ### State.setSource -/

@[simp] theorem State.setSource_cfg (src : Nat) (s : State) : (s.setSource src).cfg = s.cfg := rfl
@[simp] theorem State.setSource_input (src : Nat) (s : State) : (s.setSource src).input = s.input := rfl
@[simp] theorem State.setSource_cap (src : Nat) (s : State) : (s.setSource src).cap = s.cap := rfl
@[simp] theorem State.setSource_entry (src : Nat) (s : State) : (s.setSource src).entry = s.entry := rfl
@[simp] theorem State.setSource_p8OutCap (src : Nat) (s : State) : (s.setSource src).p8OutCap = s.p8OutCap := rfl
@[simp] theorem State.setSource_cur (src : Nat) (s : State) : (s.setSource src).cur = s.cur := rfl
@[simp] theorem State.setSource_lit (src : Nat) (s : State) : (s.setSource src).lit = s.lit := rfl
@[simp] theorem State.setSource_lpos (src : Nat) (s : State) : (s.setSource src).lpos = s.lpos := rfl
@[simp] theorem State.setSource_rawLen (src : Nat) (s : State) : (s.setSource src).rawLen = s.rawLen := rfl
@[simp] theorem State.setSource_compLen (src : Nat) (s : State) : (s.setSource src).compLen = s.compLen := rfl
@[simp] theorem State.setSource_maxLen (src : Nat) (s : State) : (s.setSource src).maxLen = s.maxLen := rfl
@[simp] theorem State.setSource_destPos (src : Nat) (s : State) : (s.setSource src).destPos = s.destPos := rfl
@[simp] theorem State.setSource_format (src : Nat) (s : State) : (s.setSource src).format = s.format := rfl
@[simp] theorem State.setSource_status (src : Nat) (s : State) : (s.setSource src).status = s.status := rfl
@[simp] theorem State.setSource_err (src : Nat) (s : State) : (s.setSource src).err = s.err := rfl
@[simp] theorem State.setSource_out (src : Nat) (s : State) : (s.setSource src).out = s.out := rfl
@[simp] theorem State.setSource_p8Len (src : Nat) (s : State) : (s.setSource src).p8Len = s.p8Len := rfl
@[simp] theorem State.setSource_p8Src (src : Nat) (s : State) : (s.setSource src).p8Src = src := rfl
@[simp] theorem State.setSource_p8Cap (src : Nat) (s : State) : (s.setSource src).p8Cap = s.p8Cap := rfl
@[simp] theorem State.setSource_phase (src : Nat) (s : State) : (s.setSource src).phase = s.phase := rfl
@[simp] theorem State.setSource_result (src : Nat) (s : State) : (s.setSource src).result = s.result := rfl
@[simp] theorem State.setSource_free (src : Nat) (s : State) : (s.setSource src).free = s.free := rfl

/-! ### State.moveToFront -/

@[simp] theorem State.moveToFront_cfg (p c : Byte) (s : State) : (s.moveToFront p c).cfg = s.cfg := rfl
@[simp] theorem State.moveToFront_input (p c : Byte) (s : State) : (s.moveToFront p c).input = s.input := rfl
@[simp] theorem State.moveToFront_cap (p c : Byte) (s : State) : (s.moveToFront p c).cap = s.cap := rfl
@[simp] theorem State.moveToFront_entry (p c : Byte) (s : State) : (s.moveToFront p c).entry = s.entry := rfl
@[simp] theorem State.moveToFront_p8OutCap (p c : Byte) (s : State) : (s.moveToFront p c).p8OutCap = s.p8OutCap := rfl
@[simp] theorem State.moveToFront_cur (p c : Byte) (s : State) : (s.moveToFront p c).cur = s.cur := rfl
@[simp] theorem State.moveToFront_lit (p c : Byte) (s : State) : (s.moveToFront p c).lit = (Sys2Proof.Machine.moveToFront p c ⟨s.lit, s.lpos⟩).lit := rfl
@[simp] theorem State.moveToFront_lpos (p c : Byte) (s : State) : (s.moveToFront p c).lpos = (Sys2Proof.Machine.moveToFront p c ⟨s.lit, s.lpos⟩).lpos := rfl
@[simp] theorem State.moveToFront_rawLen (p c : Byte) (s : State) : (s.moveToFront p c).rawLen = s.rawLen := rfl
@[simp] theorem State.moveToFront_compLen (p c : Byte) (s : State) : (s.moveToFront p c).compLen = s.compLen := rfl
@[simp] theorem State.moveToFront_maxLen (p c : Byte) (s : State) : (s.moveToFront p c).maxLen = s.maxLen := rfl
@[simp] theorem State.moveToFront_destPos (p c : Byte) (s : State) : (s.moveToFront p c).destPos = s.destPos := rfl
@[simp] theorem State.moveToFront_format (p c : Byte) (s : State) : (s.moveToFront p c).format = s.format := rfl
@[simp] theorem State.moveToFront_status (p c : Byte) (s : State) : (s.moveToFront p c).status = s.status := rfl
@[simp] theorem State.moveToFront_err (p c : Byte) (s : State) : (s.moveToFront p c).err = s.err := rfl
@[simp] theorem State.moveToFront_out (p c : Byte) (s : State) : (s.moveToFront p c).out = s.out := rfl
@[simp] theorem State.moveToFront_p8Len (p c : Byte) (s : State) : (s.moveToFront p c).p8Len = s.p8Len := rfl
@[simp] theorem State.moveToFront_p8Src (p c : Byte) (s : State) : (s.moveToFront p c).p8Src = s.p8Src := rfl
@[simp] theorem State.moveToFront_p8Cap (p c : Byte) (s : State) : (s.moveToFront p c).p8Cap = s.p8Cap := rfl
@[simp] theorem State.moveToFront_phase (p c : Byte) (s : State) : (s.moveToFront p c).phase = s.phase := rfl
@[simp] theorem State.moveToFront_result (p c : Byte) (s : State) : (s.moveToFront p c).result = s.result := rfl
@[simp] theorem State.moveToFront_free (p c : Byte) (s : State) : (s.moveToFront p c).free = s.free := rfl

/-! ### State.raised -/

@[simp] theorem State.raised_cfg (e : Err) (s : State) : (s.raised e).cfg = s.cfg := rfl
@[simp] theorem State.raised_input (e : Err) (s : State) : (s.raised e).input = s.input := rfl
@[simp] theorem State.raised_cap (e : Err) (s : State) : (s.raised e).cap = s.cap := rfl
@[simp] theorem State.raised_entry (e : Err) (s : State) : (s.raised e).entry = s.entry := rfl
@[simp] theorem State.raised_p8OutCap (e : Err) (s : State) : (s.raised e).p8OutCap = s.p8OutCap := rfl
@[simp] theorem State.raised_status (e : Err) (s : State) : (s.raised e).status = .fault := rfl
@[simp] theorem State.raised_err (e : Err) (s : State) : (s.raised e).err = e := rfl
@[simp] theorem State.raised_out (e : Err) (s : State) : (s.raised e).out = [] := rfl
@[simp] theorem State.raised_phase (e : Err) (s : State) : (s.raised e).phase = s.phase := rfl
@[simp] theorem State.raised_result (e : Err) (s : State) : (s.raised e).result = none := rfl
@[simp] theorem State.raised_free (e : Err) (s : State) : (s.raised e).free = s.free + 1 := rfl

/-! ### State.finished -/

@[simp] theorem State.finished_cfg (n : Nat) (s : State) : (s.finished n).cfg = s.cfg := rfl
@[simp] theorem State.finished_input (n : Nat) (s : State) : (s.finished n).input = s.input := rfl
@[simp] theorem State.finished_cap (n : Nat) (s : State) : (s.finished n).cap = s.cap := rfl
@[simp] theorem State.finished_entry (n : Nat) (s : State) : (s.finished n).entry = s.entry := rfl
@[simp] theorem State.finished_p8OutCap (n : Nat) (s : State) : (s.finished n).p8OutCap = s.p8OutCap := rfl
@[simp] theorem State.finished_cur (n : Nat) (s : State) : (s.finished n).cur = s.cur := rfl
@[simp] theorem State.finished_lit (n : Nat) (s : State) : (s.finished n).lit = s.lit := rfl
@[simp] theorem State.finished_lpos (n : Nat) (s : State) : (s.finished n).lpos = s.lpos := rfl
@[simp] theorem State.finished_rawLen (n : Nat) (s : State) : (s.finished n).rawLen = s.rawLen := rfl
@[simp] theorem State.finished_compLen (n : Nat) (s : State) : (s.finished n).compLen = s.compLen := rfl
@[simp] theorem State.finished_maxLen (n : Nat) (s : State) : (s.finished n).maxLen = s.maxLen := rfl
@[simp] theorem State.finished_destPos (n : Nat) (s : State) : (s.finished n).destPos = s.destPos := rfl
@[simp] theorem State.finished_format (n : Nat) (s : State) : (s.finished n).format = s.format := rfl
@[simp] theorem State.finished_status (n : Nat) (s : State) : (s.finished n).status = .done := rfl
@[simp] theorem State.finished_err (n : Nat) (s : State) : (s.finished n).err = s.err := rfl
@[simp] theorem State.finished_out (n : Nat) (s : State) : (s.finished n).out = s.out := rfl
@[simp] theorem State.finished_p8Len (n : Nat) (s : State) : (s.finished n).p8Len = s.p8Len := rfl
@[simp] theorem State.finished_p8Src (n : Nat) (s : State) : (s.finished n).p8Src = s.p8Src := rfl
@[simp] theorem State.finished_p8Cap (n : Nat) (s : State) : (s.finished n).p8Cap = s.p8Cap := rfl
@[simp] theorem State.finished_phase (n : Nat) (s : State) : (s.finished n).phase = s.phase := rfl
@[simp] theorem State.finished_result (n : Nat) (s : State) : (s.finished n).result = some n := rfl
@[simp] theorem State.finished_free (n : Nat) (s : State) : (s.finished n).free = s.free := rfl

/-! ### State.pxaStarted -/

@[simp] theorem State.pxaStarted_cfg (r k : Half) (s : State) : (s.pxaStarted r k).cfg = s.cfg := rfl
@[simp] theorem State.pxaStarted_input (r k : Half) (s : State) : (s.pxaStarted r k).input = s.input := rfl
@[simp] theorem State.pxaStarted_cap (r k : Half) (s : State) : (s.pxaStarted r k).cap = s.cap := rfl
@[simp] theorem State.pxaStarted_entry (r k : Half) (s : State) : (s.pxaStarted r k).entry = s.entry := rfl
@[simp] theorem State.pxaStarted_p8OutCap (r k : Half) (s : State) : (s.pxaStarted r k).p8OutCap = s.p8OutCap := rfl
@[simp] theorem State.pxaStarted_cur (r k : Half) (s : State) : (s.pxaStarted r k).cur = ⟨headerLen, 1#8⟩ := rfl
@[simp] theorem State.pxaStarted_lit (r k : Half) (s : State) : (s.pxaStarted r k).lit = s.cfg.litInit := rfl
@[simp] theorem State.pxaStarted_lpos (r k : Half) (s : State) : (s.pxaStarted r k).lpos = inverseTable s.cfg.litInit := rfl
@[simp] theorem State.pxaStarted_rawLen (r k : Half) (s : State) : (s.pxaStarted r k).rawLen = r := rfl
@[simp] theorem State.pxaStarted_compLen (r k : Half) (s : State) : (s.pxaStarted r k).compLen = k := rfl
@[simp] theorem State.pxaStarted_maxLen (r k : Half) (s : State) : (s.pxaStarted r k).maxLen = pxaCapacity s.cap r := rfl
@[simp] theorem State.pxaStarted_destPos (r k : Half) (s : State) : (s.pxaStarted r k).destPos = 0 := rfl
@[simp] theorem State.pxaStarted_format (r k : Half) (s : State) : (s.pxaStarted r k).format = s.format := rfl
@[simp] theorem State.pxaStarted_status (r k : Half) (s : State) : (s.pxaStarted r k).status = s.status := rfl
@[simp] theorem State.pxaStarted_err (r k : Half) (s : State) : (s.pxaStarted r k).err = s.err := rfl
@[simp] theorem State.pxaStarted_out (r k : Half) (s : State) : (s.pxaStarted r k).out = [] := rfl
@[simp] theorem State.pxaStarted_p8Len (r k : Half) (s : State) : (s.pxaStarted r k).p8Len = s.p8Len := rfl
@[simp] theorem State.pxaStarted_p8Src (r k : Half) (s : State) : (s.pxaStarted r k).p8Src = s.p8Src := rfl
@[simp] theorem State.pxaStarted_p8Cap (r k : Half) (s : State) : (s.pxaStarted r k).p8Cap = s.p8Cap := rfl
@[simp] theorem State.pxaStarted_phase (r k : Half) (s : State) : (s.pxaStarted r k).phase = .pxaBlocks := rfl
@[simp] theorem State.pxaStarted_result (r k : Half) (s : State) : (s.pxaStarted r k).result = s.result := rfl
@[simp] theorem State.pxaStarted_free (r k : Half) (s : State) : (s.pxaStarted r k).free = s.free := rfl

/-! ### State.p8Started -/

@[simp] theorem State.p8Started_cfg (n : Half) (k : Nat) (s : State) : (s.p8Started n k).cfg = s.cfg := rfl
@[simp] theorem State.p8Started_input (n : Half) (k : Nat) (s : State) : (s.p8Started n k).input = s.input := rfl
@[simp] theorem State.p8Started_cap (n : Half) (k : Nat) (s : State) : (s.p8Started n k).cap = s.cap := rfl
@[simp] theorem State.p8Started_entry (n : Half) (k : Nat) (s : State) : (s.p8Started n k).entry = s.entry := rfl
@[simp] theorem State.p8Started_p8OutCap (n : Half) (k : Nat) (s : State) : (s.p8Started n k).p8OutCap = s.p8OutCap := rfl
@[simp] theorem State.p8Started_cur (n : Half) (k : Nat) (s : State) : (s.p8Started n k).cur = s.cur := rfl
@[simp] theorem State.p8Started_lit (n : Half) (k : Nat) (s : State) : (s.p8Started n k).lit = s.lit := rfl
@[simp] theorem State.p8Started_lpos (n : Half) (k : Nat) (s : State) : (s.p8Started n k).lpos = s.lpos := rfl
@[simp] theorem State.p8Started_rawLen (n : Half) (k : Nat) (s : State) : (s.p8Started n k).rawLen = s.rawLen := rfl
@[simp] theorem State.p8Started_compLen (n : Half) (k : Nat) (s : State) : (s.p8Started n k).compLen = s.compLen := rfl
@[simp] theorem State.p8Started_maxLen (n : Half) (k : Nat) (s : State) : (s.p8Started n k).maxLen = s.maxLen := rfl
@[simp] theorem State.p8Started_destPos (n : Half) (k : Nat) (s : State) : (s.p8Started n k).destPos = 0 := rfl
@[simp] theorem State.p8Started_format (n : Half) (k : Nat) (s : State) : (s.p8Started n k).format = s.format := rfl
@[simp] theorem State.p8Started_status (n : Half) (k : Nat) (s : State) : (s.p8Started n k).status = s.status := rfl
@[simp] theorem State.p8Started_err (n : Half) (k : Nat) (s : State) : (s.p8Started n k).err = s.err := rfl
@[simp] theorem State.p8Started_out (n : Half) (k : Nat) (s : State) : (s.p8Started n k).out = s.out := rfl
@[simp] theorem State.p8Started_p8Len (n : Half) (k : Nat) (s : State) : (s.p8Started n k).p8Len = n := rfl
@[simp] theorem State.p8Started_p8Src (n : Half) (k : Nat) (s : State) : (s.p8Started n k).p8Src = headerLen := rfl
@[simp] theorem State.p8Started_p8Cap (n : Half) (k : Nat) (s : State) : (s.p8Started n k).p8Cap = k := rfl
@[simp] theorem State.p8Started_phase (n : Half) (k : Nat) (s : State) : (s.p8Started n k).phase = .p8Codes := rfl
@[simp] theorem State.p8Started_result (n : Half) (k : Nat) (s : State) : (s.p8Started n k).result = s.result := rfl
@[simp] theorem State.p8Started_free (n : Half) (k : Nat) (s : State) : (s.p8Started n k).free = s.free := rfl

/-! ### State.routed -/

@[simp] theorem State.routed_cfg (f : Format) (p : Phase) (s : State) : (s.routed f p).cfg = s.cfg := rfl
@[simp] theorem State.routed_input (f : Format) (p : Phase) (s : State) : (s.routed f p).input = s.input := rfl
@[simp] theorem State.routed_cap (f : Format) (p : Phase) (s : State) : (s.routed f p).cap = s.cap := rfl
@[simp] theorem State.routed_entry (f : Format) (p : Phase) (s : State) : (s.routed f p).entry = s.entry := rfl
@[simp] theorem State.routed_p8OutCap (f : Format) (p : Phase) (s : State) : (s.routed f p).p8OutCap = s.p8OutCap := rfl
@[simp] theorem State.routed_cur (f : Format) (p : Phase) (s : State) : (s.routed f p).cur = s.cur := rfl
@[simp] theorem State.routed_lit (f : Format) (p : Phase) (s : State) : (s.routed f p).lit = s.lit := rfl
@[simp] theorem State.routed_lpos (f : Format) (p : Phase) (s : State) : (s.routed f p).lpos = s.lpos := rfl
@[simp] theorem State.routed_rawLen (f : Format) (p : Phase) (s : State) : (s.routed f p).rawLen = s.rawLen := rfl
@[simp] theorem State.routed_compLen (f : Format) (p : Phase) (s : State) : (s.routed f p).compLen = s.compLen := rfl
@[simp] theorem State.routed_maxLen (f : Format) (p : Phase) (s : State) : (s.routed f p).maxLen = s.maxLen := rfl
@[simp] theorem State.routed_destPos (f : Format) (p : Phase) (s : State) : (s.routed f p).destPos = s.destPos := rfl
@[simp] theorem State.routed_format (f : Format) (p : Phase) (s : State) : (s.routed f p).format = f := rfl
@[simp] theorem State.routed_status (f : Format) (p : Phase) (s : State) : (s.routed f p).status = s.status := rfl
@[simp] theorem State.routed_err (f : Format) (p : Phase) (s : State) : (s.routed f p).err = s.err := rfl
@[simp] theorem State.routed_out (f : Format) (p : Phase) (s : State) : (s.routed f p).out = s.out := rfl
@[simp] theorem State.routed_p8Len (f : Format) (p : Phase) (s : State) : (s.routed f p).p8Len = s.p8Len := rfl
@[simp] theorem State.routed_p8Src (f : Format) (p : Phase) (s : State) : (s.routed f p).p8Src = s.p8Src := rfl
@[simp] theorem State.routed_p8Cap (f : Format) (p : Phase) (s : State) : (s.routed f p).p8Cap = s.p8Cap := rfl
@[simp] theorem State.routed_phase (f : Format) (p : Phase) (s : State) : (s.routed f p).phase = p := rfl
@[simp] theorem State.routed_result (f : Format) (p : Phase) (s : State) : (s.routed f p).result = s.result := rfl
@[simp] theorem State.routed_free (f : Format) (p : Phase) (s : State) : (s.routed f p).free = s.free := rfl

end Sys2Proof.Machine
end

