-- ==== Sys2Proof/Laws/Ops.lean ====
section
/-! SUPPORT. For each shared operation one lemma that says everything it can do. -/

namespace Sys2Proof.Machine

/-! ### Sequencing -/

@[simp] theorem andThen_next (s : State) (f : State → Outcome) : andThen (.next s) f = f s := rfl
@[simp] theorem andThen_fault (r : Fault) (f : State → Outcome) : andThen (.fault r) f = .fault r := rfl
@[simp] theorem andThen_refused (r : Refusal) (f : State → Outcome) : andThen (.refused r) f = .refused r := rfl

theorem andThen_eq_next {o : Outcome} {f : State → Outcome} {t : State} :
    andThen o f = .next t ↔ ∃ s, o = .next s ∧ f s = .next t := by
  cases o <;> simp

/-! ### One byte of output -/

theorem putByte_next_iff {capacity : Nat} {b : Byte} {s t : State} :
    putByte capacity b s = .next t ↔ s.destPos < capacity ∧ t = s.appendByte b := by
  unfold putByte
  split
  · simp only [Host.Outcome.next.injEq, true_and, *]
    exact eq_comm
  · simp [*]

theorem putByte_of_lt {capacity : Nat} {b : Byte} {s : State} (h : s.destPos < capacity) :
    putByte capacity b s = .next (s.appendByte b) := putByte_next_iff.2 ⟨h, rfl⟩

/-- Below `DEST_POS` every cell holds a value, and no cell above does, after a byte is appended as before. -/
theorem outFilled_appendByte {s : State} (h : outFilled s) (b : Byte) : outFilled (s.appendByte b) := by
  intro a
  simp only [State.appendByte_out, State.appendByte_destPos, Memory.read_write]
  by_cases ha : a = s.destPos
  · simp [ha]
  · rw [if_neg ha, h a]; omega

theorem readOut_eq {s : State} {a : Nat} (h : a < s.destPos) : s.readOut a = s.out.read a := by
  simp [State.readOut, h]

/-! ### What appending leaves alone -/

theorem onlyAppends_refl (s : State) : onlyAppends s s := rfl

theorem onlyAppends_appendByte (b : Byte) (s : State) : onlyAppends s (s.appendByte b) := rfl

theorem onlyAppends_trans {s t u : State} (h : onlyAppends s t) (k : onlyAppends t u) : onlyAppends s u := by
  unfold onlyAppends at *
  rw [k, h]

/-! ### The byte-serial copy -/

/-- A copy that answers has appended its bytes, each read where the copy had come to, and changed nothing else. -/
theorem copyBytes_next {capacity offset len : Nat} {s t : State} (h : copyBytes capacity offset len s = .next t) :
    onlyAppends s t ∧ t.destPos = s.destPos + len ∧ (len = 0 ∨ t.destPos ≤ capacity) ∧
      (∀ a, a < s.destPos ∨ s.destPos + len ≤ a → t.out.read a = s.out.read a) ∧
      (outFilled s → outFilled t) ∧ (s.out.wf → t.out.wf) := by
  induction len generalizing s with
  | zero =>
    simp only [copyBytes, Host.Outcome.next.injEq] at h
    subst h
    exact ⟨onlyAppends_refl s, rfl, .inl rfl, fun _ _ => rfl, id, id⟩
  | succ n ih =>
    unfold copyBytes at h
    split at h
    · simp at h
    · rename_i b _
      obtain ⟨u, hu, hc⟩ := andThen_eq_next.1 h
      obtain ⟨hlt, rfl⟩ := putByte_next_iff.1 hu
      obtain ⟨hf, hd, hcap, hr, hfill, hwf⟩ := ih hc
      simp only [State.appendByte_destPos, State.appendByte_out] at hd hr hwf
      refine ⟨onlyAppends_trans (onlyAppends_appendByte b s) hf, by omega, by omega, ?_,
        fun hs => hfill (outFilled_appendByte hs b), fun hs => hwf (Memory.write_wf hs _ _)⟩
      intro a ha
      rw [hr a (by omega), Memory.read_write_other _ _ (by omega)]

/-- A copy whose offset reaches written cells and whose bytes fit answers a next state. -/
theorem copyBytes_answers {capacity offset len : Nat} {s : State} (hs : outFilled s) (h1 : 1 ≤ offset)
    (h2 : offset ≤ s.destPos) (h3 : s.destPos + len ≤ capacity) : ∃ t, copyBytes capacity offset len s = .next t := by
  induction len generalizing s with
  | zero => exact ⟨s, rfl⟩
  | succ n ih =>
    unfold copyBytes
    obtain ⟨b, hb⟩ := Option.isSome_iff_exists.1 ((hs (s.destPos - offset)).2 (by omega))
    rw [readOut_eq (by omega), hb]
    simp only [putByte_of_lt (show s.destPos < capacity by omega), andThen_next]
    exact ih (outFilled_appendByte hs b) (by simp; omega) (by simp; omega)

/-! ### The RAW run -/

/-- What one turn of a RAW run does: the input ends, the run ends on a zero, or one byte is appended. -/
theorem rawRun_cases {k : Nat} {s t : State} (h : rawRun (k + 1) s = .next t) :
    (∃ e, getBits s.input rawWidth (by decide) s.cur = .error e ∧ t = s.raised (decodeErr e)) ∨
    (∃ c, getBits s.input rawWidth (by decide) s.cur = .ok (0, c) ∧ t = s.setCursor c) ∨
    (∃ v c, getBits s.input rawWidth (by decide) s.cur = .ok (v, c) ∧ v ≠ 0 ∧ s.destPos < s.maxLen.toNat ∧
      rawRun k ((s.setCursor c).appendByte (BitVec.ofNat 8 v)) = .next t) := by
  unfold rawRun at h
  split at h
  · rename_i e he
    simp only [raise, Host.Outcome.next.injEq] at h
    exact .inl ⟨e, he, h.symm⟩
  · rename_i v c hv
    split at h
    · rename_i h0
      subst h0
      simp only [Host.Outcome.next.injEq] at h
      exact .inr (.inl ⟨c, hv, h.symm⟩)
    · obtain ⟨u, hu, hr⟩ := andThen_eq_next.1 h
      obtain ⟨hlt, rfl⟩ := putByte_next_iff.1 hu
      exact .inr (.inr ⟨v, c, hv, ‹_›, hlt, hr⟩)

/-! ### The LIT block -/

/-- A LIT block either overflows or appends the byte of its table position and moves it to the front. -/
theorem literalBlock_cases {e v : Nat} {s t : State} (h : literalBlock e v s = .next t) :
    (255 < literalPosition e v ∧ t = s.raised .literalOverflow) ∨
    (literalPosition e v ≤ 255 ∧ s.destPos < s.maxLen.toNat ∧
      t = (s.appendByte (readTable s.lit (BitVec.ofNat 8 (literalPosition e v)))).moveToFront
        (BitVec.ofNat 8 (literalPosition e v)) (readTable s.lit (BitVec.ofNat 8 (literalPosition e v)))) := by
  simp only [literalBlock, litPosLimit] at h
  split at h
  · simp only [raise, Host.Outcome.next.injEq] at h
    exact .inl ⟨by omega, h.symm⟩
  · unfold emitLiteral at h
    obtain ⟨u, hu, hm⟩ := andThen_eq_next.1 h
    obtain ⟨hlt, rfl⟩ := putByte_next_iff.1 hu
    simp only [Host.Outcome.next.injEq] at hm
    exact .inr ⟨by omega, hlt, hm.symm⟩

/-! ### Back-references -/

/-- A COPY raises InvalidBlock or is the byte-serial copy. -/
theorem copyBlock_cases (offset len : Nat) (s : State) :
    (copyRejected offset len s.maxLen.toNat s.destPos = true ∧ copyBlock offset len s = .next (s.raised .invalidBlock)) ∨
    (copyRejected offset len s.maxLen.toNat s.destPos = false ∧
      copyBlock offset len s = copyBytes s.maxLen.toNat offset len s) := by
  unfold copyBlock
  cases copyRejected offset len s.maxLen.toNat s.destPos <;> simp [raise]

/-- A P8 back-reference raises InvalidBlock or is the byte-serial copy. -/
theorem p8Copy_cases (offset len : Nat) (s : State) :
    (copyRejected offset len s.p8Cap s.destPos = true ∧ p8Copy offset len s = .next (s.raised .invalidBlock)) ∨
    (copyRejected offset len s.p8Cap s.destPos = false ∧ p8Copy offset len s = copyBytes s.p8Cap offset len s) := by
  unfold p8Copy
  cases copyRejected offset len s.p8Cap s.destPos <;> simp [raise]

theorem copyRejected_eq_false {offset len capacity destPos : Nat} :
    copyRejected offset len capacity destPos = false ↔
      1 ≤ offset ∧ offset ≤ destPos ∧ destPos + len ≤ capacity := by
  simp only [copyRejected, decide_eq_false_iff_not]
  omega

/-! ### The end of a loop -/

theorem finishPxa_cases (s : State) :
    (s.destPos = s.maxLen.toNat ∧ finishPxa s = .next (s.finished s.maxLen.toNat)) ∨
    (s.destPos ≠ s.maxLen.toNat ∧ finishPxa s = .next (s.raised .consistencyFailure)) := by
  unfold finishPxa pxaComplete raise
  by_cases h : s.destPos = s.maxLen.toNat <;> simp [h]

theorem stripTrailer_le (cfg : Config) (m : Memory) (n : Nat) : stripTrailer cfg m n ≤ n := by
  unfold stripTrailer
  split
  · omega
  · split <;> omega

end Sys2Proof.Machine
end

