-- ==== Sys2Proof/Laws/PerInstr.lean ====
section
/-! SUPPORT. Statements about every instruction, one lemma per constructor. EncodingWidth: a well-formed instruction
encodes to as many bits as 30_encoding.md R63 to R69 give it. -/

namespace Sys2Proof.Machine

theorem byteBits_length (bs : List Byte) : (byteBits bs).length = 8 * bs.length := by
  unfold byteBits
  induction bs with
  | nil => rfl
  | cons b bs ih =>
    rw [List.flatMap_cons, List.length_append, ih, fieldBits_length, List.length_cons]
    omega

theorem chainBits_length (x : Nat) : (chainBits x).length = chainWidth x := by
  unfold chainBits chainWidth
  rw [List.length_append, List.length_flatten]
  simp only [List.map_replicate, List.length_cons, List.length_nil, List.sum_replicate, smul_eq_mul]
  split
  · rw [fieldBits_length]; omega
  · simp; omega

theorem literalBits_length (e v : Nat) : (literalBits e v).length = 6 + 2 * e := by
  simp [literalBits, fieldBits_length]
  omega

end Sys2Proof.Machine

namespace Sys2Proof.Laws.EncodingWidth

open Sys2Proof.Machine

/-- A well-formed instruction encodes to as many bits as its format has. -/
def Statement (i : Instr) : Prop := i.wf = true → (encode i).length = i.bits

theorem lit0 (v : BitVec 4) : Statement (.lit0 v) := fun _ => literalBits_length _ _
theorem lit1 (v : BitVec 5) : Statement (.lit1 v) := fun _ => literalBits_length _ _
theorem lit2 (v : BitVec 6) : Statement (.lit2 v) := fun _ => literalBits_length _ _
theorem lit3 (v : BitVec 7) : Statement (.lit3 v) := fun _ => literalBits_length _ _
theorem lit4 (v : BitVec 8) : Statement (.lit4 v) := fun _ => literalBits_length _ _
theorem litE5 (v : BitVec 9) : Statement (.litE5 v) := fun _ => literalBits_length _ _
theorem litE6 (v : BitVec 10) : Statement (.litE6 v) := fun _ => literalBits_length _ _
theorem litE7 (v : BitVec 11) : Statement (.litE7 v) := fun _ => literalBits_length _ _
theorem litE8 (v : BitVec 12) : Statement (.litE8 v) := fun _ => literalBits_length _ _
theorem litE9 (v : BitVec 13) : Statement (.litE9 v) := fun _ => literalBits_length _ _
theorem litE10 (v : BitVec 14) : Statement (.litE10 v) := fun _ => literalBits_length _ _
theorem litE11 (v : BitVec 15) : Statement (.litE11 v) := fun _ => literalBits_length _ _
theorem litE12 : Statement (.litE12) := fun _ => rfl
theorem litE13 : Statement (.litE13) := fun _ => rfl
theorem litE14 : Statement (.litE14) := fun _ => rfl
theorem litE15 : Statement (.litE15) := fun _ => rfl
theorem litE16 : Statement (.litE16) := fun _ => rfl
theorem copy15 (n : BitVec 15) (chain : Nat) : Statement (.copy15 n chain) := fun _ => by
  simp [encode, Instr.bits, fieldBits_length, chainBits_length]
  try omega
theorem copy10 (n : BitVec 10) (chain : Nat) : Statement (.copy10 n chain) := fun _ => by
  simp [encode, Instr.bits, fieldBits_length, chainBits_length]
  try omega
theorem copy5 (n : BitVec 5) (chain : Nat) : Statement (.copy5 n chain) := fun _ => by
  simp [encode, Instr.bits, fieldBits_length, chainBits_length]
  try omega
theorem raw : Statement (.raw) := fun _ => rfl
theorem p8Esc (b : Byte) : Statement (.p8Esc b) := fun _ => byteBits_length _
theorem p8Sym (val : Byte) : Statement (.p8Sym val) := fun _ => byteBits_length _
theorem p8Back (val val2 : Byte) : Statement (.p8Back val val2) := fun _ => byteBits_length _
theorem hdrPxa (rawLen compLen : Half) : Statement (.hdrPxa rawLen compLen) := fun _ => byteBits_length _
theorem hdrP8 (len : Half) : Statement (.hdrP8 len) := fun _ => byteBits_length _
theorem sniffPxa (b0 b1 b2 b3 : Byte) : Statement (.sniffPxa b0 b1 b2 b3) := fun _ => byteBits_length _
theorem sniffP8 : Statement (.sniffP8) := fun _ => byteBits_length _
theorem sniffLegacy (b0 b1 b2 b3 : Byte) : Statement (.sniffLegacy b0 b1 b2 b3) := fun _ => byteBits_length _

end Sys2Proof.Laws.EncodingWidth
end

