-- ==== Sys2Proof/Laws/Step.lean ====
section
/-! SUPPORT. What one step can do, said once: the fetch of each phase, and the inversion of a step that answers. -/

namespace Sys2Proof.Machine

theorem step_of_run {s t : State} {i : Instr} (h : fetch s = .run i t) : step s = exec i t := by
  simp [step, h]

theorem step_of_ended {s : State} {o : Outcome} (h : fetch s = .ended o) : step s = o := by
  simp [step, h]

theorem fetch_running {s : State} (h : s.status = .running) : fetch s = fetchRunning s := by
  simp [fetch, h]

/-- A call that is not running has no next state (60_exceptions.md R198, R201). -/
theorem step_not_running {s : State} (h : s.status ≠ .running) : step s = .fault .noCallRunning := by
  unfold step fetch
  cases hs : s.status <;> simp_all

/-- Only a running call steps. -/
theorem running_of_step_next {s t : State} (h : step s = .next t) : s.status = .running := by
  by_contra hs
  rw [step_not_running hs] at h
  cases h

/-- Reading by index (a header, the Dispatcher's bytes): the decoder's rejection is raised, or the instruction runs. -/
theorem step_byIndex {s : State} {d : Except DecodeError Instr} (hf : fetch s = fetchByIndex d s) :
    (∃ e, d = .error e ∧ step s = .next (s.raised (decodeErr e))) ∨ (∃ i, d = .ok i ∧ step s = exec i s) := by
  cases d with
  | error e => exact .inl ⟨e, rfl, step_of_ended hf⟩
  | ok i => exact .inr ⟨i, rfl, step_of_run hf⟩

/-- The PXA loop: its end, a rejection, or a block that runs with the cursor past its fields. -/
theorem step_block {s : State} (hs : s.status = .running) (hp : s.phase = .pxaBlocks) :
    (moreBlocks s = false ∧ step s = finishPxa s) ∨
    (moreBlocks s = true ∧ ∃ e, decodeBlock s.input s.cur = .error e ∧ step s = .next (s.raised (decodeErr e))) ∨
    (moreBlocks s = true ∧ ∃ i c, decodeBlock s.input s.cur = .ok (i, c) ∧ step s = exec i (s.setCursor c)) := by
  have hf : fetch s = fetchBlock s := by rw [fetch_running hs]; simp [fetchRunning, hp]
  unfold fetchBlock at hf
  cases hm : moreBlocks s with
  | false => rw [hm] at hf; exact .inl ⟨rfl, step_of_ended hf⟩
  | true =>
    rw [hm] at hf
    cases hd : decodeBlock s.input s.cur with
    | error e => rw [hd] at hf; exact .inr (.inl ⟨rfl, e, rfl, step_of_ended hf⟩)
    | ok p => obtain ⟨i, c⟩ := p; rw [hd] at hf; exact .inr (.inr ⟨rfl, i, c, rfl, step_of_run hf⟩)

/-- The P8 loop: its end, a rejection, or a code that runs with `P8_SRC` past it. -/
theorem step_code {s : State} (hs : s.status = .running) (hp : s.phase = .p8Codes) :
    (moreCodes s = false ∧ step s = finishP8 s) ∨
    (moreCodes s = true ∧ ∃ e, decodeCode s.input s.p8Src = .error e ∧ step s = .next (s.raised (decodeErr e))) ∨
    (moreCodes s = true ∧ ∃ i n, decodeCode s.input s.p8Src = .ok (i, n) ∧ step s = exec i (s.setSource n)) := by
  have hf : fetch s = fetchCode s := by rw [fetch_running hs]; simp [fetchRunning, hp]
  unfold fetchCode at hf
  cases hm : moreCodes s with
  | false => rw [hm] at hf; exact .inl ⟨rfl, step_of_ended hf⟩
  | true =>
    rw [hm] at hf
    cases hd : decodeCode s.input s.p8Src with
    | error e => rw [hd] at hf; exact .inr (.inl ⟨rfl, e, rfl, step_of_ended hf⟩)
    | ok p => obtain ⟨i, n⟩ := p; rw [hd] at hf; exact .inr (.inr ⟨rfl, i, n, rfl, step_of_run hf⟩)

theorem step_sniff {s : State} (hs : s.status = .running) (hp : s.phase = .sniff) :
    (∃ e, decodeSniff s.input = .error e ∧ step s = .next (s.raised (decodeErr e))) ∨
    (∃ i, decodeSniff s.input = .ok i ∧ step s = exec i s) :=
  step_byIndex (by rw [fetch_running hs]; simp [fetchRunning, hp])

theorem step_pxaHeader {s : State} (hs : s.status = .running) (hp : s.phase = .pxaHeader) :
    (∃ e, decodePxaHeader s.input = .error e ∧ step s = .next (s.raised (decodeErr e))) ∨
    (∃ i, decodePxaHeader s.input = .ok i ∧ step s = exec i s) :=
  step_byIndex (by rw [fetch_running hs]; simp [fetchRunning, hp])

theorem step_p8Header {s : State} (hs : s.status = .running) (hp : s.phase = .p8Header) :
    (∃ e, decodeP8Header s.input = .error e ∧ step s = .next (s.raised (decodeErr e))) ∨
    (∃ i, decodeP8Header s.input = .ok i ∧ step s = exec i s) :=
  step_byIndex (by rw [fetch_running hs]; simp [fetchRunning, hp])

/-- The constructors a block can decode to. -/
theorem decodeBlock_phase {inp : List Byte} {c c' : Cursor} {i : Instr} (h : decodeBlock inp c = .ok (i, c')) :
    i.phase = .pxaBlocks := by
  have lit : ∀ {e : Nat} {he : litBaseWidth + e ≤ getBitsMax} {d : Cursor} {mk : Nat → Instr},
      literalField inp e he d mk = .ok (i, c') → ∃ v, i = mk v := by
    intro e he d mk hl
    obtain ⟨⟨v, d'⟩, _, hv⟩ := bind_eq_ok.1 hl
    simp only [Except.ok.injEq, Prod.mk.injEq] at hv
    exact ⟨v, hv.1.symm⟩
  obtain ⟨⟨m, c1⟩, _, h⟩ := bind_eq_ok.1 h
  cases m with
  | true =>
    obtain ⟨⟨e, c2⟩, _, h⟩ := bind_eq_ok.1 h
    dsimp only at h
    split at h
    all_goals first
      | (obtain ⟨v, rfl⟩ := lit h; rfl)
      | (simp only [Except.ok.injEq, Prod.mk.injEq] at h; obtain ⟨rfl, _⟩ := h; rfl)
  | false =>
    obtain ⟨⟨sel, v, c2⟩, _, h⟩ := bind_eq_ok.1 h
    dsimp only at h
    split at h
    · simp only [Except.ok.injEq, Prod.mk.injEq] at h; obtain ⟨rfl, _⟩ := h; rfl
    · obtain ⟨⟨x, c3⟩, _, h⟩ := bind_eq_ok.1 h
      simp only [Except.ok.injEq, Prod.mk.injEq] at h
      obtain ⟨rfl, _⟩ := h
      unfold copyInstr
      split <;> rfl

end Sys2Proof.Machine
end

