-- ==== Sys2Proof/Tests/Slice0.lean ====
section
/-! SUPPORT. Tests. Expected results come from 95_test_vectors.md (the vector is named) or by hand from the formats of
30_encoding.md; then a witness for the hypotheses of every statement of Obligations.lean. -/

namespace Sys2Proof.Tests

open Sys2Proof Sys2Proof.Machine

-- One theorem after the other: many kernel evaluations at once would ask for a stack each.
set_option Elab.async false

/-! ### Helpers -/

/-- A value of the next state, none where the machine stops. -/
def after {α : Type} (o : Outcome) (f : State → α) : Option α :=
  match o with
  | .next s => some (f s)
  | .fault _ | .refused _ => none

theorem exists_next_of_after {α : Type} {o : Outcome} {f : State → α} {a : α} (h : after o f = some a) :
    ∃ t, o = .next t ∧ f t = a := by
  cases o with
  | next s => exact ⟨s, rfl, by simpa [after] using h⟩
  | fault r => simp [after] at h
  | refused r => simp [after] at h

def pxaHeaderBytes : List Byte := [0x00#8, 0x70#8, 0x78#8, 0x61#8]

/-- A PXA call after its header: the body, the capacity, what has been written. -/
def blockState (body : List Byte) (maxLen : Half) (out : Memory) : State :=
  { State.start defaultConfig (pxaHeaderBytes ++ [0#8, 0#8, 0#8, 0#8] ++ body) none .pxa 0 with
    phase := .pxaBlocks
    cur := ⟨8, 1#8⟩
    rawLen := maxLen
    maxLen := maxLen
    compLen := 0xFFFF#16
    out := out
    destPos := out.length }

/-- A P8 call after its header. -/
def codeState (codes : List Byte) (len : Half) (capacity : Nat) (out : Memory) : State :=
  { State.start defaultConfig ([0x3A#8, 0x63#8, 0x3A#8, 0x00#8, 0#8, 0#8, 0#8, 0#8] ++ codes) none .p8 capacity with
    phase := .p8Codes
    p8Len := len
    p8Cap := capacity
    p8Src := 8
    out := out
    destPos := out.length }

/-- The start of a call of the given entry point. -/
def callState (entry : Entry) (input : List Byte) : State := State.start defaultConfig input none entry 16

/-! ### Well-formedness refuses an ill-formed term, one per check -/

theorem test_wf_refuses_sentinel_offset : (Instr.copy10 0#10 0).wf = false := by decide
theorem test_wf_refuses_long_chain15 : (Instr.copy15 0#15 233339).wf = false := by decide
theorem test_wf_refuses_long_chain10 : (Instr.copy10 1#10 233339).wf = false := by decide
theorem test_wf_refuses_long_chain5 : (Instr.copy5 0#5 233339).wf = false := by decide
theorem test_wf_refuses_sym_zero : (Instr.p8Sym 0#8).wf = false := by decide
theorem test_wf_refuses_sym_sixty : (Instr.p8Sym 60#8).wf = false := by decide
theorem test_wf_refuses_back_below_sixty : (Instr.p8Back 59#8 0#8).wf = false := by decide
theorem test_wf_refuses_sniff_without_match : (Instr.sniffPxa 0x3A#8 0x63#8 0x3A#8 0x00#8).wf = false := by decide
theorem test_wf_refuses_legacy_with_pxa_match : (Instr.sniffLegacy 0x2D#8 0x70#8 0x20#8 0x68#8).wf = false := by decide
theorem test_wf_refuses_legacy_with_p8_magic : (Instr.sniffLegacy 0x3A#8 0x63#8 0x3A#8 0x00#8).wf = false := by decide
theorem test_wf_accepts_bounds : (Instr.copy10 1#10 233338).wf = true ∧ (Instr.p8Sym 59#8).wf = true := by decide

/-! ### Decoding: a word written out from its format, one per constructor -/

/-- V50 `1 0 0000` and V51 `1 0 1111`. -/
theorem test_decode_lit0 : decodeBlock [0x3D#8] ⟨0, 1#8⟩ = .ok (.lit0 15#4, ⟨0, 64#8⟩) := by decide +kernel
/-- V53 `1 10 11111`. -/
theorem test_decode_lit1 : decodeBlock [0xFB#8] ⟨0, 1#8⟩ = .ok (.lit1 31#5, ⟨1, 1#8⟩) := by decide +kernel
/-- V55 `1 110 111111`; P2 `1 110 100011`. -/
theorem test_decode_lit2 : decodeBlock [0x17#8, 0x9F#8] ⟨0, 1#8⟩ = .ok (.lit2 49#6, ⟨1, 4#8⟩) := by decide +kernel
/-- V57 `1 1110 1111111`. -/
theorem test_decode_lit3 : decodeBlock [0xEF#8, 0x0F#8] ⟨0, 1#8⟩ = .ok (.lit3 127#7, ⟨1, 16#8⟩) := by decide +kernel
/-- E6 `1 11110 00001000`. -/
theorem test_decode_lit4 : decodeBlock [0x1F#8, 0x04#8] ⟨0, 1#8⟩ = .ok (.lit4 16#8, ⟨1, 64#8⟩) := by decide +kernel
/-- `1 111110 100000001`. -/
theorem test_decode_litE5 : decodeBlock [0xBF#8, 0x80#8] ⟨0, 1#8⟩ = .ok (.litE5 257#9, ⟨2, 1#8⟩) := by decide +kernel
/-- `1 1111110 1000000001`. -/
theorem test_decode_litE6 : decodeBlock [0x7F#8, 0x01#8, 0x02#8] ⟨0, 1#8⟩ = .ok (.litE6 513#10, ⟨2, 4#8⟩) := by
  decide +kernel
/-- `1 11111110 10000000001`. -/
theorem test_decode_litE7 : decodeBlock [0xFF#8, 0x02#8, 0x08#8] ⟨0, 1#8⟩ = .ok (.litE7 1025#11, ⟨2, 16#8⟩) := by
  decide +kernel
/-- `1 111111110 100000000001`. -/
theorem test_decode_litE8 : decodeBlock [0xFF#8, 0x05#8, 0x20#8] ⟨0, 1#8⟩ = .ok (.litE8 2049#12, ⟨2, 64#8⟩) := by
  decide +kernel
/-- `1 1111111110 1000000000001`. -/
theorem test_decode_litE9 : decodeBlock [0xFF#8, 0x0B#8, 0x80#8] ⟨0, 1#8⟩ = .ok (.litE9 4097#13, ⟨3, 1#8⟩) := by
  decide +kernel
/-- `1 11111111110 10000000000001`. -/
theorem test_decode_litE10 : decodeBlock [0xFF#8, 0x17#8, 0x00#8, 0x02#8] ⟨0, 1#8⟩ = .ok (.litE10 8193#14, ⟨3, 4#8⟩) := by
  decide +kernel
/-- E8c `1 111111111110` and a field of 15 zeros. -/
theorem test_decode_litE11 : decodeBlock [0xFF#8, 0x0F#8, 0x00#8, 0x00#8] ⟨0, 1#8⟩ = .ok (.litE11 0#15, ⟨3, 16#8⟩) := by
  decide +kernel
/-- E8d: the input ends inside the 15-bit field. -/
theorem test_decode_litE11_truncated : decodeBlock [0xFF#8, 0x0F#8, 0x00#8] ⟨0, 1#8⟩ = .error .endOfInput := by
  decide +kernel
/-- E8b `1 1111111111110`: no field is read. -/
theorem test_decode_litE12 : decodeBlock [0xFF#8, 0x1F#8] ⟨0, 1#8⟩ = .ok (.litE12, ⟨1, 64#8⟩) := by decide +kernel
theorem test_decode_litE13 : decodeBlock [0xFF#8, 0x3F#8] ⟨0, 1#8⟩ = .ok (.litE13, ⟨1, 128#8⟩) := by decide +kernel
theorem test_decode_litE14 : decodeBlock [0xFF#8, 0x7F#8] ⟨0, 1#8⟩ = .ok (.litE14, ⟨2, 1#8⟩) := by decide +kernel
theorem test_decode_litE15 : decodeBlock [0xFF#8, 0xFF#8, 0x00#8] ⟨0, 1#8⟩ = .ok (.litE15, ⟨2, 2#8⟩) := by decide +kernel
/-- E8: a marker and 16 ones, 17 bits. -/
theorem test_decode_litE16 : decodeBlock [0xFF#8, 0xFF#8, 0xFF#8] ⟨0, 1#8⟩ = .ok (.litE16, ⟨2, 2#8⟩) := by decide +kernel
/-- `0 0 100000000010000 100` (P5's last block): n = 1025, chain 1. -/
theorem test_decode_copy15 :
    decodeBlock [0x04#8, 0x10#8, 0x02#8] ⟨0, 1#8⟩ = .ok (.copy15 1025#15 1, ⟨2, 16#8⟩) := by decide +kernel
/-- P4 `0 10 1000010000 000`: n = 33, chain 0. -/
theorem test_decode_copy10 : decodeBlock [0x0A#8, 0x01#8] ⟨0, 1#8⟩ = .ok (.copy10 33#10 0, ⟨2, 1#8⟩) := by decide +kernel
/-- P2 `0 11 10000 110`: n = 1, chain 3. -/
theorem test_decode_copy5 : decodeBlock [0x0E#8, 0x03#8] ⟨0, 1#8⟩ = .ok (.copy5 1#5 3, ⟨1, 8#8⟩) := by decide +kernel
/-- V80 `0 10 0000000000`. -/
theorem test_decode_raw : decodeBlock [0x02#8, 0x00#8, 0x29#8] ⟨0, 1#8⟩ = .ok (.raw, ⟨1, 32#8⟩) := by decide +kernel
/-- A2 `00 41`. -/
theorem test_decode_p8Esc : decodeCode [0x00#8, 0x41#8] 0 = .ok (.p8Esc 0x41#8, 2) := by decide +kernel
/-- The last symbol code, 59, and the first back-reference code, 60. -/
theorem test_decode_p8Sym : decodeCode [0x3B#8] 0 = .ok (.p8Sym 59#8, 1) := by decide +kernel
/-- A3 `3C 22`. -/
theorem test_decode_p8Back : decodeCode [0x3C#8, 0x22#8] 0 = .ok (.p8Back 60#8 0x22#8, 2) := by decide +kernel
/-- P1's header. -/
theorem test_decode_hdrPxa :
    decodePxaHeader (pxaHeaderBytes ++ [0x01#8, 0x03#8, 0x00#8, 0x0B#8]) = .ok (.hdrPxa 259#16 11#16) := by decide +kernel
/-- E3: a magic that is not exact. -/
theorem test_decode_hdrPxa_bad_magic :
    decodePxaHeader [0x00#8, 0x70#8, 0x78#8, 0x62#8, 0x00#8, 0x03#8, 0x00#8, 0x0B#8] = .error .badMagic := by decide +kernel
/-- The P8 decoder skips its magic (46_p8_decoder.md R171). -/
theorem test_decode_hdrP8 :
    decodeP8Header [0xFF#8, 0xFF#8, 0xFF#8, 0xFF#8, 0x01#8, 0x2C#8, 0xAA#8, 0xBB#8] = .ok (.hdrP8 300#16) := by
  decide +kernel
/-- X5: one matching position. -/
theorem test_decode_sniffPxa :
    decodeSniff [0x3A#8, 0x63#8, 0x78#8, 0x00#8] = .ok (.sniffPxa 0x3A#8 0x63#8 0x78#8 0x00#8) := by decide +kernel
/-- X7. -/
theorem test_decode_sniffP8 : decodeSniff [0x3A#8, 0x63#8, 0x3A#8, 0x00#8] = .ok .sniffP8 := by decide +kernel
/-- X9. -/
theorem test_decode_sniffLegacy :
    decodeSniff [0x3A#8, 0x63#8, 0x3A#8, 0x01#8] = .ok (.sniffLegacy 0x3A#8 0x63#8 0x3A#8 0x01#8) := by decide +kernel

/-! ### The bit reader and the chains -/

/-- V2, V3: `get_bits(8)` across a byte boundary. -/
theorem test_getBits_crosses :
    getBits [0xA5#8, 0x3C#8] 8 (by decide) ⟨0, 16#8⟩ = .ok (0xCA, ⟨1, 16#8⟩) := by decide +kernel
/-- V27: 4 * 7 + 2. -/
theorem test_length_chain : getLengthChain [0xFF#8, 0x2F#8] ⟨0, 1#8⟩ = .ok (30, ⟨1, 128#8⟩) := by decide +kernel
/-- V29: the third group is incomplete. -/
theorem test_length_chain_truncated : getLengthChain [0x3F#8] ⟨0, 1#8⟩ = .error .endOfInput := by decide +kernel
/-- V36, V37: the budget is tested after a whole group. -/
theorem test_chain_budget :
    getChain [0xFF#8, 0x01#8] 3 6 (by decide) ⟨0, 1#8⟩ = .ok (14, ⟨0, 64#8⟩) ∧
    getChain [0xFF#8, 0x01#8] 3 7 (by decide) ⟨0, 1#8⟩ = .ok (21, ⟨1, 2#8⟩) := by decide +kernel
/-- V40, V43, V46: zero in the three widths. -/
theorem test_getNum_zero :
    getNum [0x00#8, 0x00#8] ⟨0, 1#8⟩ = .ok (some 0, ⟨2, 1#8⟩) ∧
    getNum [0x01#8, 0x00#8] ⟨0, 1#8⟩ = .ok (none, ⟨1, 16#8⟩) ∧
    getNum [0x03#8] ⟨0, 1#8⟩ = .ok (some 0, ⟨0, 128#8⟩) := by decide +kernel

/-! ### One step per instruction -/

/-- What a block test looks at: the cursor, `DEST_POS`, `OUT`, and the front of the table. -/
def view (t : State) : Cursor × Nat × Memory × Byte := (t.cur, t.destPos, t.out, readTable t.lit 0#8)

/-- What a fault leaves to look at. -/
def kind (t : State) : Status × Err × Option Nat := (t.status, t.err, t.result)

/-- V51. -/
theorem test_step_lit0 :
    after (step (blockState [0x3D#8] 1#16 [])) view = some (⟨8, 64#8⟩, 1, [(0, 0x0F#8)], 0x0F#8) := by decide +kernel
/-- V53. -/
theorem test_step_lit1 :
    after (step (blockState [0xFB#8] 1#16 [])) view = some (⟨9, 1#8⟩, 1, [(0, 0x2F#8)], 0x2F#8) := by decide +kernel
/-- V54, and the entry that moved to the end of the shifted range with its counter (V60's shape). -/
theorem test_step_lit2 :
    after (step (blockState [0x07#8, 0x00#8] 1#16 []))
      (fun t => (t.destPos, readTable t.lit 48#8, readTable t.lit 49#8, readTable t.lpos 47#8, readTable t.lpos 48#8)) =
      some (1, 0x2F#8, 0x31#8, 0x30#8, 0#8) := by decide +kernel
/-- V57. -/
theorem test_step_lit3 :
    after (step (blockState [0xEF#8, 0x0F#8] 1#16 [])) view = some (⟨9, 16#8⟩, 1, [(0, 0xEF#8)], 0xEF#8) := by decide +kernel
/-- V59. -/
theorem test_step_lit4 :
    after (step (blockState [0xDF#8, 0x03#8] 1#16 [])) view = some (⟨9, 64#8⟩, 1, [(0, 0xFF#8)], 0xFF#8) := by decide +kernel
/-- E6. -/
theorem test_step_lit4_overflow :
    after (step (blockState [0x1F#8, 0x04#8] 1#16 [])) kind = some (.fault, .literalOverflow, none) := by decide +kernel
/-- E7. -/
theorem test_step_litE5 :
    after (step (blockState [0x3F#8, 0x00#8] 1#16 [])) kind = some (.fault, .literalOverflow, none) := by decide +kernel
theorem test_exec_litE6 :
    after (exec (.litE6 0#10) (blockState [] 1#16 [])) kind = some (.fault, .literalOverflow, none) := by decide +kernel
theorem test_exec_litE7 :
    after (exec (.litE7 0#11) (blockState [] 1#16 [])) kind = some (.fault, .literalOverflow, none) := by decide +kernel
theorem test_exec_litE8 :
    after (exec (.litE8 0#12) (blockState [] 1#16 [])) kind = some (.fault, .literalOverflow, none) := by decide +kernel
theorem test_exec_litE9 :
    after (exec (.litE9 0#13) (blockState [] 1#16 [])) kind = some (.fault, .literalOverflow, none) := by decide +kernel
theorem test_exec_litE10 :
    after (exec (.litE10 0#14) (blockState [] 1#16 [])) kind = some (.fault, .literalOverflow, none) := by decide +kernel
/-- E8d: EndOfInput comes before LiteralOverflow when the field is truncated. -/
theorem test_step_litE11_truncated :
    after (step (blockState [0xFF#8, 0x0F#8, 0x00#8] 1#16 [])) kind = some (.fault, .endOfInput, none) := by decide +kernel
/-- E8c. -/
theorem test_step_litE11 :
    after (step (blockState [0xFF#8, 0x0F#8, 0x00#8, 0x00#8] 1#16 [])) kind =
      some (.fault, .literalOverflow, none) := by decide +kernel
/-- E8b with no bit left after the prefix: the field is not read (decision D7). -/
theorem test_step_litE12 :
    after (step (blockState [0xFF#8, 0x1F#8] 1#16 [])) kind = some (.fault, .literalOverflow, none) := by decide +kernel
theorem test_exec_litE13 : after (exec .litE13 (blockState [] 1#16 [])) kind = some (.fault, .literalOverflow, none) := by
  decide +kernel
theorem test_exec_litE14 : after (exec .litE14 (blockState [] 1#16 [])) kind = some (.fault, .literalOverflow, none) := by
  decide +kernel
theorem test_exec_litE15 : after (exec .litE15 (blockState [] 1#16 [])) kind = some (.fault, .literalOverflow, none) := by
  decide +kernel
/-- E8. -/
theorem test_step_litE16 :
    after (step (blockState [0xFF#8, 0xFF#8, 0xFF#8] 1#16 [])) kind = some (.fault, .literalOverflow, none) := by
  decide +kernel
/-- V71's second block: offset 1 in the 15-bit form. -/
theorem test_exec_copy15 :
    after (exec (.copy15 0#15 0) (blockState [] 4#16 [(0, 0x61#8)])) (fun t => t.out) =
      some [(0, 0x61#8), (1, 0x61#8), (2, 0x61#8), (3, 0x61#8)] := by decide +kernel
/-- V72's third block: offset 2, length 3. -/
theorem test_exec_copy10 :
    after (exec (.copy10 1#10 0) (blockState [] 5#16 [(0, 0x61#8), (1, 0x62#8)])) (fun t => t.out) =
      some [(0, 0x61#8), (1, 0x62#8), (2, 0x61#8), (3, 0x62#8), (4, 0x61#8)] := by decide +kernel
/-- V73: offset 2 with one byte produced. -/
theorem test_exec_copy10_reaches_back :
    after (exec (.copy10 1#10 0) (blockState [] 4#16 [(0, 0x61#8)])) kind = some (.fault, .invalidBlock, none) := by
  decide +kernel
/-- P2's third block: the copy reads what it has written. -/
theorem test_step_copy5 :
    after (step (blockState [0x0E#8, 0x03#8] 8#16 [(0, 0x61#8), (1, 0x62#8)])) (fun t => (t.destPos, t.out.drop 5, t.cur)) =
      some (8, [(5, 0x62#8), (6, 0x61#8), (7, 0x62#8)], ⟨9, 8#8⟩) := by decide +kernel
/-- E5: 1 + 3 > 3. -/
theorem test_exec_copy5_past_capacity :
    after (exec (.copy5 0#5 0) (blockState [] 3#16 [(0, 0x61#8)])) kind = some (.fault, .invalidBlock, none) := by
  decide +kernel
/-- V80: the buffer is full after three bytes and no terminator is read. -/
theorem test_step_raw_fills :
    after (step (blockState [0x02#8, 0x00#8, 0x29#8, 0x2D#8, 0x04#8] 3#16 [])) view =
      some (⟨12, 32#8⟩, 3, [(0, 0x48#8), (1, 0x69#8), (2, 0x21#8)], 0x00#8) := by decide +kernel
/-- V81: the zero is consumed, not appended. -/
theorem test_step_raw_zero :
    after (step (blockState [0x02#8, 0x00#8, 0x29#8, 0x0D#8, 0x60#8, 0x11#8] 3#16 [])) view =
      some (⟨12, 32#8⟩, 2, [(0, 0x48#8), (1, 0x69#8)], 0x00#8) := by decide +kernel
/-- A2. -/
theorem test_step_p8Esc :
    after (step (codeState [0x00#8, 0x41#8] 2#16 16 [])) (fun t => (t.p8Src, t.out)) = some (10, [(0, 0x41#8)]) := by
  decide +kernel
/-- A13b: the escape without its byte. -/
theorem test_step_p8Esc_truncated :
    after (step (codeState [0x00#8] 1#16 16 [])) kind = some (.fault, .endOfInput, none) := by decide +kernel
/-- A1: index 13 of K2's alphabet. -/
theorem test_step_p8Sym :
    after (step (codeState [0x0D#8] 3#16 16 [])) (fun t => (t.p8Src, t.out)) = some (9, [(0, 0x61#8)]) := by decide +kernel
/-- A3. -/
theorem test_step_p8Back :
    after (step (codeState [0x3C#8, 0x22#8] 6#16 16 [(0, 0x61#8), (1, 0x62#8)])) (fun t => (t.destPos, t.out.drop 2)) =
      some (6, [(2, 0x61#8), (3, 0x62#8), (4, 0x61#8), (5, 0x62#8)]) := by decide +kernel
/-- A4: offset 0. -/
theorem test_step_p8Back_zero :
    after (step (codeState [0x3C#8, 0x00#8] 4#16 16 [(0, 0x61#8)])) kind = some (.fault, .invalidBlock, none) := by
  decide +kernel
/-- P1's header. -/
theorem test_step_hdrPxa :
    after (step (callState .pxa (pxaHeaderBytes ++ [0x00#8, 0x03#8, 0x00#8, 0x0B#8, 0xEB#8])))
      (fun t => (t.cur, t.rawLen, t.compLen, t.maxLen, t.phase)) = some (⟨8, 1#8⟩, 3#16, 11#16, 3#16, .pxaBlocks) := by
  decide +kernel
/-- E3. -/
theorem test_step_hdrPxa_bad_magic :
    after (step (callState .pxa [0x00#8, 0x70#8, 0x78#8, 0x62#8, 0x00#8, 0x03#8, 0x00#8, 0x0B#8])) kind =
      some (.fault, .invalidHeader, none) := by decide +kernel
/-- P7's header: `P8_CAP` is the caller's 16. -/
theorem test_step_hdrP8 :
    after (step (callState .p8 [0x3A#8, 0x63#8, 0x3A#8, 0x00#8, 0x00#8, 0x06#8, 0x00#8, 0x00#8]))
      (fun t => (t.p8Len, t.p8Cap, t.p8Src, t.phase)) = some (6#16, 16, 8, .p8Codes) := by decide +kernel
/-- A7: 300 > 16. -/
theorem test_step_hdrP8_exceeded :
    after (step (callState .p8 [0x3A#8, 0x63#8, 0x3A#8, 0x00#8, 0x01#8, 0x2C#8, 0x00#8, 0x00#8])) kind =
      some (.fault, .outputExceeded, none) := by decide +kernel
/-- X4. -/
theorem test_step_sniffPxa :
    after (step (callState .auto [0x00#8, 0x00#8, 0x00#8, 0x00#8])) (fun t => (t.format, t.phase, t.status)) =
      some (.pxa, .pxaHeader, .running) := by decide +kernel
/-- X7. -/
theorem test_step_sniffP8 :
    after (step (callState .auto [0x3A#8, 0x63#8, 0x3A#8, 0x00#8])) (fun t => (t.format, t.phase, t.status)) =
      some (.p8, .p8Header, .running) := by decide +kernel
/-- X10. -/
theorem test_step_sniffLegacy :
    after (step (callState .auto [0x2D#8, 0x2D#8, 0x20#8, 0x68#8])) kind =
      some (.fault, .unsupported, none) := by decide +kernel
/-- X1. -/
theorem test_step_sniff_short :
    after (step (callState .auto [0x00#8, 0x70#8, 0x78#8])) kind = some (.fault, .endOfInput, none) := by decide +kernel

/-! ### The end of a call -/

/-- P1 after its third literal. -/
theorem test_step_pxa_done :
    after (step (blockState [] 3#16 [(0, 0x2D#8), (1, 0x2D#8), (2, 0x20#8)])) (fun t => (t.status, t.okBytes)) =
      some (.done, some [0x2D#8, 0x2D#8, 0x20#8]) := by decide +kernel
/-- E1: `comp_len` ends the loop short of `raw_len`. -/
theorem test_step_pxa_inconsistent :
    after (step { blockState [] 10#16 [(0, 0x2D#8)] with compLen := 8#16 }) kind =
      some (.fault, .consistencyFailure, none) := by decide +kernel
/-- A14's end with a two-byte trailer: it is stripped, once. -/
theorem test_strip_trailer :
    stripTrailer { defaultConfig with trailer1 := [0x65#8, 0x64#8] } [(0, 0x64#8), (1, 0x65#8), (2, 0x64#8)] 3 = 1 ∧
    stripTrailer { defaultConfig with trailer1 := [0x65#8, 0x64#8] } [(0, 0x65#8), (1, 0x64#8), (2, 0x44#8)] 3 = 3 := by
  decide +kernel
/-- K2: the sizes of the two trailers and the alphabet's ends. -/
theorem test_known_parameters :
    knownTrailer1.length = 56 ∧ knownTrailer2.length = 73 ∧ knownAlphabet[13] = 0x61#8 ∧ knownAlphabet[59] = 0x5F#8 := by
  decide +kernel
/-- The codes of 60_exceptions.md R190. -/
theorem test_err_codes :
    [Err.none, .endOfInput, .invalidHeader, .invalidBlock, .literalOverflow, .outputExceeded, .unsupported,
      .consistencyFailure].map errCode = [0, 1, 2, 3, 4, 5, 6, 7] := by decide

/-! ### The opcode table's words -/

theorem test_table_lit0 : decodeTableWord 8 0x1 = some (.lit0 0#4) := by decide +kernel
theorem test_table_litE16 : decodeTableWord 24 0x1FFFF = some .litE16 := by decide +kernel
theorem test_table_copy5 : decodeTableWord 8 0x6 = some (.copy5 0#5 0) := by decide +kernel
theorem test_table_raw : decodeTableWord 16 0x2 = some .raw := by decide +kernel
theorem test_table_p8Esc : decodeTableWord 16 0x0 = some (.p8Esc 0#8) := by decide +kernel
theorem test_table_hdrPxa : decodeTableWord 64 0x0070786100000000 = some (.hdrPxa 0#16 0#16) := by decide +kernel
theorem test_table_hdrP8 : decodeTableWord 64 0x3A633A0000000000 = some (.hdrP8 0#16) := by decide +kernel
theorem test_table_sniffP8 : decodeTableWord 32 0x3A633A00 = some .sniffP8 := by decide +kernel
/-- A table word is run by the very next step after reset. -/
theorem test_fetchWord_lit0 :
    after (step (State.reset.withFetchWord 8 0x1)) (fun t => (t.cur, t.destPos, t.out)) =
      some (⟨8, 64#8⟩, 1, [(0, 0x00#8)]) := by decide +kernel
theorem test_fetchWord_hdrP8 :
    after (step (State.reset.withFetchWord 64 0x3A633A0000000000)) (fun t => (t.phase, t.p8Cap)) =
      some (.p8Codes, 65535) := by decide +kernel

/-! ### Witnesses: for every statement with hypotheses a concrete case of each clause -/

theorem tables_at_start : tablesInverse identityTable (inverseTable identityTable) :=
  tablesInverse_inverseTable identityTable_nodup

/-- A PXA call in its block loop meets the invariant. -/
theorem blockState_inv {body : List Byte} {maxLen : Half} {out : Memory}
    (hr : out.map Prod.fst = List.range out.length) (hl : out.length ≤ maxLen.toNat) :
    (blockState body maxLen out).Inv where
  mem := Memory.wf_of_range hr
  running _ :=
    { cfg := defaultConfig_wf
      err := rfl
      result := rfl
      cursor := by
        refine ⟨⟨0, by decide, rfl⟩, ?_⟩
        rcases body with _ | ⟨b, body⟩
        · exact .inr ⟨rfl, rfl⟩
        · exact .inl (by simp [blockState, State.start, pxaHeaderBytes])
      tables := tables_at_start
      filled := outFilled_of_range hr
      phase := ⟨rfl, rfl, hl, Nat.le_refl _⟩ }
  done h := by cases h
  fault h := by cases h

/-- A P8 call in its main loop meets the invariant. -/
theorem codeState_inv {codes : List Byte} {len : Half} {capacity : Nat} {out : Memory}
    (hr : out.map Prod.fst = List.range out.length) (hl : out.length ≤ capacity) (hc : len.toNat ≤ capacity) :
    (codeState codes len capacity out).Inv where
  mem := Memory.wf_of_range hr
  running _ :=
    { cfg := defaultConfig_wf
      err := rfl
      result := rfl
      cursor := ⟨⟨0, by decide, rfl⟩, .inl (by simp [codeState, State.start])⟩
      tables := tables_at_start
      filled := outFilled_of_range hr
      phase := ⟨rfl, rfl, hc, hl, Nat.le_refl _, by simp [codeState, State.start]⟩ }
  done h := by cases h
  fault h := by cases h

/-- The start of a call meets the invariant. -/
theorem callState_inv (entry : Entry) (input : List Byte) : (callState entry input).Inv where
  mem := Memory.nil_wf
  running _ :=
    { cfg := defaultConfig_wf
      err := rfl
      result := rfl
      cursor := by
        refine ⟨⟨0, by decide, rfl⟩, ?_⟩
        rcases input with _ | ⟨b, input⟩
        · exact .inr ⟨rfl, rfl⟩
        · exact .inl (Nat.succ_pos _)
      tables := tables_at_start
      filled := outFilled_of_range rfl
      phase := by cases entry <;> simp [phaseInv, callState, State.start] }
  done h := by cases h
  fault h := by cases h

/-- P1's input (95_test_vectors.md P1). -/
def inputP1 : List Byte := pxaHeaderBytes ++ [0x00#8, 0x03#8, 0x00#8, 0x0B#8, 0xEB#8, 0xC1#8, 0x22#8]

def badMagicInput : List Byte := [0x00#8, 0x70#8, 0x78#8, 0x62#8, 0x00#8, 0x03#8, 0x00#8, 0x0B#8]

def p8Input (l0 l1 : Byte) : List Byte := p8Magic ++ [l0, l1, 0x00#8, 0x00#8]

theorem witness_StepRunsTheDecodedInstruction :
    (callState .auto p8Magic).status = .running ∧ (callState .auto p8Magic).phase = .sniff ∧
    decodeSniff p8Magic = .ok .sniffP8 ∧ decodeSniff [0x3A#8, 0x63#8, 0x3A#8] = .error .endOfInput ∧
    (callState .pxa inputP1).phase = .pxaHeader ∧ decodePxaHeader inputP1 = .ok (.hdrPxa 3#16 11#16) ∧
    decodePxaHeader (inputP1.take 7) = .error .endOfInput ∧ decodePxaHeader badMagicInput = .error .badMagic ∧
    (callState .p8 []).phase = .p8Header ∧ decodeP8Header (p8Input 0#8 6#8) = .ok (.hdrP8 6#16) ∧
    decodeP8Header ((p8Input 0#8 6#8).take 7) = .error .endOfInput := by
  decide +kernel

theorem witness_StepRunsTheDecodedInstruction_loops :
    (let s := blockState [0x3D#8] 1#16 []
     s.status = .running ∧ s.phase = .pxaBlocks ∧ s.cur.byte < s.compLen.toNat ∧ s.destPos < s.maxLen.toNat ∧
     decodeBlock s.input s.cur = .ok (.lit0 15#4, ⟨8, 64#8⟩)) ∧
    (let s := blockState [] 1#16 []
     s.cur.byte < s.compLen.toNat ∧ s.destPos < s.maxLen.toNat ∧ decodeBlock s.input s.cur = .error .endOfInput) ∧
    (let s := codeState [0x0D#8] 1#16 16 []
     s.status = .running ∧ s.phase = .p8Codes ∧ s.destPos < s.p8Len.toNat ∧
     decodeCode s.input s.p8Src = .ok (.p8Sym 0x0D#8, 9)) ∧
    (let s := codeState [0x3C#8] 1#16 16 []
     s.destPos < s.p8Len.toNat ∧ decodeCode s.input s.p8Src = .error .endOfInput) := by
  decide +kernel

/-- The hypothesis of EveryStartMeetsInvariant and of EveryCallEnds. -/
theorem witness_EveryStartMeetsInvariant : defaultConfig.wf := defaultConfig_wf

theorem witness_EveryCallEnds : defaultConfig.wf := defaultConfig_wf

theorem witness_StartOfCallValues : defaultConfig.litInit = identityTable := rfl

theorem witness_GetBitReadsOneBit :
    [0xA5#8].length ≤ (⟨1, 1#8⟩ : Cursor).byte ∧ (⟨0, 1#8⟩ : Cursor).byte < [0xA5#8].length ∧
    (⟨0, 128#8⟩ : Cursor).byte < [0xA5#8].length ∧ (0xA5#8 &&& 128#8) ≠ 0#8 := by decide

/-- The cursor at bit 1 of two bytes: 15 bits exist and a sixteenth bit does not, at bit 2 the fifteenth does not. -/
theorem witness_GetBitsReadsTheStreamBits :
    maskLegal (⟨0, 2#8⟩ : Cursor).mask ∧ Cursor.address ⟨0, 2#8⟩ + 15 ≤ 8 * [0x34#8, 0x12#8].length ∧
    maskLegal (⟨0, 4#8⟩ : Cursor).mask ∧ 8 * [0x34#8, 0x12#8].length < Cursor.address ⟨0, 4#8⟩ + 15 :=
  ⟨⟨1, by decide, rfl⟩, by decide +kernel, ⟨2, by decide, rfl⟩, by decide +kernel⟩

theorem witness_GetBitsSplits : 7 + 8 ≤ getBitsMax := by decide

theorem witness_SelectorChainTable :
    streamBit [0x00#8] 0 = some false ∧
    (streamBit [0x40#8, 0x00#8] 6 = some true ∧ streamBit [0x40#8, 0x00#8] 7 = some false) ∧
    (streamBit [0x80#8, 0x01#8] 7 = some true ∧ streamBit [0x80#8, 0x01#8] 8 = some true) := by decide +kernel

theorem witness_LengthChainDecodes : 0 ≤ chainMax ∧ 233338 ≤ chainMax := by decide

/-- In front of an empty group, and in front of a chain that the budget ends. -/
theorem witness_MaximalGroupAddsItsValue :
    (∀ i, i < 3 → streamBit [0x07#8, 0x00#8] (0 + i) = some true) ∧
    getChain [0x07#8, 0x00#8] 3 3 (by decide) (cursorAt (0 + 3)) = .ok (0, cursorAt 6) ∧
    (∀ i, i < 3 → streamBit [0x3F#8] (0 + i) = some true) ∧
    getChain [0x3F#8] 3 3 (by decide) (cursorAt (0 + 3)) = .ok (7, cursorAt 6) := by decide +kernel

/-- The sentinel; the same width with 1; the two other widths. -/
theorem witness_GetNumSentinelExactly :
    maskLegal (⟨0, 1#8⟩ : Cursor).mask ∧
    (getSelector [0x01#8, 0x00#8] ⟨0, 1#8⟩ = .ok (1, ⟨0, 4#8⟩) ∧
      getBits [0x01#8, 0x00#8] (offsetWidth 1) (offsetWidth_le 1) ⟨0, 4#8⟩ = .ok (0, ⟨1, 16#8⟩) ∧ offsetWidth 1 = 10) ∧
    (getSelector [0x05#8, 0x00#8] ⟨0, 1#8⟩ = .ok (1, ⟨0, 4#8⟩) ∧
      getBits [0x05#8, 0x00#8] (offsetWidth 1) (offsetWidth_le 1) ⟨0, 4#8⟩ = .ok (1, ⟨1, 16#8⟩)) ∧
    (getSelector [0xFE#8, 0xFF#8] ⟨0, 1#8⟩ = .ok (0, ⟨0, 2#8⟩) ∧
      getBits [0xFE#8, 0xFF#8] (offsetWidth 0) (offsetWidth_le 0) ⟨0, 2#8⟩ = .ok (32767, ⟨2, 1#8⟩)) ∧
    (getSelector [0x03#8] ⟨0, 1#8⟩ = .ok (2, ⟨0, 4#8⟩) ∧
      getBits [0x03#8] (offsetWidth 2) (offsetWidth_le 2) ⟨0, 4#8⟩ = .ok (0, ⟨0, 128#8⟩)) :=
  ⟨⟨0, by decide, rfl⟩, by decide +kernel⟩

theorem witness_BlocksRoundTrip :
    ((Instr.lit4 255#8).wf = true ∧ (Instr.lit4 255#8).phase = .pxaBlocks) ∧
    (Instr.litE11 32767#15).wf = true ∧ Instr.litE16.wf = true ∧ Instr.raw.wf = true ∧
    ((Instr.copy15 0#15 233338).wf = true ∧ (Instr.copy15 0#15 233338).phase = .pxaBlocks) ∧
    (Instr.copy10 1#10 0).wf = true ∧ (Instr.copy5 31#5 6).wf = true := by decide

theorem witness_DecodedBlockIsItsEncoding :
    decodeBlock [0x02#8, 0x00#8] (cursorAt 0) = .ok (.raw, cursorAt 13) ∧
    decodeBlock [0x0A#8, 0x01#8] (cursorAt 0) = .ok (.copy10 33#10 0, cursorAt 16) := by decide +kernel

/-- E8d: LIT.E11 whose input ends inside its field; a rejection; a COPY5 at bit 4 of the last byte of a running block loop,
of which four bits exist, although its offset also reaches before the output. -/
theorem witness_BlockCutShortIsEndOfInput :
    ((Instr.litE11 0#15).wf = true ∧ (Instr.litE11 0#15).phase = .pxaBlocks ∧
      8 * [0xFF#8, 0x0F#8, 0x00#8].length < 0 + (Instr.litE11 0#15).bits ∧
      ∀ j, j < 24 → streamBit [0xFF#8, 0x0F#8, 0x00#8] (0 + j) = (encode (.litE11 0#15))[j]?) ∧
    decodeBlock [0xFF#8, 0x0F#8, 0x00#8] (cursorAt 0) = .error .endOfInput ∧
    (let s := { blockState [0x60#8] 9#16 [] with cur := ⟨8, 16#8⟩ }
     s.status = .running ∧ s.phase = .pxaBlocks ∧ s.cur.byte < s.compLen.toNat ∧ s.destPos < s.maxLen.toNat ∧
     (Instr.copy5 0#5 0).wf = true ∧ (Instr.copy5 0#5 0).phase = .pxaBlocks ∧ Cursor.address s.cur = 68 ∧
     8 * s.input.length < 68 + (Instr.copy5 0#5 0).bits ∧
     ∀ j, j < 4 → streamBit s.input (68 + j) = (encode (.copy5 0#5 0))[j]?) := by decide +kernel

theorem witness_BlockCutShortIsEndOfInput_mask : maskLegal (⟨8, 16#8⟩ : Cursor).mask := ⟨4, by decide, rfl⟩

theorem witness_CodesRoundTrip :
    (Instr.p8Esc 0#8).wf = true ∧ (Instr.p8Sym 1#8).wf = true ∧ (Instr.p8Sym 59#8).wf = true ∧
    (Instr.p8Back 60#8 0#8).wf = true ∧ (Instr.p8Back 255#8 255#8).wf = true ∧
    (Instr.p8Back 255#8 255#8).phase = .p8Codes := by decide

theorem witness_HeadersAndSniffsRoundTrip :
    ((Instr.hdrPxa 259#16 65535#16).wf = true ∧ (Instr.hdrPxa 259#16 65535#16).phase = .pxaHeader) ∧
    ((Instr.hdrP8 300#16).wf = true ∧ (Instr.hdrP8 300#16).phase = .p8Header) ∧
    ((Instr.sniffPxa 0x3A#8 0x63#8 0x78#8 0x00#8).wf = true ∧ Instr.sniffP8.wf = true ∧
      (Instr.sniffLegacy 0x3A#8 0x63#8 0x3A#8 0x01#8).wf = true ∧ Instr.sniffP8.phase = .sniff) := by decide

theorem witness_EveryTablePositionHasOneLit :
    255 ≤ 255 ∧ (15 < 2 ^ (4 + 4) ∧ literalPosition 4 15 = 255) ∧ (0 < 2 ^ (4 + 0) ∧ literalPosition 0 0 = 0) ∧
    5 ≤ 5 ∧ literalPosition 5 0 = 496 := by decide

/-- The first and the last table position, with room for one byte. -/
theorem witness_LitAppendsAndMovesToFront :
    literalOperand (.lit0 0#4) = some 0 ∧ literalOperand (.lit4 15#8) = some 255 ∧
    (blockState [] 1#16 []).destPos < (blockState [] 1#16 []).maxLen.toNat ∧
    tablesInverse (blockState [] 1#16 []).lit (blockState [] 1#16 []).lpos :=
  ⟨rfl, rfl, by decide, tables_at_start⟩

theorem witness_MoveToFrontShifts :
    254 < (255#8 : Byte).toNat ∧ (0#8 : Byte).toNat < (255#8 : Byte).toNat ∧ identityTable.toList.Nodup :=
  ⟨by decide, by decide, identityTable_nodup⟩

theorem witness_MoveToFrontKeepsCounters : tablesInverse identityTable (inverseTable identityTable) := tables_at_start

theorem witness_LiteralPastTableRaises : 16 ≤ (16#8 : BitVec 8).toNat ∧ 16 ≤ (255#8 : BitVec 8).toNat := by decide

/-- The three forms; the copy ends exactly at the capacity and reaches back to the first byte. -/
theorem witness_CopyAppendsEarlierBytes :
    copyOperands (.copy5 0#5 0) = some (1, 3) ∧ copyOperands (.copy10 1#10 4) = some (2, 7) ∧
    copyOperands (.copy15 1024#15 1) = some (1025, 4) ∧ outFilled (blockState [] 4#16 [(0, 0x61#8)]) ∧
    1 ≤ (blockState [] 4#16 [(0, 0x61#8)]).destPos ∧
    (blockState [] 4#16 [(0, 0x61#8)]).destPos + 3 ≤ (blockState [] 4#16 [(0, 0x61#8)]).maxLen.toNat :=
  ⟨rfl, rfl, rfl, outFilled_of_range rfl, by decide, by decide⟩

/-- COPY: the offset reaches before the output, the length passes the capacity by one, both fit exactly. P8.BACK: those
and the offset zero. -/
theorem witness_BackReferenceRejected :
    (copyOperands (.copy5 1#5 0) = some (2, 3) ∧ (blockState [] 4#16 [(0, 0x61#8)]).destPos < 2) ∧
    (copyOperands (.copy5 0#5 0) = some (1, 3) ∧ outFilled (blockState [] 3#16 [(0, 0x61#8)]) ∧
      (blockState [] 3#16 [(0, 0x61#8)]).destPos + 3 > (blockState [] 3#16 [(0, 0x61#8)]).maxLen.toNat) ∧
    ¬ (1 = 0 ∨ 1 > (blockState [] 4#16 [(0, 0x61#8)]).destPos ∨
      (blockState [] 4#16 [(0, 0x61#8)]).destPos + 3 > (blockState [] 4#16 [(0, 0x61#8)]).maxLen.toNat) ∧
    (p8Offset 60#8 0x10#8 = 0 ∧ p8Length 0x10#8 = 3) ∧
    (p8Offset 60#8 0x02#8 = 2 ∧ (codeState [] 3#16 3 [(0, 0x61#8)]).destPos < 2) ∧
    (p8Offset 60#8 0x11#8 = 1 ∧ (codeState [] 3#16 3 [(0, 0x61#8)]).destPos + p8Length 0x11#8 > 3) ∧
    (p8Offset 60#8 0x01#8 = 1 ∧ outFilled (codeState [] 3#16 3 [(0, 0x61#8)]) ∧
      ¬ (1 = 0 ∨ 1 > (codeState [] 3#16 3 [(0, 0x61#8)]).destPos ∨
        (codeState [] 3#16 3 [(0, 0x61#8)]).destPos + p8Length 0x01#8 > (codeState [] 3#16 3 [(0, 0x61#8)]).p8Cap)) :=
  ⟨by decide, ⟨rfl, outFilled_of_range rfl, by decide⟩, by decide, by decide, by decide, by decide,
    ⟨by decide, outFilled_of_range rfl, by decide⟩⟩

/-- V81 right after the fields of its RAW: two bytes, then the zero. V80's three bytes fill a buffer of three. V83 ends
after one byte. -/
theorem witness_RawRunAppends :
    (let s := { blockState [0x02#8, 0x00#8, 0x29#8, 0x0D#8, 0x60#8, 0x11#8] 3#16 [] with cur := ⟨9, 32#8⟩ }
     readRun s.input 2 s.cur = .ok ([0x48#8, 0x69#8], ⟨11, 32#8⟩) ∧ (∀ b ∈ [0x48#8, 0x69#8], b ≠ 0#8) ∧
     getBits s.input rawWidth (by decide) ⟨11, 32#8⟩ = .ok (0, ⟨12, 32#8⟩) ∧ s.destPos + 2 < s.maxLen.toNat) ∧
    (let s := { blockState [0x02#8, 0x00#8, 0x29#8, 0x2D#8, 0x04#8] 3#16 [] with cur := ⟨9, 32#8⟩ }
     readRun s.input 3 s.cur = .ok ([0x48#8, 0x69#8, 0x21#8], ⟨12, 32#8⟩) ∧ s.destPos + 3 = s.maxLen.toNat) ∧
    (let s := { blockState [0x02#8, 0x00#8, 0x09#8] 3#16 [] with cur := ⟨9, 32#8⟩ }
     readRun s.input 1 s.cur = .ok ([0x48#8], ⟨10, 32#8⟩) ∧
     getBits s.input rawWidth (by decide) ⟨10, 32#8⟩ = .error .endOfInput ∧ s.destPos + 1 < s.maxLen.toNat) := by
  decide +kernel

theorem witness_OnlyLitWritesTheTable :
    (∃ t, exec (.p8Esc 0x41#8) (codeState [] 1#16 1 []) = .next t ∧ t.status = .running) ∧
    (∃ t, exec (.hdrPxa 3#16 11#16) (callState .pxa inputP1) = .next t ∧ t.status = .running) ∧
    literalOperand (.p8Esc 0x41#8) = none ∧ literalOperand (.hdrPxa 3#16 11#16) = none :=
  ⟨exists_next_of_after (by decide +kernel), exists_next_of_after (by decide +kernel), rfl, rfl⟩

/-- Seven bytes; eight with a magic that is wrong in its last byte; eight with the right one; with and without a cap. -/
theorem witness_PxaHeaderCheckedAndParsed :
    (callState .pxa (inputP1.take 7)).status = .running ∧ (callState .pxa (inputP1.take 7)).phase = .pxaHeader ∧
    (inputP1.take 7).length < 8 ∧
    (8 ≤ badMagicInput.length ∧ badMagicInput.take 4 ≠ pxaMagic) ∧
    (8 ≤ (inputP1.take 8).length ∧ inputP1.take 4 = [0x00#8, 0x70#8, 0x78#8, 0x61#8]) ∧
    (callState .pxa inputP1).cap = none ∧ (State.start defaultConfig inputP1 (some 2) .pxa 0).cap = some 2 := by
  decide +kernel

theorem witness_HdrPxaInitialises :
    (callState .pxa []).cap = none ∧ (State.start defaultConfig [] (some 2) .pxa 0).cap = some 2 ∧
    (callState .pxa []).cfg.wf ∧ (callState .pxa []).cfg.litInit = identityTable :=
  ⟨rfl, rfl, defaultConfig_wf, rfl⟩

/-- The output is full; the input window has ended (E1). -/
theorem witness_PxaLoopEnds :
    (let s := blockState [] 1#16 [(0, 0x2D#8)]
     s.status = .running ∧ s.phase = .pxaBlocks ∧ ¬ (s.cur.byte < s.compLen.toNat ∧ s.destPos < s.maxLen.toNat) ∧
     s.destPos = s.maxLen.toNat) ∧
    (let s := { blockState [] 10#16 [(0, 0x2D#8)] with compLen := 8#16 }
     s.status = .running ∧ s.phase = .pxaBlocks ∧ ¬ (s.cur.byte < s.compLen.toNat ∧ s.destPos < s.maxLen.toNat) ∧
     s.destPos ≠ s.maxLen.toNat) := by decide +kernel

/-- The shortest block, LIT0, is all the input holds bits for. -/
theorem witness_EveryBlockConsumesBits :
    (blockState [0x3D#8] 1#16 []).Inv ∧
    ∃ t, step (blockState [0x3D#8] 1#16 []) = .next t ∧ t.status = .running :=
  ⟨blockState_inv rfl (by decide), exists_next_of_after (by decide +kernel)⟩

theorem witness_DispatcherClassifies :
    (callState .auto [0x00#8, 0x70#8, 0x78#8]).status = .running ∧
    (callState .auto [0x00#8, 0x70#8, 0x78#8]).phase = .sniff ∧ [0x00#8, 0x70#8, 0x78#8].length < 4 ∧
    (4 ≤ [0xFF#8, 0xFF#8, 0xFF#8, 0x61#8].length ∧ [0xFF#8, 0xFF#8, 0xFF#8, 0x61#8][3] = 0x61#8) ∧
    (4 ≤ p8Magic.length ∧ p8Magic.take 4 = p8Magic) ∧
    (let x9 := [0x3A#8, 0x63#8, 0x3A#8, 0x01#8]
     4 ≤ x9.length ∧ ¬ (x9[0] = 0x00#8 ∨ x9[1] = 0x70#8 ∨ x9[2] = 0x78#8 ∨ x9[3] = 0x61#8) ∧ x9.take 4 ≠ p8Magic) := by
  decide +kernel

/-- X9: three of the four P8 bytes. -/
theorem witness_LegacyIsUnsupported :
    (callState .auto [0x3A#8, 0x63#8, 0x3A#8, 0x01#8]).status = .running ∧
    (callState .auto [0x3A#8, 0x63#8, 0x3A#8, 0x01#8]).phase = .sniff ∧
    resemblesPxa 0x3A#8 0x63#8 0x3A#8 0x01#8 = false ∧ isP8Magic 0x3A#8 0x63#8 0x3A#8 0x01#8 = false := by
  decide +kernel

theorem witness_HdrP8ChecksCapacity_output :
    (callState .p8 []).Inv ∧ (callState .p8 []).status = .running ∧ (callState .p8 []).phase = .p8Header :=
  ⟨callState_inv _ _, rfl, rfl⟩

/-- Lengths 17 and 16 against `P8_OUT_CAP = 16`; the three sources of the capacity. -/
theorem witness_HdrP8ChecksCapacity :
    ((callState .p8 [0x3A#8]).status = .running ∧ (callState .p8 [0x3A#8]).phase = .p8Header ∧ [0x3A#8].length < 8) ∧
    (let s := callState .p8 []
     s.entry = .p8 ∧ p8Capacity s.entry s.cap s.p8OutCap < (17#16 : Half).toNat ∧
     (16#16 : Half).toNat ≤ p8Capacity s.entry s.cap s.p8OutCap) ∧
    ((callState .auto []).entry = .auto ∧ (callState .auto []).cap = none) ∧
    ((State.start defaultConfig [] (some 16) .auto 0).entry = .auto ∧
      (State.start defaultConfig [] (some 16) .auto 0).cap = some 16) := by decide +kernel

/-- A13b for the second clause. -/
theorem witness_EscAppendsVerbatim :
    (codeState [] 1#16 1 []).destPos < (codeState [] 1#16 1 []).p8Cap ∧
    (let s := codeState [0x00#8] 1#16 1 []
     s.status = .running ∧ s.phase = .p8Codes ∧ s.destPos < s.p8Len.toNat ∧ s.input[s.p8Src]? = some 0x00#8 ∧
     s.input[s.p8Src + 1]? = none) := by decide +kernel

/-- No byte left; A13b; a back-reference without its second byte, after nothing was written; each code that runs. -/
theorem witness_CodeCutShortIsEndOfInput :
    (let s := codeState [] 1#16 1 []
     s.status = .running ∧ s.phase = .p8Codes ∧ s.destPos < s.p8Len.toNat ∧ s.input.length ≤ s.p8Src) ∧
    (let s := codeState [0x00#8] 1#16 1 []
     s.input[s.p8Src]? = some 0x00#8 ∧ s.input.length ≤ s.p8Src + 1) ∧
    (let s := codeState [0x3C#8] 1#16 1 []
     s.input[s.p8Src]? = some 0x3C#8 ∧ 60 ≤ (0x3C#8 : Byte).toNat ∧ s.input.length ≤ s.p8Src + 1) ∧
    (let s := codeState [0x3B#8] 1#16 1 []
     s.input[s.p8Src]? = some 0x3B#8 ∧ 0x3B#8 ≠ 0x00#8 ∧ (0x3B#8 : Byte).toNat < 60) ∧
    (let s := codeState [0x00#8, 0x41#8] 1#16 1 []
     s.input[s.p8Src]? = some 0x00#8 ∧ s.input[s.p8Src + 1]? = some 0x41#8) ∧
    (let s := codeState [0x3C#8, 0x22#8] 1#16 1 []
     s.input[s.p8Src]? = some 0x3C#8 ∧ s.input[s.p8Src + 1]? = some 0x22#8) := by decide +kernel

theorem witness_SymAppendsAlphabet :
    (codeState [] 1#16 1 []).destPos < (codeState [] 1#16 1 []).p8Cap ∧ (59#8 : Byte).toNat < 60 ∧
    60 ≤ (60#8 : Byte).toNat := by decide +kernel

/-- `3C 01` after one byte, up to the capacity 3. -/
theorem witness_BackCopiesEarlierBytes :
    outFilled (codeState [] 3#16 3 [(0, 0x61#8)]) ∧
    1 ≤ ((60#8 : Byte).toNat - 60) * 16 + (0x01#8 : Byte).toNat % 16 ∧
    ((60#8 : Byte).toNat - 60) * 16 + (0x01#8 : Byte).toNat % 16 ≤ (codeState [] 3#16 3 [(0, 0x61#8)]).destPos ∧
    (codeState [] 3#16 3 [(0, 0x61#8)]).destPos + ((0x01#8 : Byte).toNat / 16 + 2) ≤
      (codeState [] 3#16 3 [(0, 0x61#8)]).p8Cap :=
  ⟨outFilled_of_range rfl, by decide, by decide, by decide⟩

/-- Two written bytes `65 64` against trailers: the first matches; only the second does; none does. -/
def trailerState (t1 t2 : List Byte) : State :=
  { codeState [] 2#16 16 [(0, 0x65#8), (1, 0x64#8)] with cfg := { defaultConfig with trailer1 := t1, trailer2 := t2 } }

theorem witness_P8LoopEnds :
    ((trailerState [0x65#8, 0x64#8] [0x64#8]).status = .running ∧
      (trailerState [0x65#8, 0x64#8] [0x64#8]).phase = .p8Codes ∧
      (trailerState [0x65#8, 0x64#8] [0x64#8]).p8Len.toNat ≤ (trailerState [0x65#8, 0x64#8] [0x64#8]).destPos) ∧
    (∃ t, step (trailerState [0x65#8, 0x64#8] [0x64#8]) = .next t ∧ t.result = some 0) ∧
    (∃ t, step (trailerState [0x65#8] [0x64#8]) = .next t ∧ t.result = some 1) ∧
    (∃ t, step (trailerState [0x65#8] [0x64#8, 0x65#8, 0x64#8]) = .next t ∧ t.result = some 2) :=
  ⟨by decide +kernel, exists_next_of_after (by decide +kernel), exists_next_of_after (by decide +kernel),
    exists_next_of_after (by decide +kernel)⟩

theorem witness_P8IgnoresPxaRegisters :
    (callState .p8 []).phase = .p8Header ∧ (codeState [0x0D#8] 1#16 16 []).phase = .p8Codes := ⟨rfl, rfl⟩

/-- E3, A7 and X9 raise the three kinds. -/
theorem witness_HeaderKindsRaisedOnlyByTheirUnit :
    ((callState .pxa badMagicInput).Inv ∧ ∃ t, step (callState .pxa badMagicInput) = .next t ∧ t.err = .invalidHeader) ∧
    ((callState .p8 (p8Input 0x01#8 0x2C#8)).Inv ∧
      ∃ t, step (callState .p8 (p8Input 0x01#8 0x2C#8)) = .next t ∧ t.err = .outputExceeded) ∧
    ((callState .auto [0x3A#8, 0x63#8, 0x3A#8, 0x01#8]).Inv ∧
      ∃ t, step (callState .auto [0x3A#8, 0x63#8, 0x3A#8, 0x01#8]) = .next t ∧ t.err = .unsupported) :=
  ⟨⟨callState_inv _ _, exists_next_of_after (by decide +kernel)⟩,
    ⟨callState_inv _ _, exists_next_of_after (by decide +kernel)⟩,
    ⟨callState_inv _ _, exists_next_of_after (by decide +kernel)⟩⟩

/-- A fault in each of the five phases. -/
theorem witness_FaultKindsOfEachPhase :
    ((callState .auto []).Inv ∧ ∃ t, step (callState .auto []) = .next t ∧ t.status = .fault) ∧
    ((callState .pxa []).Inv ∧ ∃ t, step (callState .pxa []) = .next t ∧ t.status = .fault) ∧
    ((blockState [] 1#16 []).Inv ∧ ∃ t, step (blockState [] 1#16 []) = .next t ∧ t.status = .fault) ∧
    ((callState .p8 []).Inv ∧ ∃ t, step (callState .p8 []) = .next t ∧ t.status = .fault) ∧
    ((codeState [] 1#16 1 []).Inv ∧ ∃ t, step (codeState [] 1#16 1 []) = .next t ∧ t.status = .fault) :=
  ⟨⟨callState_inv _ _, exists_next_of_after (by decide +kernel)⟩,
    ⟨callState_inv _ _, exists_next_of_after (by decide +kernel)⟩,
    ⟨blockState_inv rfl (by decide), exists_next_of_after (by decide +kernel)⟩,
    ⟨callState_inv _ _, exists_next_of_after (by decide +kernel)⟩,
    ⟨codeState_inv rfl (by decide) (by decide), exists_next_of_after (by decide +kernel)⟩⟩

theorem witness_StepKeepsParameters : ∃ t, step (callState .pxa inputP1) = .next t ∧ t.status = .running :=
  exists_next_of_after (by decide +kernel)

/-- A COPY in each path, up to the capacity. -/
theorem witness_OutputOnlyGrows :
    ((blockState [0x06#8, 0x00#8] 4#16 [(0, 0x61#8)]).Inv ∧
      ∃ t, step (blockState [0x06#8, 0x00#8] 4#16 [(0, 0x61#8)]) = .next t ∧ (t.status, t.destPos) = (.running, 4)) ∧
    ((codeState [0x3C#8, 0x01#8] 3#16 3 [(0, 0x61#8)]).Inv ∧
      ∃ t, step (codeState [0x3C#8, 0x01#8] 3#16 3 [(0, 0x61#8)]) = .next t ∧ (t.status, t.destPos) = (.running, 3)) :=
  ⟨⟨blockState_inv rfl (by decide), exists_next_of_after (by decide +kernel)⟩,
    ⟨codeState_inv rfl (by decide) (by decide), exists_next_of_after (by decide +kernel)⟩⟩

/-- A LIT and the end of the loop. -/
theorem witness_StepKeepsInvariant :
    ((blockState [0x3D#8] 1#16 []).Inv ∧ ∃ t, step (blockState [0x3D#8] 1#16 []) = .next t ∧ t.status = .running) ∧
    ((blockState [] 1#16 [(0, 0x0F#8)]).Inv ∧
      ∃ t, step (blockState [] 1#16 [(0, 0x0F#8)]) = .next t ∧ t.status = .done) :=
  ⟨⟨blockState_inv rfl (by decide), exists_next_of_after (by decide +kernel)⟩,
    ⟨blockState_inv rfl (by decide), exists_next_of_after (by decide +kernel)⟩⟩

theorem witness_RunningStepAnswers :
    (blockState [0x02#8, 0x00#8, 0x09#8] 3#16 []).Inv ∧ (blockState [0x02#8, 0x00#8, 0x09#8] 3#16 []).status = .running :=
  ⟨blockState_inv rfl (by decide), rfl⟩

/-- P1 through the Dispatcher: `"-- "` (95_test_vectors.md P1, X3). -/
theorem witness_UncappedPxaReturnsRawLen :
    defaultConfig.wf ∧ ∃ t, runSteps 6 (State.start defaultConfig inputP1 none .auto 0) = .next t ∧
      (t.status, t.format, t.okBytes) = (.done, .pxa, some [0x2D#8, 0x2D#8, 0x20#8]) :=
  ⟨defaultConfig_wf, exists_next_of_after (by decide +kernel)⟩

/-- V70's input: one literal and a copy of three bytes. -/
def inputV70 : List Byte := pxaHeaderBytes ++ [0x00#8, 0x04#8, 0x00#8, 0x0B#8, 0x17#8, 0x1B#8, 0x00#8]

/-- P1 with a cap of 2 and with none (95_test_vectors.md P1c); V70 with a cap that cuts the copy (E5c) and with none
(E5b). -/
theorem witness_CappedPxaIsPrefix :
    defaultConfig.wf ∧
    (∃ s, runSteps 4 (State.start defaultConfig inputP1 (some 2) .pxa 0) = .next s ∧
      (s.status, s.okBytes) = (.done, some [0x2D#8, 0x2D#8])) ∧
    (∃ u, runSteps 5 (State.start defaultConfig inputP1 none .pxa 0) = .next u ∧ (u.status, u.format) = (.done, .pxa)) ∧
    (∃ s, runSteps 3 (State.start defaultConfig inputV70 (some 3) .pxa 0) = .next s ∧
      (s.status, s.err) = (.fault, .invalidBlock)) ∧
    (∃ u, runSteps 4 (State.start defaultConfig inputV70 none .pxa 0) = .next u ∧
      (u.status, u.format, u.okBytes) = (.done, .pxa, some [0x61#8, 0x61#8, 0x61#8, 0x61#8])) :=
  ⟨defaultConfig_wf, exists_next_of_after (by decide +kernel), exists_next_of_after (by decide +kernel),
    exists_next_of_after (by decide +kernel), exists_next_of_after (by decide +kernel)⟩

end Sys2Proof.Tests
end

section
/-! PROOFS. The state (10_state.md R10 to R31): what one step can do to it, said once (`Transition`), and from that the
invariant, the parameters, the output; then what the P8 path does not read. -/

namespace Sys2Proof.Machine

/-! ### The adaptive table keeps its inverse (10_state.md R14, R15) -/

/-- A table of 256 bytes that undoes `lpos` on the right is onto, hence one-to-one, so the other equation follows. -/
theorem tablesInverse_of_left {lit lpos : Table} (h : ∀ b : Byte, readTable lit (readTable lpos b) = b) :
    tablesInverse lit lpos := by
  have : Finite Byte := Finite.of_injective (fun b : Byte => b.toFin) (fun _ _ h => BitVec.toFin_inj.1 h)
  have hinj : Function.Injective (readTable lit) := Finite.injective_iff_surjective.2 fun b => ⟨_, h b⟩
  exact ⟨h, fun i => hinj (h _)⟩

/-- The position counters after a move to the front (43_literal_model.md R132): the byte moved is at 0, the bytes that
stood before it are one further. -/
theorem moveToFront_lpos {p : Byte} {t : Tables} (h : tablesInverse t.lit t.lpos) (b : Byte) :
    readTable (moveToFront p (readTable t.lit p) t).lpos b =
      if b = readTable t.lit p then 0#8
      else if readTable t.lpos b < p then readTable t.lpos b + 1#8 else readTable t.lpos b := by
  obtain ⟨hleft, hright⟩ := h
  have hpos : ∀ {k : Nat} {c : Byte}, k < 256 → readTable t.lit (BitVec.ofNat 8 k) = c →
      (readTable t.lpos c).toNat = k := by
    rintro k _ hk rfl
    rw [hright, BitVec.toNat_ofNat, Nat.mod_eq_of_lt hk]
  have hp := p.isLt
  obtain ⟨hmoved, hkept⟩ := shiftBack_lpos (n := p.toNat) (t := t) hp
    (fun j k hj hk e => (hpos (by omega) rfl).symm.trans (hpos (by omega) e.symm)) b
  simp only [moveToFront, readTable_writeTable]
  by_cases hb : b = readTable t.lit p
  · rw [if_pos hb, if_pos hb]
  · rw [if_neg hb, if_neg hb]
    by_cases hlt : readTable t.lpos b < p
    · rw [if_pos hlt]
      exact hmoved ⟨(readTable t.lpos b).toNat, hlt, by simp [hleft]⟩
    · rw [if_neg hlt]
      refine hkept fun k hk hkb => hlt ?_
      have := hpos (by omega) hkb
      rw [BitVec.lt_def]
      omega

/-- A move to the front of the byte at `p` keeps `LIT` a permutation with `LPOS` its inverse (10_state.md R15). -/
theorem tablesInverse_moveToFront {p : Byte} {t : Tables} (h : tablesInverse t.lit t.lpos) :
    tablesInverse (moveToFront p (readTable t.lit p) t).lit (moveToFront p (readTable t.lit p) t).lpos := by
  refine tablesInverse_of_left fun b => ?_
  have hlit : ∀ i : Byte, readTable (moveToFront p (readTable t.lit p) t).lit i =
      if i.toNat = 0 then readTable t.lit p
      else if i.toNat ≤ p.toNat then readTable t.lit (BitVec.ofNat 8 (i.toNat - 1)) else readTable t.lit i := by
    intro i
    simpa using moveToFront_lit (p := p) (c := readTable t.lit p) (t := t) i.isLt
  have hb := h.1 b
  have hp := p.isLt
  rw [moveToFront_lpos h]
  by_cases hc : b = readTable t.lit p
  · rw [if_pos hc, hlit]
    simp [hc]
  · rw [if_neg hc]
    have hne : (readTable t.lpos b).toNat ≠ p.toNat := fun e => hc (by rw [← BitVec.eq_of_toNat_eq e, hb])
    by_cases hlt : readTable t.lpos b < p
    · have hlt' : (readTable t.lpos b).toNat < p.toNat := hlt
      have hsucc : (readTable t.lpos b + 1#8).toNat = (readTable t.lpos b).toNat + 1 := by
        simp only [BitVec.toNat_add, BitVec.toNat_ofNat]
        omega
      rw [if_pos hlt, hlit, hsucc, if_neg (by omega), if_pos (by omega)]
      simpa using hb
    · have hge : ¬ (readTable t.lpos b).toNat < p.toNat := hlt
      rw [if_neg hlt, hlit, if_neg (by omega), if_neg (by omega), hb]

/-! ### The cursor only advances (10_state.md R11) -/

/-- From a legal cursor `c` the reader has come to a legal cursor `d` that is not before it. -/
def cursorAdvances (input : List Byte) (c d : Cursor) : Prop :=
  cursorLegal input c → cursorLegal input d ∧ Cursor.address c ≤ Cursor.address d

theorem cursorAdvances_refl (input : List Byte) (c : Cursor) : cursorAdvances input c c := fun h =>
  ⟨h, Nat.le_refl _⟩

theorem cursorAdvances_trans {input : List Byte} {c d e : Cursor} (h : cursorAdvances input c d)
    (k : cursorAdvances input d e) : cursorAdvances input c e := fun hc =>
  ⟨(k (h hc).1).1, Nat.le_trans (h hc).2 (k (h hc).1).2⟩

/-- The byte index of a one-hot cursor is its bit address over 8. -/
theorem byte_eq_address_div {c : Cursor} (h : maskLegal c.mask) : c.byte = Cursor.address c / 8 :=
  congrArg Cursor.byte (cursorAt_address h).symm

theorem cursorAdvances_byte_le {input : List Byte} {c d : Cursor} (h : cursorAdvances input c d)
    (hc : cursorLegal input c) : c.byte ≤ d.byte := by
  obtain ⟨hd, hle⟩ := h hc
  rw [byte_eq_address_div hc.1, byte_eq_address_div hd.1]
  exact Nat.div_le_div_right hle

/-- A read described by bit addresses, as the laws of the decoders describe it, advances the cursor. -/
theorem cursorAdvances_of_address {input : List Byte} {c d : Cursor}
    (h : ∀ k, k ≤ 8 * input.length → c = cursorAt k → ∃ j, d = cursorAt j ∧ k ≤ j ∧ j ≤ 8 * input.length) :
    cursorAdvances input c d := by
  intro hc
  obtain ⟨j, rfl, hj, hj'⟩ := h _ (address_le_of_legal hc) (cursorAt_address hc.1).symm
  exact ⟨cursorLegal_cursorAt hj', by rwa [address_cursorAt]⟩

theorem getBits_cursorAdvances {input : List Byte} {n v : Nat} {hn : n ≤ getBitsMax} {c d : Cursor}
    (h : getBits input n hn c = .ok (v, d)) : cursorAdvances input c d := by
  refine cursorAdvances_of_address fun k hk hc => ?_
  subst hc
  obtain ⟨hd, _, hle⟩ := getBits_cursorAt_pos hk h
  exact ⟨k + n, hd, by omega, hle⟩

theorem decodeBlock_cursorAdvances {input : List Byte} {i : Instr} {c d : Cursor}
    (h : decodeBlock input c = .ok (i, d)) : cursorAdvances input c d := by
  refine cursorAdvances_of_address fun k _ hc => ?_
  subst hc
  obtain ⟨j, hd, hj, hle⟩ := decodeBlock_pos h
  exact ⟨j, hd, by omega, hle⟩

/-! ### The output only grows (10_state.md R19, R23) -/

/-- From `s` to `t` bytes have been appended below the capacity: no written cell changes, and `OUT` stays canonical and
filled. -/
structure OutputGrows (capacity : Nat) (s t : State) : Prop where
  destPos_le : s.destPos ≤ t.destPos
  le_capacity : s.destPos ≤ capacity → t.destPos ≤ capacity
  written : ∀ a, a < s.destPos → t.out.read a = s.out.read a
  filled : outFilled s → outFilled t
  mem : s.out.wf → t.out.wf

theorem OutputGrows.of_same {capacity : Nat} {s t : State} (hd : t.destPos = s.destPos) (ho : t.out = s.out) :
    OutputGrows capacity s t where
  destPos_le := hd.ge
  le_capacity h := hd.symm ▸ h
  written a _ := by rw [ho]
  filled h a := by rw [ho, hd]; exact h a
  mem h := ho.symm ▸ h

theorem OutputGrows.trans {capacity : Nat} {s t u : State} (h : OutputGrows capacity s t)
    (k : OutputGrows capacity t u) : OutputGrows capacity s u where
  destPos_le := Nat.le_trans h.destPos_le k.destPos_le
  le_capacity hs := k.le_capacity (h.le_capacity hs)
  written a ha := (k.written a (Nat.lt_of_lt_of_le ha h.destPos_le)).trans (h.written a ha)
  filled hs := k.filled (h.filled hs)
  mem hs := k.mem (h.mem hs)

theorem OutputGrows.appendByte {capacity : Nat} {s : State} (h : s.destPos < capacity) (b : Byte) :
    OutputGrows capacity s (s.appendByte b) where
  destPos_le := Nat.le_succ _
  le_capacity _ := h
  written a ha := Memory.read_write_other _ _ (by omega)
  filled hs := outFilled_appendByte hs b
  mem hs := Memory.write_wf hs _ _

theorem copyBytes_outputGrows {capacity offset len : Nat} {s t : State}
    (h : copyBytes capacity offset len s = .next t) : OutputGrows capacity s t := by
  obtain ⟨-, hd, hcap, hread, hfill, hwf⟩ := copyBytes_next h
  exact ⟨by omega, fun _ => by omega, fun a ha => hread a (.inl ha), hfill, hwf⟩

/-! ### The parameters of a call -/

theorem sameCall_refl (s : State) : sameCall s s := ⟨rfl, rfl, rfl, rfl, rfl⟩

theorem sameCall_trans {s t u : State} (h : sameCall s t) (k : sameCall t u) : sameCall s u := by
  obtain ⟨h1, h2, h3, h4, h5⟩ := h
  obtain ⟨k1, k2, k3, k4, k5⟩ := k
  exact ⟨k1.trans h1, k2.trans h2, k3.trans h3, k4.trans h4, k5.trans h5⟩

/-- `t` is what a fault leaves, raised in the state `s` or, for a RAW run, in one that the run has come to. -/
def faultsFrom (s t : State) : Prop := ∃ e u, e ≠ .none ∧ sameCall s u ∧ t = u.raised e

theorem faultsFrom_of_sameCall {s t u : State} (h : sameCall s t) (k : faultsFrom t u) : faultsFrom s u := by
  obtain ⟨e, v, he, hv, rfl⟩ := k
  exact ⟨e, v, he, sameCall_trans h hv, rfl⟩

theorem faultsFrom_raised (s : State) {e : Err} (he : e ≠ .none) : faultsFrom s (s.raised e) :=
  ⟨e, s, he, sameCall_refl s, rfl⟩

theorem faultsFrom_of_raise {s t : State} {e : Err} (he : e ≠ .none) (h : raise e s = .next t) : faultsFrom s t := by
  cases h
  exact faultsFrom_raised s he

theorem decodeErr_ne_none (e : DecodeError) : decodeErr e ≠ .none := by cases e <;> decide

/-! ### What a block does -/

/-- What a PXA block that raises no fault can do to the state it runs in: it writes `CUR`, the tables and the output,
and nothing else. -/
structure BlockRan (s t : State) : Prop where
  frame : t = { s with cur := t.cur, lit := t.lit, lpos := t.lpos, out := t.out, destPos := t.destPos }
  cursor : cursorAdvances s.input s.cur t.cur
  tables : tablesInverse s.lit s.lpos → tablesInverse t.lit t.lpos
  output : OutputGrows s.maxLen.toNat s t

theorem BlockRan.sameCall {s t : State} (h : BlockRan s t) : sameCall s t := by
  rw [h.frame]
  exact sameCall_refl s

theorem BlockRan.refl (s : State) : BlockRan s s := ⟨rfl, cursorAdvances_refl _ _, id, .of_same rfl rfl⟩

theorem BlockRan.trans {s t u : State} (h : BlockRan s t) (k : BlockRan t u) : BlockRan s u where
  frame := by
    have hs := h.frame
    have ht := k.frame
    rw [ht, hs]
  cursor := cursorAdvances_trans h.cursor (by simpa only [congrArg State.input h.frame] using k.cursor)
  tables hs := k.tables (h.tables hs)
  output := h.output.trans (by simpa only [congrArg State.maxLen h.frame] using k.output)

theorem BlockRan.setCursor {s : State} {c : Cursor} (h : cursorAdvances s.input s.cur c) : BlockRan s (s.setCursor c) :=
  ⟨rfl, h, id, .of_same rfl rfl⟩

theorem BlockRan.appendByte {s : State} (h : s.destPos < s.maxLen.toNat) (b : Byte) : BlockRan s (s.appendByte b) :=
  ⟨rfl, cursorAdvances_refl _ _, id, .appendByte h b⟩

theorem BlockRan.moveToFront (p : Byte) (s : State) : BlockRan s (s.moveToFront p (readTable s.lit p)) :=
  ⟨rfl, cursorAdvances_refl _ _, tablesInverse_moveToFront (t := ⟨s.lit, s.lpos⟩), .of_same rfl rfl⟩

theorem BlockRan.of_onlyAppends {s t : State} (h : onlyAppends s t) (ho : OutputGrows s.maxLen.toNat s t) :
    BlockRan s t where
  frame := by rw [h]
  cursor := by rw [h]; exact cursorAdvances_refl _ _
  tables := by rw [h]; exact id
  output := ho

theorem literalBlock_ran {e v : Nat} {s t : State} (h : literalBlock e v s = .next t) :
    faultsFrom s t ∨ BlockRan s t := by
  obtain ⟨-, rfl⟩ | ⟨-, hlt, rfl⟩ := literalBlock_cases h
  · exact .inl (faultsFrom_raised s (by decide))
  · exact .inr ((BlockRan.appendByte hlt _).trans (.moveToFront _ (s.appendByte _)))

theorem copyBlock_ran {offset len : Nat} {s t : State} (h : copyBlock offset len s = .next t) :
    faultsFrom s t ∨ BlockRan s t := by
  obtain ⟨-, hc⟩ | ⟨-, hc⟩ := copyBlock_cases offset len s
  · exact .inl (faultsFrom_of_raise (by decide) (hc.symm.trans h))
  · rw [hc] at h
    exact .inr (.of_onlyAppends (copyBytes_next h).1 (copyBytes_outputGrows h))

theorem rawRun_ran {k : Nat} {s t : State} (h : rawRun k s = .next t) : faultsFrom s t ∨ BlockRan s t := by
  induction k generalizing s with
  | zero =>
    cases h
    exact .inr (.refl _)
  | succ k ih =>
    obtain ⟨e, -, rfl⟩ | ⟨c, hg, rfl⟩ | ⟨v, c, hg, -, hlt, hr⟩ := rawRun_cases h
    · exact .inl (faultsFrom_raised s (decodeErr_ne_none e))
    · exact .inr (.setCursor (getBits_cursorAdvances hg))
    · have hone : BlockRan s ((s.setCursor c).appendByte (BitVec.ofNat 8 v)) :=
        (BlockRan.setCursor (getBits_cursorAdvances hg)).trans (.appendByte (s := s.setCursor c) hlt _)
      exact (ih hr).imp (faultsFrom_of_sameCall hone.sameCall) hone.trans

/-- Every instruction of the block encoding raises a fault or does what a block can do. -/
theorem exec_block {i : Instr} {s t : State} (hi : i.phase = .pxaBlocks) (h : exec i s = .next t) :
    faultsFrom s t ∨ BlockRan s t := by
  cases i
  case lit0 | lit1 | lit2 | lit3 | lit4 | litE5 | litE6 | litE7 | litE8 | litE9 | litE10 | litE11 =>
    exact literalBlock_ran h
  case litE12 | litE13 | litE14 | litE15 | litE16 => exact .inl (faultsFrom_of_raise (by decide) h)
  case copy15 | copy10 | copy5 => exact copyBlock_ran h
  case raw => exact rawRun_ran h
  case p8Esc | p8Sym | p8Back | hdrPxa | hdrP8 | sniffPxa | sniffP8 | sniffLegacy => cases hi

/-! ### What a code does -/

/-- What a P8 code that raises no fault does to the state it runs in: it appends to the output. -/
structure CodeRan (s t : State) : Prop where
  frame : onlyAppends s t
  output : OutputGrows s.p8Cap s t

theorem CodeRan.sameCall {s t : State} (h : CodeRan s t) : sameCall s t := by
  rw [h.frame]
  exact sameCall_refl s

theorem putByte_ran {b : Byte} {s t : State} (h : putByte s.p8Cap b s = .next t) : CodeRan s t := by
  obtain ⟨hlt, rfl⟩ := putByte_next_iff.1 h
  exact ⟨onlyAppends_appendByte b s, .appendByte hlt b⟩

theorem p8Copy_ran {offset len : Nat} {s t : State} (h : p8Copy offset len s = .next t) :
    faultsFrom s t ∨ CodeRan s t := by
  obtain ⟨-, hc⟩ | ⟨-, hc⟩ := p8Copy_cases offset len s
  · exact .inl (faultsFrom_of_raise (by decide) (hc.symm.trans h))
  · rw [hc] at h
    exact .inr ⟨(copyBytes_next h).1, copyBytes_outputGrows h⟩

/-- Every instruction of the code encoding raises a fault or appends. -/
theorem exec_code {i : Instr} {s t : State} (hi : i.phase = .p8Codes) (h : exec i s = .next t) :
    faultsFrom s t ∨ CodeRan s t := by
  cases i
  case p8Esc | p8Sym => exact .inr (putByte_ran h)
  case p8Back => exact p8Copy_ran h
  all_goals cases hi

/-! ### What a step does -/

/-- Everything a running step can do: raise a fault, route the call, enter a loop after its header, run one block or one
code, or end a loop. -/
inductive Transition (s : State) : State → Prop
  | faulted {t : State} (h : faultsFrom s t) : Transition s t
  | sniffedPxa (hp : s.phase = .sniff) : Transition s (s.routed .pxa .pxaHeader)
  | sniffedP8 (hp : s.phase = .sniff) : Transition s (s.routed .p8 .p8Header)
  | pxaHeader (rawLen compLen : Half) (hp : s.phase = .pxaHeader) (hlen : headerLen ≤ s.input.length) :
      Transition s (s.pxaStarted rawLen compLen)
  | p8Header (len : Half) (hp : s.phase = .p8Header) (hlen : headerLen ≤ s.input.length)
      (hcap : len.toNat ≤ p8Capacity s.entry s.cap s.p8OutCap) :
      Transition s (s.p8Started len (p8Capacity s.entry s.cap s.p8OutCap))
  | block {i : Instr} {c : Cursor} {t : State} (hp : s.phase = .pxaBlocks)
      (hd : decodeBlock s.input s.cur = .ok (i, c)) (hr : BlockRan (s.setCursor c) t) : Transition s t
  | pxaDone (hp : s.phase = .pxaBlocks) (hfull : s.destPos = s.maxLen.toNat) :
      Transition s (s.finished s.maxLen.toNat)
  | code {i : Instr} {n : Nat} {t : State} (hp : s.phase = .p8Codes) (hd : decodeCode s.input s.p8Src = .ok (i, n))
      (hr : CodeRan (s.setSource n) t) : Transition s t
  | p8Done (hp : s.phase = .p8Codes) : Transition s (s.finished (stripTrailer s.cfg s.out s.destPos))

/-- The three routes of the Dispatcher (45_dispatcher.md R161, R162). -/
theorem exec_sniff {i : Instr} {s t : State} (hp : s.phase = .sniff) (hi : i.phase = .sniff) (h : exec i s = .next t) :
    Transition s t := by
  cases i
  case sniffPxa =>
    cases h
    exact .sniffedPxa hp
  case sniffP8 =>
    cases h
    exact .sniffedP8 hp
  case sniffLegacy =>
    cases h
    exact .faulted ⟨.unsupported, s.routed .legacy s.phase, by decide, sameCall_refl s, rfl⟩
  all_goals cases hi

/-- HDR.P8 (46_p8_decoder.md R172). -/
theorem execHdrP8_transition {len : Half} {s t : State} (hp : s.phase = .p8Header) (hlen : headerLen ≤ s.input.length)
    (h : execHdrP8 len s = .next t) : Transition s t := by
  simp only [execHdrP8] at h
  split at h
  · exact .faulted (faultsFrom_of_raise (by decide) h)
  · cases h
    exact .p8Header len hp hlen (by omega)

/-- The inversion of a step that answers. -/
theorem step_transition {s t : State} (h : step s = .next t) : Transition s t := by
  have hs := running_of_step_next h
  have rejects : ∀ {e : DecodeError}, step s = .next (s.raised (decodeErr e)) → Transition s t := fun {e} he =>
    .faulted (faultsFrom_of_raise (decodeErr_ne_none e) (he.symm.trans h))
  cases hp : s.phase with
  | sniff =>
    obtain ⟨e, -, he⟩ | ⟨i, hd, hi⟩ := step_sniff hs hp
    · exact rejects he
    · exact exec_sniff hp (decodeSniff_ok hd).1 (hi.symm.trans h)
  | pxaHeader =>
    obtain ⟨e, -, he⟩ | ⟨i, hd, hi⟩ := step_pxaHeader hs hp
    · exact rejects he
    · obtain ⟨⟨r, k, rfl⟩, hlen, -⟩ := decodePxaHeader_ok hd
      cases hi.symm.trans h
      exact .pxaHeader r k hp hlen
  | p8Header =>
    obtain ⟨e, -, he⟩ | ⟨i, hd, hi⟩ := step_p8Header hs hp
    · exact rejects he
    · obtain ⟨⟨len, rfl⟩, hlen⟩ := decodeP8Header_ok hd
      exact execHdrP8_transition hp hlen (hi.symm.trans h)
  | pxaBlocks =>
    obtain ⟨-, hend⟩ | ⟨-, e, -, he⟩ | ⟨-, i, c, hd, hi⟩ := step_block hs hp
    · obtain ⟨hfull, hf⟩ | ⟨-, hf⟩ := finishPxa_cases s
      · cases (hend.trans hf).symm.trans h
        exact .pxaDone hp hfull
      · exact .faulted (faultsFrom_of_raise (by decide) ((hend.trans hf).symm.trans h))
    · exact rejects he
    · obtain hfault | hran := exec_block (decodeBlock_phase hd) (hi.symm.trans h)
      · exact .faulted (faultsFrom_of_sameCall (sameCall_refl s) hfault)
      · exact .block hp hd hran
  | p8Codes =>
    obtain ⟨-, hend⟩ | ⟨-, e, -, he⟩ | ⟨-, i, n, hd, hi⟩ := step_code hs hp
    · cases hend.symm.trans h
      exact .p8Done hp
    · exact rejects he
    · obtain hfault | hran := exec_code (decodeCode_pos hd).1 (hi.symm.trans h)
      · exact .faulted (faultsFrom_of_sameCall (sameCall_refl s) hfault)
      · exact .code hp hd hran

/-! ### The invariant -/

/-- A running state meets the invariant when its memory is canonical and it meets the invariant of a running call. -/
theorem State.Inv.of_running {s : State} (hs : s.status = .running) (hm : s.out.wf) (hr : RunningInv s) : s.Inv where
  mem := hm
  running _ := hr
  done h := by simp [hs] at h
  fault h := by simp [hs] at h

theorem State.Inv.of_done {s : State} (hs : s.status = .done) (hm : s.out.wf) (hd : DoneInv s) : s.Inv where
  mem := hm
  running h := by simp [hs] at h
  done _ := hd
  fault h := by simp [hs] at h

theorem faultsFrom_inv {s t : State} (h : faultsFrom s t) : t.Inv := by
  obtain ⟨e, u, he, -, rfl⟩ := h
  exact
    { mem := Memory.nil_wf
      running := fun h => by simp at h
      done := fun h => by simp at h
      fault := fun _ => ⟨he, rfl⟩ }

/-- Where a call starts to fill an empty output, no cell is written. -/
theorem outFilled_of_empty {s : State} (ho : s.out = []) (hd : s.destPos = 0) : outFilled s :=
  outFilled_of_range (by rw [ho, hd]; rfl)

theorem phaseInv_sniff {s : State} (hp : s.phase = .sniff) :
    phaseInv s ↔ s.format = .none ∧ s.entry = .auto ∧ s.destPos = 0 := by
  simp only [phaseInv, hp]

theorem phaseInv_pxaHeader {s : State} (hp : s.phase = .pxaHeader) :
    phaseInv s ↔ s.format = .pxa ∧ s.destPos = 0 := by
  simp only [phaseInv, hp]

theorem phaseInv_pxaBlocks {s : State} (hp : s.phase = .pxaBlocks) :
    phaseInv s ↔ s.format = .pxa ∧ s.maxLen = pxaCapacity s.cap s.rawLen ∧ s.destPos ≤ s.maxLen.toNat ∧
      headerLen ≤ s.cur.byte := by
  simp only [phaseInv, hp]

theorem phaseInv_p8Header {s : State} (hp : s.phase = .p8Header) :
    phaseInv s ↔ s.format = .p8 ∧ s.destPos = 0 := by
  simp only [phaseInv, hp]

theorem phaseInv_p8Codes {s : State} (hp : s.phase = .p8Codes) :
    phaseInv s ↔ s.format = .p8 ∧ s.p8Cap = p8Capacity s.entry s.cap s.p8OutCap ∧ s.p8Len.toNat ≤ s.p8Cap ∧
      s.destPos ≤ s.p8Cap ∧ headerLen ≤ s.p8Src ∧ s.p8Src ≤ s.input.length := by
  simp only [phaseInv, hp]

section
variable {s t : State}

theorem RunningInv.routed (h : RunningInv s) (hp : s.phase = .sniff) {f : Format} {p : Phase}
    (hfp : f = .pxa ∧ p = .pxaHeader ∨ f = .p8 ∧ p = .p8Header) : RunningInv (s.routed f p) where
  cfg := h.cfg
  err := h.err
  result := h.result
  cursor := h.cursor
  tables := h.tables
  filled := h.filled
  phase := by
    obtain ⟨-, -, hd⟩ := (phaseInv_sniff hp).1 h.phase
    obtain ⟨rfl, rfl⟩ | ⟨rfl, rfl⟩ := hfp
    · exact (phaseInv_pxaHeader rfl).2 ⟨rfl, hd⟩
    · exact (phaseInv_p8Header rfl).2 ⟨rfl, hd⟩

theorem RunningInv.pxaStarted (h : RunningInv s) (hp : s.phase = .pxaHeader) (hlen : headerLen ≤ s.input.length)
    (r k : Half) : RunningInv (s.pxaStarted r k) where
  cfg := h.cfg
  err := h.err
  result := h.result
  cursor := cursorLegal_cursorAt (k := 8 * headerLen) (Nat.mul_le_mul_left 8 hlen)
  tables := tablesInverse_inverseTable h.cfg.1
  filled := outFilled_of_empty rfl rfl
  phase :=
    have ⟨hf, _⟩ := (phaseInv_pxaHeader hp).1 h.phase
    (phaseInv_pxaBlocks rfl).2 ⟨hf, rfl, Nat.zero_le _, Nat.le_refl _⟩

theorem RunningInv.p8Started (h : RunningInv s) (hp : s.phase = .p8Header) (hlen : headerLen ≤ s.input.length)
    {len : Half} (hcap : len.toNat ≤ p8Capacity s.entry s.cap s.p8OutCap) :
    RunningInv (s.p8Started len (p8Capacity s.entry s.cap s.p8OutCap)) := by
  obtain ⟨hf, hd⟩ := (phaseInv_p8Header hp).1 h.phase
  exact
    { cfg := h.cfg
      err := h.err
      result := h.result
      cursor := h.cursor
      tables := h.tables
      filled := fun a => by simpa [hd] using h.filled a
      phase := (phaseInv_p8Codes rfl).2 ⟨hf, rfl, hcap, Nat.zero_le _, Nat.le_refl _, hlen⟩ }

/-- A block that has run, and before it the reading of its fields. -/
theorem RunningInv.blockRan (h : RunningInv s) (hp : s.phase = .pxaBlocks) (hr : BlockRan s t) : RunningInv t where
  cfg := by rw [hr.frame]; exact h.cfg
  err := by rw [hr.frame]; exact h.err
  result := by rw [hr.frame]; exact h.result
  cursor := by rw [congrArg State.input hr.frame]; exact (hr.cursor h.cursor).1
  tables := hr.tables h.tables
  filled := hr.output.filled h.filled
  phase := by
    obtain ⟨hf, hmax, hd, hb⟩ := (phaseInv_pxaBlocks hp).1 h.phase
    refine (phaseInv_pxaBlocks ((congrArg State.phase hr.frame).trans hp)).2
      ⟨(congrArg State.format hr.frame).trans hf, by rw [hr.frame]; exact hmax, ?_,
        hb.trans (cursorAdvances_byte_le hr.cursor h.cursor)⟩
    rw [congrArg State.maxLen hr.frame]
    exact hr.output.le_capacity hd

theorem RunningInv.setSource (h : RunningInv s) (hp : s.phase = .p8Codes) {n : Nat} (hle : s.p8Src ≤ n)
    (hn : n ≤ s.input.length) : RunningInv (s.setSource n) where
  cfg := h.cfg
  err := h.err
  result := h.result
  cursor := h.cursor
  tables := h.tables
  filled := h.filled
  phase :=
    have ⟨hf, hcap, hlen, hd, hsrc, _⟩ := (phaseInv_p8Codes hp).1 h.phase
    (phaseInv_p8Codes (s := s.setSource n) hp).2 ⟨hf, hcap, hlen, hd, hsrc.trans hle, hn⟩

theorem RunningInv.codeRan (h : RunningInv s) (hp : s.phase = .p8Codes) (hr : CodeRan s t) : RunningInv t where
  cfg := by rw [hr.frame]; exact h.cfg
  err := by rw [hr.frame]; exact h.err
  result := by rw [hr.frame]; exact h.result
  cursor := by rw [hr.frame]; exact h.cursor
  tables := by rw [hr.frame]; exact h.tables
  filled := hr.output.filled h.filled
  phase := by
    obtain ⟨hf, hcap, hlen, hd, hsrc⟩ := (phaseInv_p8Codes hp).1 h.phase
    have ht := hr.output.le_capacity hd
    rw [phaseInv_p8Codes ((congrArg State.phase hr.frame).trans hp), hr.frame]
    exact ⟨hf, hcap, hlen, ht, hsrc⟩

theorem RunningInv.finished (h : RunningInv s) {n : Nat} (hn : n ≤ s.destPos)
    (hpxa : s.format = .pxa → n = s.destPos ∧ n = s.maxLen.toNat) : DoneInv (s.finished n) where
  err := h.err
  filled := h.filled
  tables := h.tables
  returned := ⟨n, rfl, hn, hpxa⟩

end

/-- One case per thing a step can do. -/
theorem Transition.inv {s t : State} (h : Transition s t) (hs : s.status = .running) (hi : s.Inv) : t.Inv := by
  have hr := hi.running hs
  cases h with
  | faulted h => exact faultsFrom_inv h
  | sniffedPxa hp => exact .of_running hs hi.mem (hr.routed hp (.inl ⟨rfl, rfl⟩))
  | sniffedP8 hp => exact .of_running hs hi.mem (hr.routed hp (.inr ⟨rfl, rfl⟩))
  | pxaHeader r k hp hlen => exact .of_running hs Memory.nil_wf (hr.pxaStarted hp hlen r k)
  | p8Header len hp hlen hcap => exact .of_running hs hi.mem (hr.p8Started hp hlen hcap)
  | block hp hd hb =>
    have hrun := (BlockRan.setCursor (decodeBlock_cursorAdvances hd)).trans hb
    exact .of_running ((congrArg State.status hrun.frame).trans hs) (hrun.output.mem hi.mem) (hr.blockRan hp hrun)
  | pxaDone hp hfull => exact .of_done rfl hi.mem (hr.finished hfull.ge fun _ => ⟨hfull.symm, rfl⟩)
  | code hp hd hc =>
    obtain ⟨-, hlt, hle⟩ := decodeCode_pos hd
    exact .of_running ((congrArg State.status hc.frame).trans hs) (hc.output.mem hi.mem)
      ((hr.setSource hp hlt.le hle).codeRan hp hc)
  | p8Done hp =>
    have hf := ((phaseInv_p8Codes hp).1 hr.phase).1
    exact .of_done rfl hi.mem (hr.finished (stripTrailer_le _ _ _) fun h => by simp [hf] at h)

/-- Settles O47: each thing a step can do keeps the invariant. -/
theorem stepKeepsInvariant : Obligations.StepKeepsInvariant := fun _ _ hi h =>
  (step_transition h).inv (running_of_step_next h) hi

/-- Settles O4: the cursor is bit address 0, the output is empty, and `LPOS` is built as the inverse of `LIT_INIT`. -/
theorem everyStartMeetsInvariant : Obligations.EveryStartMeetsInvariant := by
  intro cfg input cap entry p8OutCap hcfg
  refine .of_running rfl Memory.nil_wf
    { cfg := hcfg
      err := rfl
      result := rfl
      cursor := cursorLegal_cursorAt (k := 0) (Nat.zero_le _)
      tables := tablesInverse_inverseTable hcfg.1
      filled := outFilled_of_empty rfl rfl
      phase := ?_ }
  cases entry
  case auto => exact (phaseInv_sniff rfl).2 ⟨rfl, rfl, rfl⟩
  case pxa => exact (phaseInv_pxaHeader rfl).2 ⟨rfl, rfl⟩
  case p8 => exact (phaseInv_p8Header rfl).2 ⟨rfl, rfl⟩

/-! ### The parameters and the output -/

theorem Transition.sameCall {s t : State} (h : Transition s t) : sameCall s t := by
  cases h with
  | faulted h =>
    obtain ⟨e, u, -, hu, rfl⟩ := h
    exact hu
  | block _ _ hr => exact hr.sameCall
  | code _ _ hr => exact hr.sameCall
  | sniffedPxa | sniffedP8 | pxaHeader | p8Header | pxaDone | p8Done => exact sameCall_refl s

/-- Settles O45: nothing a step can do writes a parameter. -/
theorem stepKeepsParameters : Obligations.StepKeepsParameters := fun _ _ h => (step_transition h).sameCall

/-- The length that the output may reach in the phase of the call: `MAX_LEN` or `P8_CAP` in a loop, nothing before. -/
def State.capacity (s : State) : Nat :=
  match s.phase with
  | .pxaBlocks => s.maxLen.toNat
  | .p8Codes => s.p8Cap
  | .sniff | .pxaHeader | .p8Header => 0

theorem capacity_pxaBlocks {s : State} (hp : s.phase = .pxaBlocks) : s.capacity = s.maxLen.toNat := by
  simp only [State.capacity, hp]

theorem capacity_p8Codes {s : State} (hp : s.phase = .p8Codes) : s.capacity = s.p8Cap := by
  simp only [State.capacity, hp]

theorem destPos_le_capacity {s : State} (h : phaseInv s) : s.destPos ≤ s.capacity := by
  cases hp : s.phase with
  | sniff => exact ((phaseInv_sniff hp).1 h).2.2.le.trans (Nat.zero_le _)
  | pxaHeader => exact ((phaseInv_pxaHeader hp).1 h).2.le.trans (Nat.zero_le _)
  | p8Header => exact ((phaseInv_p8Header hp).1 h).2.le.trans (Nat.zero_le _)
  | pxaBlocks =>
    obtain ⟨-, -, hd, -⟩ := (phaseInv_pxaBlocks hp).1 h
    rwa [capacity_pxaBlocks hp]
  | p8Codes =>
    obtain ⟨-, -, -, hd, -⟩ := (phaseInv_p8Codes hp).1 h
    rwa [capacity_p8Codes hp]

/-- Nothing a step can do without a fault shrinks or changes the output. The PXA header empties `OUT`, which holds
nothing then. -/
theorem Transition.outputGrows {s t : State} (h : Transition s t) (hr : RunningInv s) (ht : t.status ≠ .fault) :
    OutputGrows s.capacity s t := by
  cases h with
  | faulted h =>
    obtain ⟨e, u, -, -, rfl⟩ := h
    exact absurd rfl ht
  | sniffedPxa | sniffedP8 | pxaDone | p8Done => exact .of_same rfl rfl
  | pxaHeader r k hp _ =>
    have hd := ((phaseInv_pxaHeader hp).1 hr.phase).2
    exact
      { destPos_le := hd.le
        le_capacity := fun _ => Nat.zero_le _
        written := fun a ha => absurd ha (by omega)
        filled := fun _ => outFilled_of_empty rfl rfl
        mem := fun _ => Memory.nil_wf }
  | p8Header len hp _ _ => exact .of_same ((phaseInv_p8Header hp).1 hr.phase).2.symm rfl
  | block hp _ hb =>
    rw [capacity_pxaBlocks hp]
    refine OutputGrows.trans ?_ hb.output
    exact .of_same rfl rfl
  | code hp _ hc =>
    rw [capacity_p8Codes hp]
    refine OutputGrows.trans ?_ hc.output
    exact .of_same rfl rfl

/-- Settles O46: a step without a fault appends, at most up to the capacity of its phase, which `DEST_POS` has not
passed. -/
theorem outputOnlyGrows : Obligations.OutputOnlyGrows := by
  intro s t hi hs h ht
  have hr := hi.running hs
  have hgrows := (step_transition h).outputGrows hr ht
  have hle := hgrows.le_capacity (destPos_le_capacity hr.phase)
  exact ⟨hgrows.destPos_le, hgrows.written, fun hp => capacity_pxaBlocks hp ▸ hle,
    fun hp => capacity_p8Codes hp ▸ hle⟩

/-! ### The P8 path does not read the registers of the PXA path (10_state.md R28) -/

/-- Hiding twice is hiding once, whatever the step answered. -/
theorem onNext_hidePxa_idem (o : Outcome) : onNext hidePxa (onNext hidePxa o) = onNext hidePxa o := by
  cases o <;> rfl

theorem putByte_hidePxa (capacity : Nat) (b : Byte) (s : State) :
    putByte capacity b (hidePxa s) = onNext hidePxa (putByte capacity b s) := by
  by_cases h : s.destPos < capacity
  · rw [putByte_of_lt h, putByte_of_lt (s := hidePxa s) h]
    rfl
  · unfold putByte
    rw [if_neg h, if_neg (show ¬ (hidePxa s).destPos < capacity from h)]
    rfl

/-- The byte-serial copy reads `OUT` and `DEST_POS` only, so it commutes with hiding the registers. -/
theorem copyBytes_hidePxa (capacity offset len : Nat) (s : State) :
    copyBytes capacity offset len (hidePxa s) = onNext hidePxa (copyBytes capacity offset len s) := by
  induction len generalizing s with
  | zero => rfl
  | succ n ih =>
    have hread : (hidePxa s).readOut ((hidePxa s).destPos - offset) = s.readOut (s.destPos - offset) := rfl
    rw [copyBytes, copyBytes, hread]
    cases s.readOut (s.destPos - offset) with
    | none => rfl
    | some b =>
      dsimp only
      rw [putByte_hidePxa]
      cases putByte capacity b s with
      | next u => exact ih u
      | fault r => rfl
      | refused r => rfl

/-- A fault frees the hidden registers, so what they held before makes no difference. -/
theorem raise_hidePxa (e : Err) (s : State) : onNext hidePxa (raise e s) = onNext hidePxa (raise e (hidePxa s)) := rfl

theorem p8Copy_hidePxa (offset len : Nat) (s : State) :
    onNext hidePxa (p8Copy offset len s) = onNext hidePxa (p8Copy offset len (hidePxa s)) := by
  have hchecks : copyRejected offset len (hidePxa s).p8Cap (hidePxa s).destPos =
      copyRejected offset len s.p8Cap s.destPos := rfl
  unfold p8Copy
  rw [hchecks]
  cases copyRejected offset len s.p8Cap s.destPos with
  | true => exact raise_hidePxa _ s
  | false =>
    have hcopy := congrArg (onNext hidePxa) (copyBytes_hidePxa s.p8Cap offset len s)
    rw [onNext_hidePxa_idem] at hcopy
    exact hcopy.symm

theorem exec_code_hidePxa {i : Instr} (hi : i.phase = .p8Codes) (s : State) :
    onNext hidePxa (exec i s) = onNext hidePxa (exec i (hidePxa s)) := by
  have put : ∀ b, onNext hidePxa (putByte s.p8Cap b s) = onNext hidePxa (putByte s.p8Cap b (hidePxa s)) := fun b => by
    rw [putByte_hidePxa, onNext_hidePxa_idem]
  cases i
  case p8Esc b => exact put b
  case p8Sym val => exact put (p8Symbol s.cfg.alphabet val)
  case p8Back val val2 => exact p8Copy_hidePxa (p8Offset val val2) (p8Length val2) s
  all_goals cases hi

theorem execHdrP8_hidePxa (len : Half) (s : State) :
    onNext hidePxa (execHdrP8 len s) = onNext hidePxa (execHdrP8 len (hidePxa s)) := by
  have hcapacity : p8Capacity (hidePxa s).entry (hidePxa s).cap (hidePxa s).p8OutCap =
    p8Capacity s.entry s.cap s.p8OutCap := rfl
  simp only [execHdrP8, hcapacity]
  split
  · exact raise_hidePxa _ s
  · rfl

/-! The step of the P8 path, one equation per thing the fetch can find. -/

theorem fetch_p8Header {s : State} (hs : s.status = .running) (hp : s.phase = .p8Header) :
    fetch s = fetchByIndex (decodeP8Header s.input) s := by
  rw [fetch_running hs, fetchRunning, hp]

theorem step_p8Header_of_error {s : State} {e : DecodeError} (hs : s.status = .running) (hp : s.phase = .p8Header)
    (hd : decodeP8Header s.input = .error e) : step s = raise (decodeErr e) s :=
  step_of_ended (by rw [fetch_p8Header hs hp, hd]; rfl)

theorem step_p8Header_of_ok {s : State} {i : Instr} (hs : s.status = .running) (hp : s.phase = .p8Header)
    (hd : decodeP8Header s.input = .ok i) : step s = exec i s :=
  step_of_run (by rw [fetch_p8Header hs hp, hd]; rfl)

theorem fetch_p8Codes {s : State} (hs : s.status = .running) (hp : s.phase = .p8Codes) : fetch s = fetchCode s := by
  rw [fetch_running hs, fetchRunning, hp]

theorem step_code_of_done {s : State} (hs : s.status = .running) (hp : s.phase = .p8Codes) (hm : moreCodes s = false) :
    step s = finishP8 s :=
  step_of_ended (by rw [fetch_p8Codes hs hp, fetchCode, hm]; rfl)

theorem step_code_of_error {s : State} {e : DecodeError} (hs : s.status = .running) (hp : s.phase = .p8Codes)
    (hm : moreCodes s = true) (hd : decodeCode s.input s.p8Src = .error e) : step s = raise (decodeErr e) s :=
  step_of_ended (by rw [fetch_p8Codes hs hp, fetchCode, hm, hd]; rfl)

theorem step_code_of_ok {s : State} {i : Instr} {n : Nat} (hs : s.status = .running) (hp : s.phase = .p8Codes)
    (hm : moreCodes s = true) (hd : decodeCode s.input s.p8Src = .ok (i, n)) : step s = exec i (s.setSource n) :=
  step_of_run (by rw [fetch_p8Codes hs hp, fetchCode, hm, hd]; rfl)

theorem step_p8Header_hidePxa {s : State} (hs : s.status = .running) (hp : s.phase = .p8Header) :
    onNext hidePxa (step s) = onNext hidePxa (step (hidePxa s)) := by
  cases hd : decodeP8Header s.input with
  | error e =>
    rw [step_p8Header_of_error hs hp hd, step_p8Header_of_error (s := hidePxa s) hs hp hd]
    exact raise_hidePxa _ s
  | ok i =>
    rw [step_p8Header_of_ok hs hp hd, step_p8Header_of_ok (s := hidePxa s) hs hp hd]
    obtain ⟨⟨len, rfl⟩, -⟩ := decodeP8Header_ok hd
    exact execHdrP8_hidePxa len s

theorem step_code_hidePxa {s : State} (hs : s.status = .running) (hp : s.phase = .p8Codes) :
    onNext hidePxa (step s) = onNext hidePxa (step (hidePxa s)) := by
  cases hm : moreCodes s with
  | false =>
    rw [step_code_of_done hs hp hm, step_code_of_done (s := hidePxa s) hs hp hm]
    rfl
  | true =>
    cases hd : decodeCode s.input s.p8Src with
    | error e =>
      rw [step_code_of_error hs hp hm hd, step_code_of_error (s := hidePxa s) hs hp hm hd]
      exact raise_hidePxa _ s
    | ok p =>
      rw [step_code_of_ok hs hp hm hd, step_code_of_ok (s := hidePxa s) hs hp hm hd]
      exact exec_code_hidePxa (decodeCode_pos hd).1 (s.setSource p.2)

/-- Settles O41: the fetch of the P8 path finds the same with the registers hidden, and each thing it can find ends the
step alike. -/
theorem p8IgnoresPxaRegisters : Obligations.P8IgnoresPxaRegisters := by
  intro s hphase
  by_cases hs : s.status = .running
  · exact hphase.elim (step_p8Header_hidePxa hs) (step_code_hidePxa hs)
  · rw [step_not_running hs, step_not_running (s := hidePxa s) hs]

end Sys2Proof.Machine
end

section
/-! PROOFS. The memory (20_memory.md R40, R49): a field is the bits of the stream at the cursor, and no running step
meets a cell of `OUT` that does not exist or holds no value. A block and a code answer a next state wherever the output
is filled and has room, which the invariant and the loop conditions give. -/

namespace Sys2Proof.Machine

/-! ### A field of the stream (20_memory.md R40) -/

/-- Settles O8: a legal cursor is a bit address, and there the laws of the reader say what a field is. -/
theorem getBitsReadsTheStreamBits : Obligations.GetBitsReadsTheStreamBits := by
  intro inp n _ c hc
  have hat := cursorAt_address hc
  generalize Cursor.address c = k at hat ⊢
  subst hat
  obtain ⟨answers, ends⟩ := readBits_cursorAt_total inp n k
  refine ⟨fun hn => by subst hn; rfl, fun hle => ?_, fun hn hlt => ends (by omega)⟩
  obtain ⟨v, hv⟩ := answers (.inr hle)
  obtain ⟨-, hlt, -, hbits⟩ := readBits_cursorAt_ok hv
  exact ⟨v, cursorAt (k + n), hv, hlt, maskLegal_cursorAt _, address_cursorAt _, hbits⟩

/-! ### The operations answer -/

theorem literalBlock_answers (e v : Nat) {s : State} (hroom : s.destPos < s.maxLen.toNat) :
    ∃ t, literalBlock e v s = .next t := by
  simp only [literalBlock]
  split
  · exact ⟨_, rfl⟩
  · rw [emitLiteral, putByte_of_lt hroom]
    exact ⟨_, rfl⟩

/-- A copy that passes the three checks reads only written cells and stays below the capacity. -/
theorem copyBytes_answers_of_accepted {offset len capacity : Nat} {s : State} (hf : outFilled s)
    (hr : copyRejected offset len capacity s.destPos = false) : ∃ t, copyBytes capacity offset len s = .next t := by
  obtain ⟨hpos, hreach, hfit⟩ := copyRejected_eq_false.1 hr
  exact copyBytes_answers hf hpos hreach hfit

theorem copyBlock_answers (offset len : Nat) {s : State} (hf : outFilled s) : ∃ t, copyBlock offset len s = .next t := by
  obtain ⟨-, hc⟩ | ⟨hr, hc⟩ := copyBlock_cases offset len s
  · exact ⟨_, hc⟩
  · rw [hc]
    exact copyBytes_answers_of_accepted hf hr

theorem p8Copy_answers (offset len : Nat) {s : State} (hf : outFilled s) : ∃ t, p8Copy offset len s = .next t := by
  obtain ⟨-, hc⟩ | ⟨hr, hc⟩ := p8Copy_cases offset len s
  · exact ⟨_, hc⟩
  · rw [hc]
    exact copyBytes_answers_of_accepted hf hr

/-- A RAW run of at most `k` bytes where `k` bytes fit. -/
theorem rawRun_answers {k : Nat} {s : State} (hfit : s.destPos + k ≤ s.maxLen.toNat) : ∃ t, rawRun k s = .next t := by
  induction k generalizing s with
  | zero => exact ⟨s, rfl⟩
  | succ k ih =>
    unfold rawRun
    split
    · exact ⟨_, rfl⟩
    · next v c _ =>
      split
      · exact ⟨_, rfl⟩
      · rw [putByte_of_lt (s := s.setCursor c) (show s.destPos < s.maxLen.toNat by omega), andThen_next]
        exact ih (show s.destPos + 1 + k ≤ s.maxLen.toNat by omega)

theorem finishPxa_answers (s : State) : ∃ t, finishPxa s = .next t := by
  obtain ⟨-, h⟩ | ⟨-, h⟩ := finishPxa_cases s
  · exact ⟨_, h⟩
  · exact ⟨_, h⟩

/-! ### The instructions answer -/

/-- A block where the block loop runs it: the output is filled and not yet full. -/
theorem exec_block_answers {i : Instr} {s : State} (hi : i.phase = .pxaBlocks) (hf : outFilled s)
    (hroom : s.destPos < s.maxLen.toNat) : ∃ t, exec i s = .next t := by
  cases i
  case lit0 | lit1 | lit2 | lit3 | lit4 | litE5 | litE6 | litE7 | litE8 | litE9 | litE10 | litE11 =>
    exact literalBlock_answers _ _ hroom
  case litE12 | litE13 | litE14 | litE15 | litE16 => exact ⟨_, rfl⟩
  case copy15 | copy10 | copy5 => exact copyBlock_answers _ _ hf
  case raw => exact rawRun_answers (by omega)
  case p8Esc | p8Sym | p8Back | hdrPxa | hdrP8 | sniffPxa | sniffP8 | sniffLegacy => cases hi

/-- A code where the code loop runs it: the output is filled and below `P8_CAP`. -/
theorem exec_code_answers {i : Instr} {s : State} (hi : i.phase = .p8Codes) (hf : outFilled s)
    (hroom : s.destPos < s.p8Cap) : ∃ t, exec i s = .next t := by
  cases i
  case p8Esc | p8Sym => exact ⟨_, putByte_of_lt hroom⟩
  case p8Back => exact p8Copy_answers _ _ hf
  all_goals cases hi

/-- The three routes of the Dispatcher, the rejected one included. -/
theorem exec_sniff_answers {i : Instr} (hi : i.phase = .sniff) (s : State) : ∃ t, exec i s = .next t := by
  cases i
  case sniffPxa | sniffP8 | sniffLegacy => exact ⟨_, rfl⟩
  all_goals cases hi

theorem execHdrP8_answers (len : Half) (s : State) : ∃ t, execHdrP8 len s = .next t := by
  simp only [execHdrP8]
  split
  · exact ⟨_, rfl⟩
  · exact ⟨_, rfl⟩

/-! ### The loops answer -/

theorem moreBlocks_eq_true {s : State} :
    moreBlocks s = true ↔ s.cur.byte < s.compLen.toNat ∧ s.destPos < s.maxLen.toNat := by
  simp only [moreBlocks, decide_eq_true_eq]

theorem moreCodes_eq_true {s : State} : moreCodes s = true ↔ s.destPos < s.p8Len.toNat := by
  simp only [moreCodes, decide_eq_true_eq]

/-- One turn of the block loop, or its end. The loop condition leaves room below `MAX_LEN` (44_pxa_engine.md R146). -/
theorem step_block_answers {s : State} (hs : s.status = .running) (hp : s.phase = .pxaBlocks) (hf : outFilled s) :
    ∃ t, step s = .next t := by
  obtain ⟨-, hend⟩ | ⟨-, e, -, he⟩ | ⟨hm, i, c, hd, hi⟩ := step_block hs hp
  · rw [hend]
    exact finishPxa_answers s
  · exact ⟨_, he⟩
  · obtain ⟨-, hroom⟩ := moreBlocks_eq_true.1 hm
    rw [hi]
    exact exec_block_answers (s := s.setCursor c) (decodeBlock_phase hd) hf hroom

/-- One turn of the code loop, or its end. The header has checked `P8_LEN` against `P8_CAP` (46_p8_decoder.md R172), so
the loop condition leaves room below `P8_CAP`. -/
theorem step_code_answers {s : State} (hs : s.status = .running) (hp : s.phase = .p8Codes) (hf : outFilled s)
    (hlen : s.p8Len.toNat ≤ s.p8Cap) : ∃ t, step s = .next t := by
  obtain ⟨-, hend⟩ | ⟨-, e, -, he⟩ | ⟨hm, i, n, hd, hi⟩ := step_code hs hp
  · exact ⟨_, hend⟩
  · exact ⟨_, he⟩
  · have hroom := (moreCodes_eq_true.1 hm).trans_le hlen
    rw [hi]
    exact exec_code_answers (s := s.setSource n) (decodeCode_pos hd).1 hf hroom

/-- Settles O48: one case per phase. Before the loops nothing is read from or written to `OUT`; in them the invariant
says that it is filled and, for P8, that the length fits the capacity. -/
theorem runningStepAnswers : Obligations.RunningStepAnswers := by
  intro s hinv hs
  have hr := hinv.running hs
  cases hp : s.phase with
  | sniff =>
    obtain ⟨e, -, he⟩ | ⟨i, hd, hi⟩ := step_sniff hs hp
    · exact ⟨_, he⟩
    · rw [hi]
      exact exec_sniff_answers (decodeSniff_ok hd).1 s
  | pxaHeader =>
    obtain ⟨e, -, he⟩ | ⟨i, hd, hi⟩ := step_pxaHeader hs hp
    · exact ⟨_, he⟩
    · obtain ⟨⟨r, k, rfl⟩, -, -⟩ := decodePxaHeader_ok hd
      exact ⟨_, hi⟩
  | p8Header =>
    obtain ⟨e, -, he⟩ | ⟨i, hd, hi⟩ := step_p8Header hs hp
    · exact ⟨_, he⟩
    · obtain ⟨⟨len, rfl⟩, -⟩ := decodeP8Header_ok hd
      rw [hi]
      exact execHdrP8_answers len s
  | pxaBlocks => exact step_block_answers hs hp hr.filled
  | p8Codes =>
    obtain ⟨-, -, hlen, -⟩ := (phaseInv_p8Codes hp).1 hr.phase
    exact step_code_answers hs hp hr.filled hlen

end Sys2Proof.Machine
end

section
/-! PROOFS. The encodings (30_encoding.md): each reader answers exactly when the bits at the cursor are the encoding of
its answer. From one such equivalence per reader follow both directions of the round trip of a PXA block. -/

namespace Sys2Proof.Machine

/-! ### Bits that stand in the stream (20_memory.md R40) -/

/-- The stream holds `bits` from bit address `k` on. -/
def streamHolds (inp : List Byte) (k : Nat) (bits : List Bool) : Prop :=
  ∀ j, j < bits.length → streamBit inp (k + j) = bits[j]?

@[simp] theorem streamHolds_nil (inp : List Byte) (k : Nat) : streamHolds inp k [] := by
  intro j hj
  cases hj

theorem streamHolds_append {inp : List Byte} {k : Nat} {xs ys : List Bool} :
    streamHolds inp k (xs ++ ys) ↔ streamHolds inp k xs ∧ streamHolds inp (k + xs.length) ys := by
  simp only [streamHolds, List.length_append]
  constructor
  · refine fun h => ⟨fun j hj => ?_, fun j hj => ?_⟩
    · rw [h j (by omega), List.getElem?_append_left hj]
    · rw [Nat.add_assoc, h _ (by omega), List.getElem?_append_right (by omega), Nat.add_sub_cancel_left]
  · rintro ⟨hx, hy⟩ j hj
    by_cases hlt : j < xs.length
    · rw [hx j hlt, List.getElem?_append_left hlt]
    · have hr := hy (j - xs.length) (by omega)
      rw [show k + xs.length + (j - xs.length) = k + j by omega] at hr
      rw [hr, List.getElem?_append_right (by omega)]

theorem streamHolds_singleton {inp : List Byte} {k : Nat} {b : Bool} :
    streamHolds inp k [b] ↔ streamBit inp k = some b := by
  simp [streamHolds]

theorem streamHolds_cons {inp : List Byte} {k : Nat} {b : Bool} {bs : List Bool} :
    streamHolds inp k (b :: bs) ↔ streamBit inp k = some b ∧ streamHolds inp (k + 1) bs := by
  rw [← List.singleton_append, streamHolds_append, streamHolds_singleton]
  rfl

theorem length_le_of_streamHolds {inp : List Byte} {k : Nat} {bits : List Bool} (h : streamHolds inp k bits) :
    bits = [] ∨ k + bits.length ≤ 8 * inp.length := by
  cases bits with
  | nil => exact .inl rfl
  | cons b bs =>
    have hlast : k + bs.length < 8 * inp.length := by
      have hsome := streamBit_isSome inp (k + bs.length)
      rw [h bs.length (by simp)] at hsome
      simpa using hsome
    exact .inr (by rw [List.length_cons]; omega)

theorem streamHolds_unique {inp : List Byte} {k : Nat} {xs ys : List Bool} (hx : streamHolds inp k xs)
    (hy : streamHolds inp k ys) (hlen : xs.length = ys.length) : xs = ys := by
  refine List.ext_getElem? fun j => ?_
  by_cases hj : j < xs.length
  · rw [← hx j hj, hy j (hlen ▸ hj)]
  · rw [List.getElem?_eq_none (by omega), List.getElem?_eq_none (by omega)]

/-- Packed bits stand in the stream at the place where they were packed. -/
theorem streamHolds_packBits (pre bits post : List Bool) :
    streamHolds (packBits (pre ++ bits ++ post)) pre.length bits := by
  intro j hj
  rw [streamBit_packBits (by simp; omega), ← List.getElem?_eq_getElem, List.append_assoc,
    List.getElem?_append_right (by omega), Nat.add_sub_cancel_left, List.getElem?_append_left hj]

/-! ### Bits and fields (40_bit_reader.md R90, R91) -/

theorem getBit_eq_ok {inp : List Byte} {k : Nat} {b : Bool} {c : Cursor} :
    getBit inp (cursorAt k) = .ok (b, c) ↔ streamBit inp k = some b ∧ c = cursorAt (k + 1) := by
  rw [getBit_cursorAt]
  cases streamBit inp k <;> simp [eq_comm]

theorem bitsValue_fieldBits {n v : Nat} (h : v < 2 ^ n) : bitsValue (fieldBits n v) = v := by
  induction n generalizing v with
  | zero => exact (Nat.lt_one_iff.1 h).symm
  | succ n ih =>
    rw [fieldBits, bitsValue, ih (by omega)]
    rcases Nat.mod_two_eq_zero_or_one v with hm | hm <;> simp [hm] <;> omega

theorem streamHolds_of_readBits {inp : List Byte} {n k v : Nat} {c : Cursor}
    (h : readBits inp n (cursorAt k) = .ok (v, c)) : streamHolds inp k (fieldBits n v) := by
  obtain ⟨-, -, -, hbits⟩ := readBits_cursorAt_ok h
  intro j hj
  rw [hbits j (by rwa [fieldBits_length] at hj), List.getElem?_eq_getElem hj, fieldBits_getElem]

theorem readBits_eq_ok {inp : List Byte} {n k v : Nat} {c : Cursor} :
    readBits inp n (cursorAt k) = .ok (v, c) ↔
      v < 2 ^ n ∧ streamHolds inp k (fieldBits n v) ∧ c = cursorAt (k + n) := by
  constructor
  · intro h
    obtain ⟨hc, hlt, -, -⟩ := readBits_cursorAt_ok h
    exact ⟨hlt, streamHolds_of_readBits h, hc⟩
  · rintro ⟨hlt, hv, rfl⟩
    have hfits : n = 0 ∨ k + n ≤ 8 * inp.length := by
      have := length_le_of_streamHolds hv
      rwa [← List.length_eq_zero_iff, fieldBits_length] at this
    obtain ⟨w, hw⟩ := (readBits_cursorAt_total inp n k).1 hfits
    obtain ⟨-, hwlt, -, -⟩ := readBits_cursorAt_ok hw
    have hfield : fieldBits n w = fieldBits n v :=
      streamHolds_unique (streamHolds_of_readBits hw) hv (by rw [fieldBits_length, fieldBits_length])
    rw [hw, ← bitsValue_fieldBits hwlt, hfield, bitsValue_fieldBits hlt]

theorem getBits_eq_ok {inp : List Byte} {n k v : Nat} {h : n ≤ getBitsMax} {c : Cursor} :
    getBits inp n h (cursorAt k) = .ok (v, c) ↔
      v < 2 ^ n ∧ streamHolds inp k (fieldBits n v) ∧ c = cursorAt (k + n) := readBits_eq_ok

/-- A field of the greatest value is all ones. -/
theorem fieldBits_max (n : Nat) : fieldBits n (2 ^ n - 1) = List.replicate n true := by
  refine List.ext_getElem (by simp [fieldBits_length]) fun i hi _ => ?_
  rw [fieldBits_length] at hi
  simp [fieldBits_getElem, Nat.testBit_two_pow_sub_one, hi]

/-! ### Chains (41_chain_decoder.md R100) -/

/-- A chain of at most `n` groups of `link` bits: maximal groups, then the last group unless the budget has ended the
chain. -/
def groupBits (link n x : Nat) : List Bool :=
  (List.replicate (x / (2 ^ link - 1)) (List.replicate link true)).flatten ++
    if x / (2 ^ link - 1) < n then fieldBits link (x % (2 ^ link - 1)) else []

theorem chainBits_eq_groupBits (x : Nat) : chainBits x = groupBits lengthLink lengthGroups x := rfl

theorem groupBits_of_lt {link n x : Nat} (h : x < 2 ^ link - 1) : groupBits link (n + 1) x = fieldBits link x := by
  simp [groupBits, Nat.div_eq_of_lt h, Nat.mod_eq_of_lt h]

theorem groupBits_add_max {link : Nat} (hl : 1 ≤ link) (n x : Nat) :
    groupBits link (n + 1) (2 ^ link - 1 + x) = List.replicate link true ++ groupBits link n x := by
  have hpow : 2 ^ 1 ≤ 2 ^ link := Nat.pow_le_pow_right (by decide) hl
  have hpos : 0 < 2 ^ link - 1 := by omega
  simp only [groupBits, Nat.add_div_left x hpos, Nat.add_mod_left, Nat.add_lt_add_iff_right, List.replicate_succ,
    List.flatten_cons, List.append_assoc]

/-- A chain answers exactly the values its groups can hold, and has read their groups. -/
theorem chainGroups_eq_ok {inp : List Byte} {link n k x : Nat} {h : link ≤ getBitsMax} {c : Cursor} (hl : 1 ≤ link) :
    chainGroups inp link h n (cursorAt k) = .ok (x, c) ↔
      x ≤ n * (2 ^ link - 1) ∧ streamHolds inp k (groupBits link n x) ∧
        c = cursorAt (k + (groupBits link n x).length) := by
  induction n generalizing k x c with
  | zero =>
    simp only [chainGroups, Except.ok.injEq, Prod.mk.injEq, Nat.zero_mul, Nat.le_zero]
    constructor
    · rintro ⟨rfl, rfl⟩
      simp [groupBits]
    · rintro ⟨rfl, -, rfl⟩
      simp [groupBits]
  | succ n ih =>
    have hn : (n + 1) * (2 ^ link - 1) = n * (2 ^ link - 1) + (2 ^ link - 1) := Nat.succ_mul _ _
    simp only [chainGroups, bind_eq_ok, Prod.exists, getBits_eq_ok]
    constructor
    · rintro ⟨vv, -, ⟨hlt, hbits, rfl⟩, hrest⟩
      by_cases hmax : vv = 2 ^ link - 1
      · subst hmax
        rw [if_pos rfl] at hrest
        simp only [bind_eq_ok, Prod.exists, ih, Except.ok.injEq, Prod.mk.injEq] at hrest
        obtain ⟨r, -, ⟨hr, hrbits, rfl⟩, rfl, rfl⟩ := hrest
        rw [fieldBits_max] at hbits
        rw [groupBits_add_max hl, streamHolds_append, List.length_append, List.length_replicate, ← Nat.add_assoc]
        exact ⟨by omega, ⟨hbits, hrbits⟩, rfl⟩
      · rw [if_neg hmax] at hrest
        cases hrest
        rw [groupBits_of_lt (by omega), fieldBits_length]
        exact ⟨by omega, hbits, rfl⟩
    · rintro ⟨hle, hbits, rfl⟩
      by_cases hlt : x < 2 ^ link - 1
      · rw [groupBits_of_lt hlt] at hbits ⊢
        exact ⟨x, _, ⟨by omega, hbits, rfl⟩, by rw [if_neg (by omega), fieldBits_length]⟩
      · obtain ⟨r, rfl⟩ := Nat.exists_eq_add_of_le (Nat.le_of_not_lt hlt)
        rw [groupBits_add_max hl, streamHolds_append, List.length_replicate] at hbits
        obtain ⟨hones, hrbits⟩ := hbits
        refine ⟨2 ^ link - 1, _, ⟨by have := Nat.two_pow_pos link; omega, by rwa [fieldBits_max], rfl⟩, ?_⟩
        rw [if_pos rfl, groupBits_add_max hl, List.length_append, List.length_replicate, ← Nat.add_assoc]
        exact bind_eq_ok.2 ⟨_, ih.2 ⟨by omega, hrbits, rfl⟩, rfl⟩

/-- The selector is one of three values (41_chain_decoder.md R101). -/
theorem getSelector_eq_ok {inp : List Byte} {k sel : Nat} {c : Cursor} :
    getSelector inp (cursorAt k) = .ok (sel, c) ↔
      sel ≤ 2 ∧ streamHolds inp k (groupBits selectorLink selectorBudget sel) ∧
        c = cursorAt (k + (groupBits selectorLink selectorBudget sel).length) :=
  chainGroups_eq_ok (by decide)

theorem getLengthChain_eq_ok {inp : List Byte} {k x : Nat} {c : Cursor} :
    getLengthChain inp (cursorAt k) = .ok (x, c) ↔
      x ≤ chainMax ∧ streamHolds inp k (chainBits x) ∧ c = cursorAt (k + (chainBits x).length) := by
  rw [chainBits_eq_groupBits]
  exact chainGroups_eq_ok (by decide)

/-- The selector and the offset field of `get_num` (41_chain_decoder.md R102). -/
def numBits (sel v : Nat) : List Bool := groupBits selectorLink selectorBudget sel ++ fieldBits (offsetWidth sel) v

theorem getNumField_eq_ok {inp : List Byte} {k sel v : Nat} {c : Cursor} :
    getNumField inp (cursorAt k) = .ok (sel, v, c) ↔
      sel ≤ 2 ∧ v < 2 ^ offsetWidth sel ∧ streamHolds inp k (numBits sel v) ∧
        c = cursorAt (k + (numBits sel v).length) := by
  simp only [getNumField, bind_eq_ok, Prod.exists, getSelector_eq_ok, numBits, streamHolds_append, List.length_append,
    fieldBits_length, ← Nat.add_assoc]
  constructor
  · rintro ⟨s, -, ⟨hs, hsel, rfl⟩, w, d, hw, h⟩
    obtain ⟨hlt, hbits, rfl⟩ := getBits_eq_ok.1 hw
    cases h
    exact ⟨hs, hlt, ⟨hsel, hbits⟩, rfl⟩
  · rintro ⟨hs, hlt, ⟨hsel, hbits⟩, rfl⟩
    exact ⟨sel, _, ⟨hs, hsel, rfl⟩, v, _, getBits_eq_ok.2 ⟨hlt, hbits, rfl⟩, rfl⟩

/-! ### The unary run of a LIT (42_block_decoder.md R116) -/

/-- A run of `e` ones, ended by a zero unless the cap has ended it (decision D6). -/
def prefixBits (cap e : Nat) : List Bool := List.replicate e true ++ if e < cap then [false] else []

theorem prefixBits_succ (cap e : Nat) : prefixBits (cap + 1) (e + 1) = true :: prefixBits cap e := by
  simp only [prefixBits, List.replicate_succ, List.cons_append, Nat.add_lt_add_iff_right]

theorem prefixOnes_eq_ok {inp : List Byte} {cap k e : Nat} {c : Cursor} :
    prefixOnes inp cap (cursorAt k) = .ok (e, c) ↔
      e ≤ cap ∧ streamHolds inp k (prefixBits cap e) ∧ c = cursorAt (k + (prefixBits cap e).length) := by
  induction cap generalizing k e c with
  | zero =>
    simp only [prefixOnes, Except.ok.injEq, Prod.mk.injEq, Nat.le_zero]
    constructor
    · rintro ⟨rfl, rfl⟩
      simp [prefixBits]
    · rintro ⟨rfl, -, rfl⟩
      simp [prefixBits]
  | succ cap ih =>
    simp only [prefixOnes, bind_eq_ok, Prod.exists, getBit_eq_ok]
    constructor
    · rintro ⟨b, -, ⟨hb, rfl⟩, hrest⟩
      cases b with
      | false =>
        cases hrest
        exact ⟨Nat.zero_le _, streamHolds_singleton.2 hb, rfl⟩
      | true =>
        obtain ⟨⟨e', d⟩, he', h⟩ := bind_eq_ok.1 hrest
        obtain ⟨hle, hones, rfl⟩ := ih.1 he'
        simp only [Except.ok.injEq, Prod.mk.injEq] at h
        obtain ⟨rfl, rfl⟩ := h
        rw [prefixBits_succ, streamHolds_cons, List.length_cons]
        exact ⟨Nat.succ_le_succ hle, ⟨hb, hones⟩, congrArg cursorAt (by omega)⟩
    · rintro ⟨hle, hbits, rfl⟩
      cases e with
      | zero => exact ⟨false, _, ⟨streamHolds_singleton.1 hbits, rfl⟩, rfl⟩
      | succ e =>
        rw [prefixBits_succ, streamHolds_cons] at hbits
        obtain ⟨hb, hones⟩ := hbits
        refine ⟨true, _, ⟨hb, rfl⟩, bind_eq_ok.2 ⟨_, ih.2 ⟨Nat.le_of_succ_le_succ hle, hones, rfl⟩, ?_⟩⟩
        rw [prefixBits_succ, List.length_cons, Nat.add_right_comm, Nat.add_assoc]

/-! ### The forms of a PXA block (30_encoding.md R62 to R69) -/

/-- The width of the field that is read after `e` one-bits: none from 12 on (decision D7). -/
def literalWidth (e : Nat) : Nat := if e ≤ 11 then litBaseWidth + e else 0

/-- The LIT with `e` one-bits and the field `v` (30_encoding.md R63, R69). -/
def literalOf : (e : Nat) → BitVec (literalWidth e) → Instr
  | 0, v => .lit0 v
  | 1, v => .lit1 v
  | 2, v => .lit2 v
  | 3, v => .lit3 v
  | 4, v => .lit4 v
  | 5, v => .litE5 v
  | 6, v => .litE6 v
  | 7, v => .litE7 v
  | 8, v => .litE8 v
  | 9, v => .litE9 v
  | 10, v => .litE10 v
  | 11, v => .litE11 v
  | 12, _ => .litE12
  | 13, _ => .litE13
  | 14, _ => .litE14
  | 15, _ => .litE15
  | _, _ => .litE16

/-- The three forms of a block: its marker, what it stands for, and its bits after the marker. -/
inductive BlockForm : Bool → Instr → List Bool → Prop
  | literal (e : Nat) (v : BitVec (literalWidth e)) (he : e ≤ litPrefixCap) :
      BlockForm true (literalOf e v) (prefixBits litPrefixCap e ++ fieldBits (literalWidth e) v.toNat)
  | raw : BlockForm false .raw (numBits 1 0)
  | copy (sel : Nat) (n : BitVec (offsetWidth sel)) (chain : Nat) (hsel : sel ≤ 2)
      (hn : isSentinel sel n.toNat = false) (hchain : chain ≤ chainMax) :
      BlockForm false (copyInstr sel n.toNat chain) (numBits sel n.toNat ++ chainBits chain)

/-- The sentinel is the selector of the 10-bit field with the field 0 (41_chain_decoder.md R102). -/
theorem isSentinel_eq_true {sel v : Nat} (h : sel ≤ 2) : isSentinel sel v = true ↔ sel = 1 ∧ v = 0 := by
  interval_cases sel <;> simp [isSentinel, offsetWidth, selectorTop, offsetUnit, sentinelWidth]

theorem encode_literalOf {e : Nat} (v : BitVec (literalWidth e)) (he : e ≤ litPrefixCap) :
    encode (literalOf e v) = true :: (prefixBits litPrefixCap e ++ fieldBits (literalWidth e) v.toNat) := by
  interval_cases e <;> rfl

theorem copyInstr_zero (n : BitVec (offsetWidth 0)) (chain : Nat) : copyInstr 0 n.toNat chain = .copy15 n chain :=
  congrArg (Instr.copy15 · chain) ((BitVec.ofNat_toNat _ n).trans (BitVec.setWidth_eq n))

theorem copyInstr_one (n : BitVec (offsetWidth 1)) (chain : Nat) : copyInstr 1 n.toNat chain = .copy10 n chain :=
  congrArg (Instr.copy10 · chain) ((BitVec.ofNat_toNat _ n).trans (BitVec.setWidth_eq n))

theorem copyInstr_two (n : BitVec (offsetWidth 2)) (chain : Nat) : copyInstr 2 n.toNat chain = .copy5 n chain :=
  congrArg (Instr.copy5 · chain) ((BitVec.ofNat_toNat _ n).trans (BitVec.setWidth_eq n))

theorem encode_copyInstr {sel : Nat} (n : BitVec (offsetWidth sel)) (chain : Nat) (h : sel ≤ 2) :
    encode (copyInstr sel n.toNat chain) = false :: (numBits sel n.toNat ++ chainBits chain) := by
  interval_cases sel
  · rw [copyInstr_zero]; rfl
  · rw [copyInstr_one]; rfl
  · rw [copyInstr_two]; rfl

/-- A 10-bit offset is the sentinel exactly when it is the zero that `Instr.wf` excludes. -/
theorem isSentinel_one_eq_false {n : BitVec 10} : isSentinel 1 n.toNat = false ↔ n ≠ 0#10 := by
  rw [← Bool.not_eq_true, isSentinel_eq_true (by decide), Ne, ← BitVec.toNat_inj]
  simp

theorem copyInstr_wf {sel chain : Nat} (n : BitVec (offsetWidth sel)) (hsel : sel ≤ 2)
    (hn : isSentinel sel n.toNat = false) (hchain : chain ≤ chainMax) :
    (copyInstr sel n.toNat chain).wf = true ∧ (copyInstr sel n.toNat chain).phase = .pxaBlocks := by
  interval_cases sel
  · exact ⟨decide_eq_true hchain, rfl⟩
  · rw [copyInstr_one]
    exact ⟨Bool.and_eq_true_iff.2 ⟨bne_iff_ne.2 (isSentinel_one_eq_false.1 hn), decide_eq_true hchain⟩, rfl⟩
  · exact ⟨decide_eq_true hchain, rfl⟩

/-- After the unary run every case of `decodeLiteral` reads one field, of width 0 where none is read. -/
theorem decodeLiteral_eq (inp : List Byte) (c : Cursor) :
    decodeLiteral inp c = (do
      let (e, c1) ← prefixOnes inp litPrefixCap c
      let (v, c2) ← readBits inp (literalWidth e) c1
      .ok (literalOf e (BitVec.ofNat _ v), c2)) := by
  unfold decodeLiteral
  congr
  funext ⟨e, c1⟩
  match e with
  | 0 | 1 | 2 | 3 | 4 | 5 | 6 | 7 | 8 | 9 | 10 | 11 => rfl
  | 12 | 13 | 14 | 15 => rfl
  | _ + 16 => rfl

theorem decodeLiteral_eq_ok {inp : List Byte} {k : Nat} {i : Instr} {c : Cursor} :
    decodeLiteral inp (cursorAt k) = .ok (i, c) ↔
      ∃ bits, BlockForm true i bits ∧ streamHolds inp k bits ∧ c = cursorAt (k + bits.length) := by
  simp only [decodeLiteral_eq, bind_eq_ok, Prod.exists, prefixOnes_eq_ok]
  constructor
  · rintro ⟨e, -, ⟨he, hones, rfl⟩, v, d, hv, h⟩
    obtain ⟨hlt, hbits, rfl⟩ := readBits_eq_ok.1 hv
    cases h
    refine ⟨_, .literal e _ he, ?_⟩
    rw [BitVec.toNat_ofNat, Nat.mod_eq_of_lt hlt, streamHolds_append, List.length_append, fieldBits_length,
      ← Nat.add_assoc]
    exact ⟨⟨hones, hbits⟩, rfl⟩
  · rintro ⟨-, ⟨e, v, he⟩, hbits, rfl⟩
    rw [streamHolds_append] at hbits
    obtain ⟨hones, hv⟩ := hbits
    refine ⟨e, _, ⟨he, hones, rfl⟩, v.toNat, _, readBits_eq_ok.2 ⟨v.isLt, hv, rfl⟩, ?_⟩
    rw [BitVec.ofNat_toNat, BitVec.setWidth_eq, List.length_append, fieldBits_length, Nat.add_assoc]

theorem decodeCopyOrRaw_eq_ok {inp : List Byte} {k : Nat} {i : Instr} {c : Cursor} :
    decodeCopyOrRaw inp (cursorAt k) = .ok (i, c) ↔
      ∃ bits, BlockForm false i bits ∧ streamHolds inp k bits ∧ c = cursorAt (k + bits.length) := by
  simp only [decodeCopyOrRaw, bind_eq_ok, Prod.exists, getNumField_eq_ok]
  constructor
  · rintro ⟨sel, v, -, ⟨hsel, hlt, hnum, rfl⟩, h⟩
    by_cases hs : isSentinel sel v = true
    · rw [if_pos hs] at h
      cases h
      obtain ⟨rfl, rfl⟩ := (isSentinel_eq_true hsel).1 hs
      exact ⟨_, .raw, hnum, rfl⟩
    · rw [if_neg hs] at h
      obtain ⟨⟨x, d⟩, hx, h⟩ := bind_eq_ok.1 h
      obtain ⟨hle, hchain, rfl⟩ := getLengthChain_eq_ok.1 hx
      cases h
      have hv : (BitVec.ofNat (offsetWidth sel) v).toNat = v := by rw [BitVec.toNat_ofNat, Nat.mod_eq_of_lt hlt]
      have hform := BlockForm.copy sel (BitVec.ofNat _ v) x hsel (by simpa [hv] using hs) hle
      rw [hv] at hform
      refine ⟨_, hform, streamHolds_append.2 ⟨hnum, hchain⟩, ?_⟩
      rw [List.length_append, ← Nat.add_assoc]
  · rintro ⟨-, _ | _ | ⟨sel, n, chain, hsel, hn, hchain⟩, hbits, rfl⟩
    · exact ⟨1, 0, _, ⟨by decide, by decide, hbits, rfl⟩, rfl⟩
    · rw [streamHolds_append] at hbits
      obtain ⟨hnum, hx⟩ := hbits
      refine ⟨sel, n.toNat, _, ⟨hsel, n.isLt, hnum, rfl⟩, ?_⟩
      rw [hn, List.length_append, ← Nat.add_assoc]
      exact bind_eq_ok.2 ⟨_, getLengthChain_eq_ok.2 ⟨hchain, hx, rfl⟩, rfl⟩

/-- A form is the encoding of its block: the marker, then the bits of the form. -/
theorem BlockForm.encode_eq {m : Bool} {i : Instr} {bits : List Bool} (h : BlockForm m i bits) :
    encode i = m :: bits := by
  cases h with
  | literal e v he => exact encode_literalOf v he
  | raw => rfl
  | copy sel n chain hsel hn hchain => exact encode_copyInstr n chain hsel

/-- A form is a well-formed block. -/
theorem BlockForm.wf {m : Bool} {i : Instr} {bits : List Bool} (h : BlockForm m i bits) :
    i.wf = true ∧ i.phase = .pxaBlocks := by
  cases h with
  | literal e v he => interval_cases e <;> exact ⟨rfl, rfl⟩
  | raw => exact ⟨rfl, rfl⟩
  | copy sel n chain hsel hn hchain => exact copyInstr_wf n hsel hn hchain

/-- Every well-formed block has a form. -/
theorem exists_blockForm {i : Instr} (hw : i.wf = true) (hp : i.phase = .pxaBlocks) : ∃ m bits, BlockForm m i bits := by
  cases i
  case lit0 v => exact ⟨_, _, .literal 0 v (by decide)⟩
  case lit1 v => exact ⟨_, _, .literal 1 v (by decide)⟩
  case lit2 v => exact ⟨_, _, .literal 2 v (by decide)⟩
  case lit3 v => exact ⟨_, _, .literal 3 v (by decide)⟩
  case lit4 v => exact ⟨_, _, .literal 4 v (by decide)⟩
  case litE5 v => exact ⟨_, _, .literal 5 v (by decide)⟩
  case litE6 v => exact ⟨_, _, .literal 6 v (by decide)⟩
  case litE7 v => exact ⟨_, _, .literal 7 v (by decide)⟩
  case litE8 v => exact ⟨_, _, .literal 8 v (by decide)⟩
  case litE9 v => exact ⟨_, _, .literal 9 v (by decide)⟩
  case litE10 v => exact ⟨_, _, .literal 10 v (by decide)⟩
  case litE11 v => exact ⟨_, _, .literal 11 v (by decide)⟩
  case litE12 => exact ⟨_, _, .literal 12 0 (by decide)⟩
  case litE13 => exact ⟨_, _, .literal 13 0 (by decide)⟩
  case litE14 => exact ⟨_, _, .literal 14 0 (by decide)⟩
  case litE15 => exact ⟨_, _, .literal 15 0 (by decide)⟩
  case litE16 => exact ⟨_, _, .literal 16 0 (by decide)⟩
  case copy15 n chain =>
    have h := BlockForm.copy 0 n chain (by decide) rfl (of_decide_eq_true hw)
    exact ⟨_, _, copyInstr_zero n chain ▸ h⟩
  case copy10 n chain =>
    obtain ⟨hn, hchain⟩ := Bool.and_eq_true_iff.1 hw
    have h := BlockForm.copy 1 n chain (by decide) (isSentinel_one_eq_false.2 (bne_iff_ne.1 hn))
      (of_decide_eq_true hchain)
    exact ⟨_, _, copyInstr_one n chain ▸ h⟩
  case copy5 n chain =>
    have h := BlockForm.copy 2 n chain (by decide) rfl (of_decide_eq_true hw)
    exact ⟨_, _, copyInstr_two n chain ▸ h⟩
  case raw => exact ⟨_, _, .raw⟩
  case p8Esc | p8Sym | p8Back | hdrPxa | hdrP8 | sniffPxa | sniffP8 | sniffLegacy => cases hp

/-! ### A block and its encoding -/

/-- The marker chooses between the forms (30_encoding.md R62). -/
theorem decodeAfterMarker_eq_ok {inp : List Byte} {k : Nat} {m : Bool} {i : Instr} {c : Cursor} :
    (if m then decodeLiteral inp (cursorAt k) else decodeCopyOrRaw inp (cursorAt k)) = .ok (i, c) ↔
      ∃ bits, BlockForm m i bits ∧ streamHolds inp k bits ∧ c = cursorAt (k + bits.length) := by
  cases m with
  | true => exact decodeLiteral_eq_ok
  | false => exact decodeCopyOrRaw_eq_ok

/-- The decoder reads a block exactly where the stream holds its encoding, and stops right after it. -/
theorem decodeBlock_eq_ok {inp : List Byte} {k : Nat} {i : Instr} {c : Cursor} :
    decodeBlock inp (cursorAt k) = .ok (i, c) ↔
      (i.wf = true ∧ i.phase = .pxaBlocks) ∧ streamHolds inp k (encode i) ∧
        c = cursorAt (k + (encode i).length) := by
  simp only [decodeBlock, bind_eq_ok, Prod.exists, getBit_eq_ok]
  constructor
  · rintro ⟨m, -, ⟨hm, rfl⟩, h⟩
    obtain ⟨bits, hf, hbits, rfl⟩ := decodeAfterMarker_eq_ok.1 h
    rw [hf.encode_eq, streamHolds_cons, List.length_cons]
    exact ⟨hf.wf, ⟨hm, hbits⟩, congrArg cursorAt (by omega)⟩
  · rintro ⟨⟨hw, hp⟩, hbits, rfl⟩
    obtain ⟨m, bits, hf⟩ := exists_blockForm hw hp
    rw [hf.encode_eq, streamHolds_cons] at hbits
    obtain ⟨hm, hbits⟩ := hbits
    refine ⟨m, _, ⟨hm, rfl⟩, decodeAfterMarker_eq_ok.2 ⟨bits, hf, hbits, congrArg cursorAt ?_⟩⟩
    rw [hf.encode_eq, List.length_cons]
    omega

/-- The laws of Laws/PerInstr.lean for every instruction at once. -/
theorem encode_length {i : Instr} (hw : i.wf = true) : (encode i).length = i.bits := by
  cases i
  case lit0 | lit1 | lit2 | lit3 | lit4 | litE5 | litE6 | litE7 | litE8 | litE9 | litE10 | litE11 =>
    exact literalBits_length _ _
  case litE12 | litE13 | litE14 | litE15 | litE16 | raw => rfl
  case copy15 n chain => exact Laws.EncodingWidth.copy15 n chain hw
  case copy10 n chain => exact Laws.EncodingWidth.copy10 n chain hw
  case copy5 n chain => exact Laws.EncodingWidth.copy5 n chain hw
  case p8Esc | p8Sym | p8Back | hdrPxa | hdrP8 | sniffPxa | sniffP8 | sniffLegacy => exact byteBits_length _

/-- Settles O14: the packed stream holds the encoding where it was put. -/
theorem blocksRoundTrip : Obligations.BlocksRoundTrip := fun i pre post hw hp =>
  decodeBlock_eq_ok.2 ⟨⟨hw, hp⟩, streamHolds_packBits pre (encode i) post, rfl⟩

/-- Settles O15: the decoder reads a block only where the stream holds its encoding. -/
theorem decodedBlockIsItsEncoding : Obligations.DecodedBlockIsItsEncoding := by
  intro inp k i c h
  obtain ⟨⟨hw, hp⟩, hbits, rfl⟩ := decodeBlock_eq_ok.1 h
  rw [← encode_length hw]
  exact ⟨hw, hp, rfl, rfl, hbits⟩

/-! ### Whole bytes (20_memory.md R40) and the P8 codes (30_encoding.md R72) -/

theorem packBits_cons_byte (b : Byte) (bits : List Bool) :
    packBits (fieldBits 8 b.toNat ++ bits) = b :: packBits bits := by
  have hlen := fieldBits_length 8 b.toNat
  have hcount : ((fieldBits 8 b.toNat ++ bits).length + 7) / 8 = (bits.length + 7) / 8 + 1 := by
    rw [List.length_append, hlen]
    omega
  rw [packBits, hcount, List.range_succ_eq_map, List.map_cons, List.map_map]
  refine List.cons_eq_cons.2 ⟨?_, ?_⟩
  · rw [Nat.mul_zero, List.drop_zero, List.take_left' hlen, bitsValue_fieldBits b.isLt, BitVec.ofNat_toNat,
      BitVec.setWidth_eq]
  · refine List.map_congr_left fun k _ => ?_
    rw [Function.comp_apply, Nat.succ_eq_add_one, Nat.mul_add, Nat.mul_one, Nat.add_comm, ← List.drop_drop,
      List.drop_left' hlen]

theorem packBits_byteBits (bs : List Byte) : packBits (byteBits bs) = bs := by
  induction bs with
  | nil => rfl
  | cons b bs ih =>
    have hcons : byteBits (b :: bs) = fieldBits 8 b.toNat ++ byteBits bs := List.flatMap_cons
    rw [hcons, packBits_cons_byte, ih]

theorem nextByte_of_getElem? {inp : List Byte} {k : Nat} {b : Byte} (h : inp[k]? = some b) :
    nextByte inp k = .ok (b, k + 1) := by
  simp only [nextByte, h]

theorem decodeCode_esc {inp : List Byte} {k : Nat} {b : Byte} (h0 : inp[k]? = some 0#8) (h1 : inp[k + 1]? = some b) :
    decodeCode inp k = .ok (.p8Esc b, k + 2) := by
  simp only [decodeCode, nextByte_of_getElem? h0, nextByte_of_getElem? h1, ok_bind, if_true]

theorem decodeCode_sym {inp : List Byte} {k : Nat} {val : Byte} (h0 : inp[k]? = some val)
    (hw : (Instr.p8Sym val).wf = true) : decodeCode inp k = .ok (.p8Sym val, k + 1) := by
  obtain ⟨hpos, hlt⟩ := of_decide_eq_true hw
  have hne : val ≠ 0#8 := by rintro rfl; exact absurd hpos (by decide)
  simp only [decodeCode, nextByte_of_getElem? h0, ok_bind, if_neg hne, if_pos hlt]

theorem decodeCode_back {inp : List Byte} {k : Nat} {val val2 : Byte} (h0 : inp[k]? = some val)
    (h1 : inp[k + 1]? = some val2) (hw : (Instr.p8Back val val2).wf = true) :
    decodeCode inp k = .ok (.p8Back val val2, k + 2) := by
  have hge : 60 ≤ val.toNat := of_decide_eq_true hw
  have hne : val ≠ 0#8 := by rintro rfl; exact absurd hge (by decide)
  have hnlt : ¬ val.toNat < p8AlphabetSize := Nat.not_lt.2 hge
  simp only [decodeCode, nextByte_of_getElem? h0, nextByte_of_getElem? h1, ok_bind, if_neg hne, if_neg hnlt]

/-- Settles O16: the packed encoding is the code's bytes, and one case per form of a code reads them. -/
theorem codesRoundTrip : Obligations.CodesRoundTrip := by
  intro i pre post hw hp
  cases i
  case p8Esc b =>
    rw [encode, packBits_byteBits, Instr.bits]
    exact decodeCode_esc (by simp) (by simp)
  case p8Sym val =>
    rw [encode, packBits_byteBits, Instr.bits]
    exact decodeCode_sym (by simp) hw
  case p8Back val val2 =>
    rw [encode, packBits_byteBits, Instr.bits]
    exact decodeCode_back (by simp) (by simp) hw
  all_goals cases hp

end Sys2Proof.Machine
end

section
/-! PROOFS. `get_bit` from every cursor, legal mask or not (40_bit_reader.md R90): the bound on the byte index alone
decides whether it answers. -/

namespace Sys2Proof.Machine

theorem getBit_of_length_le {inp : List Byte} {c : Cursor} (h : inp.length ≤ c.byte) :
    getBit inp c = .error .endOfInput := by
  rw [getBit, List.getElem?_eq_none h]

theorem getBit_of_lt {inp : List Byte} {c : Cursor} (h : c.byte < inp.length) :
    getBit inp c = .ok (decide (inp[c.byte] &&& c.mask ≠ 0#8), Cursor.advance c) := by
  simp only [getBit, List.getElem?_eq_getElem h, bne, beq_eq_decide, ne_eq, decide_not]

/-- Settles O7: one case on each side of the bound; the next cursor is `Cursor.advance` written out. -/
theorem getBitReadsOneBit : Obligations.GetBitReadsOneBit := by
  intro inp c
  refine ⟨getBit_of_length_le, fun h => ?_⟩
  rw [getBit_of_lt h, Cursor.advance]

end Sys2Proof.Machine
end

section
/-! PROOFS. The two chains and `get_num` (41_chain_decoder.md R101 to R103), from what the readers answer at a bit
address. -/

namespace Sys2Proof.Machine

/-- Settles O11: the length chain answers `x` wherever the stream holds the chain of `x`, and the packed stream holds it
where it was put. -/
theorem lengthChainDecodes : Obligations.LengthChainDecodes := fun x pre post hx =>
  getLengthChain_eq_ok.2 ⟨hx, streamHolds_packBits pre (chainBits x) post, rfl⟩

/-! ### `get_num` (41_chain_decoder.md R102, R103) -/

theorem isSentinel_iff_width {sel v : Nat} : isSentinel sel v = true ↔ offsetWidth sel = 10 ∧ v = 0 := by
  simp only [isSentinel, Bool.and_eq_true, beq_iff_eq]

/-- `get_num` answers what its selector and its field say, and stops after the field. -/
theorem getNum_of_fields {inp : List Byte} {c c1 c2 : Cursor} {sel v : Nat} (hsel : getSelector inp c = .ok (sel, c1))
    (hv : getBits inp (offsetWidth sel) (offsetWidth_le sel) c1 = .ok (v, c2)) :
    getNum inp c = .ok (if isSentinel sel v then none else some v, c2) := by
  simp only [getNum, getNumField, hsel, hv, ok_bind]

/-- The three selectors, with the bits that encode each and the width of the field each announces. -/
theorem selector_cases {sel : Nat} (h : sel ≤ 2) :
    sel = 0 ∧ (groupBits selectorLink selectorBudget sel).length = 1 ∧ offsetWidth sel = 15 ∨
      sel = 1 ∧ (groupBits selectorLink selectorBudget sel).length = 2 ∧ offsetWidth sel = 10 ∨
      sel = 2 ∧ (groupBits selectorLink selectorBudget sel).length = 2 ∧ offsetWidth sel = 5 := by
  interval_cases sel <;> decide

/-- The range of the field and the bits that `get_num` consumes, by selector. -/
theorem getNum_ranges {inp : List Byte} {c c1 c2 : Cursor} {sel v : Nat} (hc : maskLegal c.mask)
    (hsel : getSelector inp c = .ok (sel, c1))
    (hv : getBits inp (offsetWidth sel) (offsetWidth_le sel) c1 = .ok (v, c2)) :
    sel = 0 ∧ offsetWidth sel = 15 ∧ v < 2 ^ 15 ∧ Cursor.address c2 = Cursor.address c + 16 ∨
      sel = 1 ∧ offsetWidth sel = 10 ∧ v < 2 ^ 10 ∧ Cursor.address c2 = Cursor.address c + 12 ∨
      sel = 2 ∧ offsetWidth sel = 5 ∧ v < 2 ^ 5 ∧ Cursor.address c2 = Cursor.address c + 7 := by
  rw [← cursorAt_address hc] at hsel
  obtain ⟨hle, -, rfl⟩ := getSelector_eq_ok.1 hsel
  obtain ⟨hlt, -, rfl⟩ := getBits_eq_ok.1 hv
  rw [address_cursorAt]
  obtain ⟨h, hlen, hwidth⟩ | ⟨h, hlen, hwidth⟩ | ⟨h, hlen, hwidth⟩ := selector_cases hle <;> rw [hwidth] at hlt
  · exact .inl ⟨h, hwidth, hlt, by omega⟩
  · exact .inr (.inl ⟨h, hwidth, hlt, by omega⟩)
  · exact .inr (.inr ⟨h, hwidth, hlt, by omega⟩)

/-- Settles O13: `get_num` answers `None` on the sentinel and the field elsewhere; the selector bounds the field. -/
theorem getNumSentinelExactly : Obligations.GetNumSentinelExactly := by
  intro inp c c1 c2 sel v hc hsel hv
  have hranges := getNum_ranges hc hsel hv
  rw [getNum_of_fields hsel hv, ← isSentinel_iff_width]
  by_cases hs : isSentinel sel v = true
  · rw [if_pos hs]
    exact ⟨iff_of_true rfl hs, fun h => absurd hs h, hranges⟩
  · rw [if_neg hs]
    exact ⟨iff_of_false nofun hs, fun _ => ⟨rfl, by omega⟩, hranges⟩

end Sys2Proof.Machine
end

section
/-! PROOFS. The block decoder (42_block_decoder.md R110, R114): a running step is `exec` of what the decoder of its place
reads, and a COPY repeats the last `offset` bytes of the output. -/

namespace Sys2Proof.Machine

/-! ### A copy repeats what stands `offset` bytes before it (42_block_decoder.md R114) -/

/-- In the output of a copy every byte of the copy equals the byte `offset` cells before it, be that an old byte or one
the copy has written itself. -/
theorem copyBytes_read_eq_read_sub {capacity offset len : Nat} {s t : State}
    (h : copyBytes capacity offset len s = .next t) {a : Nat} (hlo : s.destPos ≤ a) (hhi : a < s.destPos + len) :
    t.out.read a = t.out.read (a - offset) := by
  induction len generalizing s with
  | zero => omega
  | succ n ih =>
    unfold copyBytes at h
    split at h
    · cases h
    · next b hb =>
      obtain ⟨u, hu, hc⟩ := andThen_eq_next.1 h
      obtain ⟨-, rfl⟩ := putByte_next_iff.1 hu
      obtain hlt | rfl := Nat.lt_or_eq_of_le hlo
      · exact ih hc hlt (by rw [State.appendByte_destPos]; omega)
      · obtain ⟨-, -, -, hkept, -⟩ := copyBytes_next hc
        simp only [State.appendByte_destPos, State.appendByte_out] at hkept
        have hsrc : s.destPos - offset < s.destPos := by
          by_contra hge
          simp [State.readOut, hge] at hb
        rw [readOut_eq hsrc] at hb
        rw [hkept _ (.inl (Nat.lt_succ_self _)), hkept _ (.inl (by omega)), Memory.read_write_same,
          Memory.read_write_other _ _ hsrc.ne, hb]

/-- Going back `offset` cells at a time, byte `k` of a copy comes to byte `k % offset` of the last `offset` old bytes. -/
theorem copyBytes_read_eq_read_mod {capacity offset len : Nat} {s t : State}
    (h : copyBytes capacity offset len s = .next t) (hpos : 1 ≤ offset) (hreach : offset ≤ s.destPos) {k : Nat}
    (hk : k < len) : t.out.read (s.destPos + k) = s.out.read (s.destPos - offset + k % offset) := by
  induction k using Nat.strong_induction_on with
  | _ k ih =>
    rw [copyBytes_read_eq_read_sub h (Nat.le_add_right _ _) (by omega)]
    obtain hlt | hge := Nat.lt_or_ge k offset
    · obtain ⟨-, -, -, hkept, -⟩ := copyBytes_next h
      rw [Nat.mod_eq_of_lt hlt, ← Nat.sub_add_comm hreach]
      exact hkept _ (.inl (by omega))
    · rw [Nat.mod_eq_sub_mod hge, Nat.add_sub_assoc hge]
      exact ih (k - offset) (by omega) (by omega)

/-- A copy in range answers, and appends its bytes and nothing else; every cell it has written holds a value. -/
theorem copyBytes_appends {capacity offset len : Nat} {s : State} (hf : outFilled s) (hpos : 1 ≤ offset)
    (hreach : offset ≤ s.destPos) (hfit : s.destPos + len ≤ capacity) :
    ∃ t, copyBytes capacity offset len s = .next t ∧ onlyAppends s t ∧
      appended s t len (fun k => s.out.read (s.destPos - offset + k % offset)) ∧
      (∀ k, k < len → (t.out.read (s.destPos + k)).isSome = true) := by
  obtain ⟨t, ht⟩ := copyBytes_answers hf hpos hreach hfit
  obtain ⟨honly, hdest, -, hkept, hfilled, -⟩ := copyBytes_next ht
  exact ⟨t, ht, honly, ⟨hdest, fun _ => copyBytes_read_eq_read_mod ht hpos hreach, hkept⟩,
    fun k hk => (hfilled hf _).2 (by omega)⟩

/-- The three COPY forms are one operation on their operands; the bias of the offset keeps it from zero. -/
theorem exec_of_copyOperands {i : Instr} {offset len : Nat} (h : copyOperands i = some (offset, len)) (s : State) :
    1 ≤ offset ∧ exec i s = copyBlock offset len s := by
  cases i
  case copy15 | copy10 | copy5 =>
    cases h
    exact ⟨Nat.le_add_left _ _, rfl⟩
  all_goals cases h

/-- Settles O25: a COPY in range passes the three checks, so it is the byte-serial copy, whose bytes are known. -/
theorem copyAppendsEarlierBytes : Obligations.CopyAppendsEarlierBytes := by
  intro i offset len s hi hf hreach hfit
  obtain ⟨hpos, hexec⟩ := exec_of_copyOperands hi s
  have haccepted : copyRejected offset len s.maxLen.toNat s.destPos = false :=
    copyRejected_eq_false.2 ⟨hpos, hreach, hfit⟩
  rw [hexec, copyBlock, haccepted]
  exact copyBytes_appends hf hpos hreach hfit

/-! ### The step runs what the decoder reads (42_block_decoder.md R110) -/

/-- What is read by index decides the step: the instruction runs on the state itself, a rejection is raised. -/
theorem step_of_fetchByIndex {s : State} {d : Except DecodeError Instr} (hf : fetch s = fetchByIndex d s) :
    (∀ i, d = .ok i → step s = exec i s) ∧ (∀ e, d = .error e → step s = raise (decodeErr e) s) := by
  refine ⟨fun i hd => ?_, fun e hd => ?_⟩
  · subst hd
    exact step_of_run hf
  · subst hd
    exact step_of_ended hf

theorem fetch_sniff {s : State} (hs : s.status = .running) (hp : s.phase = .sniff) :
    fetch s = fetchByIndex (decodeSniff s.input) s := by
  rw [fetch_running hs, fetchRunning, hp]

theorem fetch_pxaHeader {s : State} (hs : s.status = .running) (hp : s.phase = .pxaHeader) :
    fetch s = fetchByIndex (decodePxaHeader s.input) s := by
  rw [fetch_running hs, fetchRunning, hp]

theorem fetch_pxaBlocks {s : State} (hs : s.status = .running) (hp : s.phase = .pxaBlocks) :
    fetch s = fetchBlock s := by
  rw [fetch_running hs, fetchRunning, hp]

theorem step_block_of_error {s : State} {e : DecodeError} (hs : s.status = .running) (hp : s.phase = .pxaBlocks)
    (hm : moreBlocks s = true) (hd : decodeBlock s.input s.cur = .error e) : step s = raise (decodeErr e) s :=
  step_of_ended (by rw [fetch_pxaBlocks hs hp, fetchBlock, hm, hd]; rfl)

theorem step_block_of_ok {s : State} {i : Instr} {c : Cursor} (hs : s.status = .running) (hp : s.phase = .pxaBlocks)
    (hm : moreBlocks s = true) (hd : decodeBlock s.input s.cur = .ok (i, c)) : step s = exec i (s.setCursor c) :=
  step_of_run (by rw [fetch_pxaBlocks hs hp, fetchBlock, hm, hd]; rfl)

/-- Settles O1: the two headers and the Dispatcher's bytes are read by index; in the loops, where the loop condition
holds, each answer of the decoder has its equation for the step. -/
theorem stepRunsTheDecodedInstruction : Obligations.StepRunsTheDecodedInstruction := by
  intro s hs
  refine ⟨fun hp => step_of_fetchByIndex (fetch_sniff hs hp), fun hp => step_of_fetchByIndex (fetch_pxaHeader hs hp),
    fun hp => step_of_fetchByIndex (fetch_p8Header hs hp), fun hp hcur hdest => ?blocks, fun hp hdest => ?codes⟩
  case blocks =>
    have hm := moreBlocks_eq_true.2 ⟨hcur, hdest⟩
    exact ⟨fun _ _ => step_block_of_ok hs hp hm, fun _ => step_block_of_error hs hp hm⟩
  case codes =>
    have hm := moreCodes_eq_true.2 hdest
    exact ⟨fun _ _ => step_code_of_ok hs hp hm, fun _ => step_code_of_error hs hp hm⟩

end Sys2Proof.Machine
end

section
/-! PROOFS. The adaptive literal model (43_literal_model.md R130 to R133): the table after one update and after a run of
literals, its position counters, what a LIT block does with both, and that no step reads the counters. -/

namespace Sys2Proof.Machine

/-! ### One update of the table (43_literal_model.md R131, R133) -/

theorem moveToFront_front (p c : Byte) (t : Tables) : readTable (moveToFront p c t).lit 0#8 = c := by
  simpa using moveToFront_lit (p := p) (c := c) (t := t) (show 0 < 256 by decide)

theorem moveToFront_shifted {p c : Byte} {t : Tables} {k : Nat} (hpos : 1 ≤ k) (hk : k ≤ p.toNat) :
    readTable (moveToFront p c t).lit (BitVec.ofNat 8 k) = readTable t.lit (BitVec.ofNat 8 (k - 1)) := by
  have hp := p.isLt
  rw [moveToFront_lit (by omega), if_neg (by omega), if_pos hk]

theorem moveToFront_above {p c k : Byte} {t : Tables} (hk : p.toNat < k.toNat) :
    readTable (moveToFront p c t).lit k = readTable t.lit k := by
  have h := moveToFront_lit (p := p) (c := c) (t := t) k.isLt
  rwa [if_neg (by omega), if_neg (by omega), BitVec.ofNat_toNat, BitVec.setWidth_eq] at h

theorem toList_getElem_eq_readTable {t : Table} {k : Nat} (h : k < t.toList.length) :
    t.toList[k] = readTable t (BitVec.ofNat 8 k) := by
  have hk : k < 256 := by simpa using h
  simp only [readTable_eq_toList, BitVec.toNat_ofNat, Nat.mod_eq_of_lt hk]

/-- As a list, the table after an update is the byte written at the front and the old table without its entry at `p`. -/
theorem moveToFront_toList (p c : Byte) (t : Tables) :
    (moveToFront p c t).lit.toList = c :: t.lit.toList.eraseIdx p.toNat := by
  refine List.ext_getElem (by simp [List.length_eraseIdx, p.isLt]) fun k hk _ => ?_
  rw [toList_getElem_eq_readTable, moveToFront_lit (by simpa using hk)]
  cases k with
  | zero => rfl
  | succ k =>
    rw [if_neg (Nat.succ_ne_zero k), List.getElem_cons_succ, List.getElem_eraseIdx]
    by_cases hkp : k < p.toNat
    · rw [if_pos (show k + 1 ≤ p.toNat by omega), dif_pos hkp, toList_getElem_eq_readTable, Nat.add_sub_cancel]
    · rw [if_neg (show ¬ k + 1 ≤ p.toNat by omega), dif_neg hkp, toList_getElem_eq_readTable]

/-- The update only reorders the table. -/
theorem moveToFront_perm (p : Byte) (t : Tables) :
    (moveToFront p (readTable t.lit p) t).lit.toList.Perm t.lit.toList := by
  rw [moveToFront_toList, readTable_eq_toList]
  exact List.getElem_cons_eraseIdx_perm _

/-- On a table without repeats the entry at `p` is the only one that the update takes out of its place. -/
theorem moveToFront_toList_of_nodup {p : Byte} {t : Tables} (h : t.lit.toList.Nodup) :
    (moveToFront p (readTable t.lit p) t).lit.toList =
      readTable t.lit p :: t.lit.toList.filter (fun b => b != readTable t.lit p) := by
  rw [moveToFront_toList, ← h.erase_eq_filter, readTable_eq_toList, h.erase_getElem]

/-! ### The table after a run of literals (43_literal_model.md R133) -/

/-- One more byte produced first: it comes last in the recency order, unless it is produced again later. -/
theorem reverse_eraseDups_cons_append_filter (c : Byte) (bs l : List Byte) :
    (c :: bs).reverse.eraseDups ++ l.filter (fun b => !(c :: bs).contains b) =
      bs.reverse.eraseDups ++ (c :: l.filter (fun b => b != c)).filter (fun b => !bs.contains b) := by
  have hlast : (c :: bs).reverse.eraseDups = bs.reverse.eraseDups ++ [c].filter (fun b => !bs.contains b) := by
    rw [List.reverse_cons, List.eraseDups_append]
    by_cases hc : c ∈ bs <;> simp [List.removeAll, List.eraseDups_cons, hc]
  have hrest : l.filter (fun b => !(c :: bs).contains b) =
      (l.filter (fun b => b != c)).filter (fun b => !bs.contains b) := by
    rw [List.filter_filter]
    refine List.filter_congr fun b _ => ?_
    rw [List.contains_cons, Bool.not_or, Bool.and_comm, bne]
  rw [hlast, hrest, List.append_assoc, ← List.filter_append, List.singleton_append]

/-- A run of literals on a permutation: the bytes produced, the most recent first, then the others as they stood. -/
theorem literalRun_toList {ps : List Byte} {t : Tables} (h : t.lit.toList.Nodup) :
    (literalRun ps t).2.lit.toList =
      (literalRun ps t).1.reverse.eraseDups ++ t.lit.toList.filter (fun b => !(literalRun ps t).1.contains b) := by
  induction ps generalizing t with
  | nil => simp [literalRun]
  | cons p ps ih =>
    have hnext := ih ((moveToFront_perm p t).nodup_iff.2 h)
    rw [moveToFront_toList_of_nodup h] at hnext
    exact hnext.trans (reverse_eraseDups_cons_append_filter _ _ _).symm

/-- Settles O20: the update entry by entry and as a permutation, then by induction over the literals. -/
theorem moveToFrontShifts : Obligations.MoveToFrontShifts := by
  refine ⟨fun p t => ⟨moveToFront_front _ _ _, fun k hk => ?_, fun k => moveToFront_above,
    (moveToFront_perm p t).nodup_iff.2⟩, fun _ _ => literalRun_toList⟩
  exact moveToFront_shifted (Nat.le_add_left 1 k) hk

/-! ### The position counters (43_literal_model.md R132) -/

/-- Settles O21: `moveToFront_lpos` at the byte moved, at a byte before it and at a byte after it. -/
theorem moveToFrontKeepsCounters : Obligations.MoveToFrontKeepsCounters := by
  intro p t h
  have hne : ∀ {k : Byte}, k ≠ p → readTable t.lit k ≠ readTable t.lit p := fun hk e =>
    hk ((h.2 _).symm.trans ((congrArg _ e).trans (h.2 p)))
  refine ⟨tablesInverse_moveToFront h, ?front, fun k hk => ?before, fun k hk => ?after⟩
  case front => rw [moveToFront_lpos h, if_pos rfl]
  case before =>
    have hp := p.isLt
    have hk8 : (BitVec.ofNat 8 k).toNat = k := Nat.mod_eq_of_lt (by omega)
    have hlt : BitVec.ofNat 8 k < p := by rwa [BitVec.lt_def, hk8]
    rw [moveToFront_lpos h, if_neg (hne (BitVec.ne_of_lt hlt)), h.2, if_pos hlt, BitVec.toNat_add, hk8]
    exact Nat.mod_eq_of_lt (show k + 1 < 256 by omega)
  case after =>
    have hkp : p < k := hk
    rw [moveToFront_lpos h, if_neg (hne (BitVec.ne_of_lt hkp).symm), h.2,
      if_neg (BitVec.not_lt.2 (BitVec.le_of_lt hkp))]

/-! ### The LIT block (42_block_decoder.md R116, R117) -/

/-- The LIT forms with a field are one operation on their table position. -/
theorem exec_of_literalOperand {i : Instr} {p : Nat} (h : literalOperand i = some p) (s : State) :
    ∃ e v, literalPosition e v = p ∧ exec i s = literalBlock e v s := by
  cases i
  case lit0 | lit1 | lit2 | lit3 | lit4 | litE5 | litE6 | litE7 | litE8 | litE9 | litE10 | litE11 =>
    exact ⟨_, _, Option.some.inj h, rfl⟩
  all_goals cases h

/-- A LIT block in range and with room appends the byte at its position and moves it to the front. -/
theorem literalBlock_of_le {e v p : Nat} {s : State} (hp : literalPosition e v = p) (hle : p ≤ 255)
    (hroom : s.destPos < s.maxLen.toNat) :
    literalBlock e v s =
      .next ((s.appendByte (readTable s.lit (BitVec.ofNat 8 p))).moveToFront (BitVec.ofNat 8 p)
        (readTable s.lit (BitVec.ofNat 8 p))) := by
  subst hp
  obtain ⟨t, ht⟩ := literalBlock_answers e v hroom
  obtain ⟨hover, -⟩ | ⟨-, -, rfl⟩ := literalBlock_cases ht
  · omega
  · exact ht

theorem appended_appendByte (b : Byte) (s : State) : appended s (s.appendByte b) 1 (fun _ => some b) := by
  refine ⟨rfl, fun k hk => ?_, fun a ha => ?_⟩
  · rw [Nat.lt_one_iff.1 hk]
    exact Memory.read_write_same _ _ _
  · exact Memory.read_write_other _ _ (by omega)

/-- Settles O19: the block appends and then updates the table; each clause is a law of one of the two. -/
theorem litAppendsAndMovesToFront : Obligations.LitAppendsAndMovesToFront := by
  intro i p s hi hle hroom htables
  obtain ⟨e, v, hp, hexec⟩ := exec_of_literalOperand hi s
  have hp8 : (BitVec.ofNat 8 p).toNat = p := Nat.mod_eq_of_lt (by omega)
  refine ⟨_, hexec.trans (literalBlock_of_le hp hle hroom), rfl, appended_appendByte _ s, moveToFront_front _ _ _,
    fun k hpos hk => moveToFront_shifted hpos (hk.trans hp8.ge), fun k hlt hk => moveToFront_above ?_,
    tablesInverse_moveToFront (t := ⟨s.lit, s.lpos⟩) htables⟩
  rwa [hp8, BitVec.toNat_ofNat, Nat.mod_eq_of_lt (by omega)]

/-! ### The position counters are never read (43_literal_model.md R132, 10_state.md R15) -/

@[simp] theorem hideLpos_input (s : State) : (hideLpos s).input = s.input := rfl
@[simp] theorem hideLpos_cur (s : State) : (hideLpos s).cur = s.cur := rfl
@[simp] theorem hideLpos_maxLen (s : State) : (hideLpos s).maxLen = s.maxLen := rfl
@[simp] theorem hideLpos_destPos (s : State) : (hideLpos s).destPos = s.destPos := rfl
@[simp] theorem hideLpos_p8Cap (s : State) : (hideLpos s).p8Cap = s.p8Cap := rfl
@[simp] theorem hideLpos_readOut (s : State) (a : Nat) : (hideLpos s).readOut a = s.readOut a := rfl

/-- The outcome of an operation does not depend on `LPOS`, apart from `LPOS` itself. -/
def LposUnread (op : State → Outcome) : Prop := ∀ s, onNext hideLpos (op s) = onNext hideLpos (op (hideLpos s))

/-- What goes on after an outcome does not see the outcome's `LPOS`. -/
theorem onNext_andThen_hideLpos {f : State → Outcome} (hf : LposUnread f) (o : Outcome) :
    onNext hideLpos (andThen o f) = onNext hideLpos (andThen (onNext hideLpos o) f) := by
  cases o with
  | next s => exact hf s
  | fault r => rfl
  | refused r => rfl

/-- Two operations that do not read `LPOS`, one after the other, do not read it. -/
theorem LposUnread.andThen {op f : State → Outcome} (hop : LposUnread op) (hf : LposUnread f) :
    LposUnread (fun s => andThen (op s) f) := by
  intro s
  dsimp only
  rw [onNext_andThen_hideLpos hf (op s), hop s, ← onNext_andThen_hideLpos hf]

/-- A fault frees `LPOS` with the other registers. -/
theorem lposUnread_raise (e : Err) : LposUnread (raise e) := fun _ => rfl

theorem lposUnread_putByte (capacity : Nat) (b : Byte) : LposUnread (putByte capacity b) := by
  intro s
  rw [putByte, putByte, hideLpos_destPos]
  split
  · rfl
  · rfl

theorem lposUnread_copyBytes (capacity offset len : Nat) : LposUnread (copyBytes capacity offset len) := by
  induction len with
  | zero => exact fun _ => rfl
  | succ len ih =>
    intro s
    rw [copyBytes, copyBytes, hideLpos_readOut, hideLpos_destPos]
    cases s.readOut (s.destPos - offset) with
    | none => rfl
    | some b => exact (lposUnread_putByte capacity b).andThen ih s

theorem lposUnread_copyBlock (offset len : Nat) : LposUnread (copyBlock offset len) := by
  intro s
  rw [copyBlock, copyBlock, hideLpos_destPos, hideLpos_maxLen]
  split
  · exact lposUnread_raise _ s
  · exact lposUnread_copyBytes _ _ _ s

theorem lposUnread_p8Copy (offset len : Nat) : LposUnread (p8Copy offset len) := by
  intro s
  rw [p8Copy, p8Copy, hideLpos_destPos, hideLpos_p8Cap]
  split
  · exact lposUnread_raise _ s
  · exact lposUnread_copyBytes _ _ _ s

theorem lposUnread_rawRun (k : Nat) : LposUnread (rawRun k) := by
  induction k with
  | zero => exact fun _ => rfl
  | succ k ih =>
    intro s
    rw [rawRun, rawRun, hideLpos_input, hideLpos_cur, hideLpos_maxLen]
    split
    · exact lposUnread_raise _ s
    · next v c _ =>
      split
      · rfl
      · exact (lposUnread_putByte s.maxLen.toNat (BitVec.ofNat 8 v)).andThen ih (s.setCursor c)

/-- The update reads `LIT` alone to write `LIT`. -/
theorem moveToFront_lit_congr (p c : Byte) (lit lpos lpos' : Table) :
    (moveToFront p c ⟨lit, lpos⟩).lit = (moveToFront p c ⟨lit, lpos'⟩).lit :=
  Vector.toList_inj.1 (by rw [moveToFront_toList, moveToFront_toList])

theorem hideLpos_moveToFront (p c : Byte) (s : State) :
    hideLpos (s.moveToFront p c) = hideLpos ((hideLpos s).moveToFront p c) :=
  congrArg (fun lit => hideLpos { s with lit := lit }) (moveToFront_lit_congr p c s.lit s.lpos identityTable)

theorem lposUnread_literalBlock (e v : Nat) : LposUnread (literalBlock e v) := by
  intro s
  rw [literalBlock, literalBlock]
  split
  · exact lposUnread_raise _ s
  · have hmove : ∀ p c, LposUnread (fun s => .next (s.moveToFront p c)) := fun p c s =>
      congrArg Host.Outcome.next (hideLpos_moveToFront p c s)
    exact (lposUnread_putByte s.maxLen.toNat _).andThen (hmove _ _) s

theorem lposUnread_execHdrP8 (len : Half) : LposUnread (execHdrP8 len) := by
  intro s
  have hcapacity : p8Capacity (hideLpos s).entry (hideLpos s).cap (hideLpos s).p8OutCap =
    p8Capacity s.entry s.cap s.p8OutCap := rfl
  rw [execHdrP8, execHdrP8, hcapacity]
  split
  · exact lposUnread_raise _ s
  · rfl

/-- No instruction reads `LPOS`; the PXA header writes it. -/
theorem lposUnread_exec (i : Instr) : LposUnread (exec i) := by
  intro s
  cases i
  case lit0 | lit1 | lit2 | lit3 | lit4 | litE5 | litE6 | litE7 | litE8 | litE9 | litE10 | litE11 =>
    exact lposUnread_literalBlock _ _ s
  case litE12 | litE13 | litE14 | litE15 | litE16 => exact lposUnread_raise _ s
  case copy15 | copy10 | copy5 => exact lposUnread_copyBlock _ _ s
  case raw => exact lposUnread_rawRun (s.maxLen.toNat - s.destPos) s
  case p8Esc b => exact lposUnread_putByte s.p8Cap b s
  case p8Sym val => exact lposUnread_putByte s.p8Cap (p8Symbol s.cfg.alphabet val) s
  case p8Back => exact lposUnread_p8Copy _ _ s
  case hdrP8 len => exact lposUnread_execHdrP8 len s
  case hdrPxa | sniffPxa | sniffP8 | sniffLegacy => rfl

/-! The step: the fetch finds the same with `LPOS` hidden. -/

theorem step_block_of_done {s : State} (hs : s.status = .running) (hp : s.phase = .pxaBlocks)
    (hm : moreBlocks s = false) : step s = finishPxa s :=
  step_of_ended (by rw [fetch_pxaBlocks hs hp, fetchBlock, hm]; rfl)

theorem lposUnread_finishPxa : LposUnread finishPxa := by
  intro s
  have hcomplete : pxaComplete (hideLpos s) = pxaComplete s := rfl
  rw [finishPxa, finishPxa, hcomplete]
  split
  · rfl
  · exact lposUnread_raise _ s

theorem step_byIndex_hideLpos {s : State} {d : Except DecodeError Instr} (hf : fetch s = fetchByIndex d s)
    (hf' : fetch (hideLpos s) = fetchByIndex d (hideLpos s)) :
    onNext hideLpos (step s) = onNext hideLpos (step (hideLpos s)) := by
  cases d with
  | error e =>
    rw [step_of_ended hf, step_of_ended hf']
    exact lposUnread_raise _ s
  | ok i =>
    rw [step_of_run hf, step_of_run hf']
    exact lposUnread_exec i s

theorem step_block_hideLpos {s : State} (hs : s.status = .running) (hp : s.phase = .pxaBlocks) :
    onNext hideLpos (step s) = onNext hideLpos (step (hideLpos s)) := by
  cases hm : moreBlocks s with
  | false =>
    rw [step_block_of_done hs hp hm, step_block_of_done (s := hideLpos s) hs hp hm]
    exact lposUnread_finishPxa s
  | true =>
    cases hd : decodeBlock s.input s.cur with
    | error e =>
      rw [step_block_of_error hs hp hm hd, step_block_of_error (s := hideLpos s) hs hp hm hd]
      exact lposUnread_raise _ s
    | ok r =>
      rw [step_block_of_ok hs hp hm hd, step_block_of_ok (s := hideLpos s) hs hp hm hd]
      exact lposUnread_exec r.1 (s.setCursor r.2)

theorem step_code_hideLpos {s : State} (hs : s.status = .running) (hp : s.phase = .p8Codes) :
    onNext hideLpos (step s) = onNext hideLpos (step (hideLpos s)) := by
  cases hm : moreCodes s with
  | false =>
    rw [step_code_of_done hs hp hm, step_code_of_done (s := hideLpos s) hs hp hm]
    rfl
  | true =>
    cases hd : decodeCode s.input s.p8Src with
    | error e =>
      rw [step_code_of_error hs hp hm hd, step_code_of_error (s := hideLpos s) hs hp hm hd]
      exact lposUnread_raise _ s
    | ok r =>
      rw [step_code_of_ok hs hp hm hd, step_code_of_ok (s := hideLpos s) hs hp hm hd]
      exact lposUnread_exec r.1 (s.setSource r.2)

/-- Settles O22: in each phase the fetch finds the same, and neither an instruction nor an end of the step reads
`LPOS`. -/
theorem lposIsNeverRead : Obligations.LposIsNeverRead := by
  intro s
  by_cases hs : s.status = .running
  · have hs' : (hideLpos s).status = .running := hs
    cases hp : s.phase with
    | sniff => exact step_byIndex_hideLpos (fetch_sniff hs hp) (fetch_sniff hs' hp)
    | pxaHeader => exact step_byIndex_hideLpos (fetch_pxaHeader hs hp) (fetch_pxaHeader hs' hp)
    | p8Header => exact step_byIndex_hideLpos (fetch_p8Header hs hp) (fetch_p8Header hs' hp)
    | pxaBlocks => exact step_block_hideLpos hs hp
    | p8Codes => exact step_code_hideLpos hs hp
  · rw [step_not_running hs, step_not_running (s := hideLpos s) hs]

end Sys2Proof.Machine
end

section
/-! PROOFS. The PXA engine (44_pxa_engine.md R140 to R143, R151): what the header's step reads from the input, and that
the lengths it has written stay what the header says until a call of the PXA route has returned its bytes. -/

namespace Sys2Proof.Machine

/-! ### The header's decoder (44_pxa_engine.md R140 to R142) -/

theorem bigEndian_toNat (hi lo : Byte) : (bigEndian hi lo).toNat = hi.toNat * 256 + lo.toNat := by
  rw [bigEndian, BitVec.toNat_ofNat]
  exact Nat.mod_eq_of_lt (by omega)

/-- The first four bytes are exactly the magic (44_pxa_engine.md R141). -/
abbrev magicExact (inp : List Byte) (h : 8 ≤ inp.length) : Prop :=
  inp[0] = 0x00#8 ∧ inp[1] = 0x70#8 ∧ inp[2] = 0x78#8 ∧ inp[3] = 0x61#8

theorem decodePxaHeader_of_short {inp : List Byte} (h : inp.length < 8) :
    decodePxaHeader inp = .error .endOfInput := by
  unfold decodePxaHeader
  split
  · simp only [List.length_cons] at h
    omega
  · rfl

/-- With eight bytes the magic alone decides; the fields can hold any lengths (44_pxa_engine.md R142). -/
theorem decodePxaHeader_of_length_le {inp : List Byte} (h : 8 ≤ inp.length) :
    decodePxaHeader inp =
      if magicExact inp h then .ok (.hdrPxa (bigEndian inp[4] inp[5]) (bigEndian inp[6] inp[7]))
      else .error .badMagic := by
  match inp, h with
  | m0 :: m1 :: m2 :: m3 :: r0 :: r1 :: k0 :: k1 :: tl, h =>
    have hiff : [m0, m1, m2, m3] = pxaMagic ↔ magicExact (m0 :: m1 :: m2 :: m3 :: r0 :: r1 :: k0 :: k1 :: tl) h := by
      simp [magicExact]
    exact if_congr hiff rfl rfl

/-! ### The capacity (44_pxa_engine.md R143) -/

theorem pxaCapacity_none (rawLen : Half) : pxaCapacity none rawLen = rawLen := rfl

theorem pxaCapacity_some (k : Nat) (rawLen : Half) : (pxaCapacity (some k) rawLen).toNat = min k rawLen.toNat := by
  rw [pxaCapacity, BitVec.toNat_ofNat]
  exact Nat.mod_eq_of_lt (by omega)

/-! ### The step at the header -/

section
variable {s : State} (hs : s.status = .running) (hp : s.phase = .pxaHeader)
include hs hp

theorem step_pxaHeader_of_short (h : s.input.length < 8) : step s = .next (s.raised .endOfInput) :=
  (step_of_fetchByIndex (fetch_pxaHeader hs hp)).2 .endOfInput (decodePxaHeader_of_short h)

theorem step_pxaHeader_of_badMagic (h : 8 ≤ s.input.length) (hm : ¬ magicExact s.input h) :
    step s = .next (s.raised .invalidHeader) :=
  (step_of_fetchByIndex (fetch_pxaHeader hs hp)).2 .badMagic (by rw [decodePxaHeader_of_length_le h, if_neg hm])

theorem step_pxaHeader_of_magic (h : 8 ≤ s.input.length) (hm : magicExact s.input h) :
    step s = .next (s.pxaStarted (bigEndian s.input[4] s.input[5]) (bigEndian s.input[6] s.input[7])) :=
  (step_of_fetchByIndex (fetch_pxaHeader hs hp)).1 (.hdrPxa _ _) (by rw [decodePxaHeader_of_length_le h, if_pos hm])

end

theorem hasRaised_raised (e : Err) (s : State) : hasRaised e s (s.raised e) := ⟨rfl, rfl, rfl, sameCall_refl s⟩

/-- Settles O29: one equation for the step in each of the three cases, and the two forms of the capacity. -/
theorem pxaHeaderCheckedAndParsed : Obligations.PxaHeaderCheckedAndParsed := by
  intro s hs hp
  refine ⟨fun h => ⟨_, step_pxaHeader_of_short hs hp h, hasRaised_raised _ s⟩, fun h => ⟨fun hm => ?bad, fun hm => ?good⟩⟩
  case bad => exact ⟨_, step_pxaHeader_of_badMagic hs hp h hm, hasRaised_raised _ s⟩
  case good =>
    refine ⟨_, step_pxaHeader_of_magic hs hp h hm, hs, sameCall_refl s, bigEndian_toNat _ _, bigEndian_toNat _ _,
      fun hc => ?_, fun k hc => ?_⟩
    · rw [State.pxaStarted_maxLen, hc, pxaCapacity_none, State.pxaStarted_rawLen]
    · rw [State.pxaStarted_maxLen, hc, pxaCapacity_some, State.pxaStarted_rawLen]

/-! ### The lengths of the header along a call -/

/-- `RAW_LEN` is the field of the input's header and `MAX_LEN` is the capacity that it gives (44_pxa_engine.md R142,
R143). -/
def lengthsRead (s : State) : Prop :=
  ∃ h : 8 ≤ s.input.length, s.rawLen.toNat = s.input[4].toNat * 256 + s.input[5].toNat ∧
    s.maxLen = pxaCapacity s.cap s.rawLen

/-- A call of the PXA route that has not faulted stands at its header or has read the lengths. -/
def headerInv (s : State) : Prop :=
  s.status ≠ .fault → s.format = .pxa → s.status = .running ∧ s.phase = .pxaHeader ∨ lengthsRead s

/-- The header's step reads the lengths or raises a fault. -/
theorem step_pxaHeader_lengthsRead {s t : State} (hp : s.phase = .pxaHeader) (h : step s = .next t)
    (ht : t.status ≠ .fault) : lengthsRead t := by
  have hs := running_of_step_next h
  rcases Nat.lt_or_ge s.input.length 8 with hlen | hlen
  · cases (step_pxaHeader_of_short hs hp hlen).symm.trans h
    exact absurd rfl ht
  · by_cases hm : magicExact s.input hlen
    · cases (step_pxaHeader_of_magic hs hp hlen hm).symm.trans h
      exact ⟨hlen, bigEndian_toNat _ _, rfl⟩
    · cases (step_pxaHeader_of_badMagic hs hp hlen hm).symm.trans h
      exact absurd rfl ht

theorem headerInv_start (cfg : Config) (input : List Byte) (cap : Option Nat) (entry : Entry) (p8OutCap : Nat) :
    headerInv (State.start cfg input cap entry p8OutCap) := by
  intro _ hf
  cases entry
  case pxa => exact .inl ⟨rfl, rfl⟩
  case auto | p8 => cases hf

/-- In the block loop of a running call the lengths have been read. -/
theorem lengthsRead_of_pxaBlocks {s : State} (hs : s.status = .running) (hp : s.phase = .pxaBlocks)
    (hphase : phaseInv s) (h : headerInv s) : lengthsRead s := by
  obtain ⟨hf, -⟩ := (phaseInv_pxaBlocks hp).1 hphase
  obtain ⟨-, hhdr⟩ | hread := h (by simp [hs]) hf
  · simp [hp] at hhdr
  · exact hread

theorem format_ne_pxa {s : State} (hp : s.phase = .p8Header ∨ s.phase = .p8Codes) (hphase : phaseInv s) :
    s.format ≠ .pxa := by
  have hf : s.format = .p8 := hp.elim (fun hp => ((phaseInv_p8Header hp).1 hphase).1)
    fun hp => ((phaseInv_p8Codes hp).1 hphase).1
  simp [hf]

/-- Only the header's step writes the lengths; a call that takes the P8 route stays on it. -/
theorem headerInv_step {s t : State} (hi : s.Inv) (h : step s = .next t) (hh : headerInv s) : headerInv t := by
  intro ht hf
  have hs := running_of_step_next h
  have hphase := (hi.running hs).phase
  cases step_transition h with
  | faulted hfault =>
    obtain ⟨e, u, -, -, rfl⟩ := hfault
    exact absurd rfl ht
  | sniffedPxa => exact .inl ⟨hs, rfl⟩
  | sniffedP8 => cases hf
  | pxaHeader _ _ hp => exact .inr (step_pxaHeader_lengthsRead hp h ht)
  | p8Header _ hp => exact absurd hf (format_ne_pxa (s := s) (.inl hp) hphase)
  | block hp _ hr =>
    have hread := lengthsRead_of_pxaBlocks hs hp hphase hh
    rw [hr.frame]
    exact .inr hread
  | pxaDone hp =>
    have hread := lengthsRead_of_pxaBlocks hs hp hphase hh
    exact .inr hread
  | code hp _ hr =>
    rw [hr.frame] at hf
    exact absurd hf (format_ne_pxa (s := s) (.inr hp) hphase)
  | p8Done hp => exact absurd hf (format_ne_pxa (s := s) (.inr hp) hphase)

/-! ### A whole call -/

/-- A run is its first step and the run from there. -/
theorem runSteps_succ (n : Nat) (s : State) : runSteps (n + 1) s = andThen (step s) (runSteps n) := by
  cases h : step s with
  | next u | fault r | refused r => simp only [runSteps, Host.Core.run, Sys2Proof.core, h, andThen]

/-- The induction over a run: what every step keeps holds at its end. -/
theorem runSteps_induction {P : State → Prop} (hstep : ∀ s t, P s → step s = .next t → P t) {n : Nat} {s t : State}
    (hs : P s) (h : runSteps n s = .next t) : P t := by
  induction n generalizing s with
  | zero =>
    cases h
    exact hs
  | succ n ih =>
    obtain ⟨u, hone, hrest⟩ := andThen_eq_next.1 ((runSteps_succ n s).symm.trans h)
    exact ih (hstep s u hs hone) hrest

/-- Along the run of a call the parameters are its own, the invariant holds and the lengths are the header's. -/
theorem runSteps_start {cfg : Config} {input : List Byte} {cap : Option Nat} {entry : Entry} {p8OutCap n : Nat}
    {t : State} (hcfg : cfg.wf) (h : runSteps n (State.start cfg input cap entry p8OutCap) = .next t) :
    sameCall (State.start cfg input cap entry p8OutCap) t ∧ t.Inv ∧ headerInv t := by
  refine runSteps_induction (P := fun u => sameCall (State.start cfg input cap entry p8OutCap) u ∧ u.Inv ∧ headerInv u)
    ?_ ⟨sameCall_refl _, everyStartMeetsInvariant cfg input cap entry p8OutCap hcfg,
    headerInv_start cfg input cap entry p8OutCap⟩ h
  rintro u v ⟨hcall, hinv, hhdr⟩ huv
  exact ⟨sameCall_trans hcall (stepKeepsParameters u v huv), stepKeepsInvariant u v hinv huv,
    headerInv_step hinv huv hhdr⟩

/-- `Ok` of at most `DEST_POS` bytes returns as many, since all of them have been written. -/
theorem exists_okBytes {s : State} {n : Nat} (hs : s.status = .done) (hr : s.result = some n) (hf : outFilled s)
    (hn : n ≤ s.destPos) : ∃ bs, s.okBytes = some bs ∧ bs.length = n := by
  refine ⟨(List.range n).filterMap s.out.read, by simp only [State.okBytes, hs, hr, Option.map_some], ?_⟩
  have hall : ∀ a ∈ List.range n, (s.out.read a).isSome = true := fun a ha =>
    (hf a).2 ((List.mem_range.1 ha).trans_le hn)
  rw [List.filterMap_length_eq_length.2 hall, List.length_range]

/-- Settles O50: after `Ok` the number of bytes returned is `DEST_POS` and `MAX_LEN`, which without a cap is the
`RAW_LEN` read from the header. -/
theorem uncappedPxaReturnsRawLen : Obligations.UncappedPxaReturnsRawLen := by
  intro cfg input entry p8OutCap n t hcfg hrun hdone hpxa
  obtain ⟨⟨-, hinput, hcap, -, -⟩, hinv, hhdr⟩ := runSteps_start hcfg hrun
  obtain ⟨-, hfilled, -, m, hm, hle, hend⟩ := hinv.done hdone
  obtain ⟨hdest, hmax⟩ := hend hpxa
  obtain ⟨bs, hbs, hlen⟩ := exists_okBytes hdone hm hfilled hle
  obtain ⟨hrunning, -⟩ | ⟨h8, hraw, hcapacity⟩ := hhdr (by simp [hdone]) hpxa
  · simp [hdone] at hrunning
  · have hmaxRaw : t.maxLen = t.rawLen := by rw [hcapacity, hcap]; rfl
    change t.input = input at hinput
    subst hinput
    refine ⟨h8, bs, hbs, ?_, hdest.symm.trans hmax, hmax.symm.trans hlen.symm⟩
    rw [hlen, hmax, hmaxRaw, hraw]

end Sys2Proof.Machine
end

section
/-! PROOFS. The Dispatcher (45_dispatcher.md R160 to R162): its three instructions, and the input that takes neither
route. -/

namespace Sys2Proof.Machine

/-! ### The three instructions (45_dispatcher.md R161, R162) -/

theorem exec_sniffPxa (b0 b1 b2 b3 : Byte) (s : State) :
    exec (.sniffPxa b0 b1 b2 b3) s = .next (s.routed .pxa .pxaHeader) := rfl

theorem exec_sniffP8 (s : State) : exec .sniffP8 s = .next (s.routed .p8 .p8Header) := rfl

theorem exec_sniffLegacy (b0 b1 b2 b3 : Byte) (s : State) :
    exec (.sniffLegacy b0 b1 b2 b3) s = raise .unsupported (s.routed .legacy s.phase) := rfl

/-- The fault frees `FORMAT` (60_exceptions.md R199; log 6), so what was written to it before does not show. -/
theorem raised_routed_same_phase (e : Err) (f : Format) (s : State) : (s.routed f s.phase).raised e = s.raised e := rfl

theorem exec_sniffLegacy_raised (b0 b1 b2 b3 : Byte) (s : State) :
    exec (.sniffLegacy b0 b1 b2 b3) s = .next (s.raised .unsupported) := by
  rw [exec_sniffLegacy, raise, raised_routed_same_phase]

/-- Settles O33: one equation for each of the three instructions, and what a fault leaves. -/
theorem sniffsRoute : Obligations.SniffsRoute := fun b0 b1 b2 b3 s =>
  ⟨exec_sniffPxa b0 b1 b2 b3 s, exec_sniffP8 s, exec_sniffLegacy b0 b1 b2 b3 s, _, exec_sniffLegacy_raised b0 b1 b2 b3 s,
    hasRaised_raised .unsupported s⟩

/-! ### An input that matches neither test (45_dispatcher.md R160 to R162, decision D10) -/

/-- The class of the input is decided by its first four bytes. -/
theorem decodeSniff_of_neither {b0 b1 b2 b3 : Byte} (rest : List Byte) (hpxa : resemblesPxa b0 b1 b2 b3 = false)
    (hp8 : isP8Magic b0 b1 b2 b3 = false) :
    decodeSniff (b0 :: b1 :: b2 :: b3 :: rest) = .ok (.sniffLegacy b0 b1 b2 b3) := by
  simp only [decodeSniff, hpxa, hp8, Bool.false_eq_true, if_false]

theorem step_sniff_of_neither {s : State} {b0 b1 b2 b3 : Byte} {rest : List Byte} (hs : s.status = .running)
    (hp : s.phase = .sniff) (hi : s.input = b0 :: b1 :: b2 :: b3 :: rest) (hpxa : resemblesPxa b0 b1 b2 b3 = false)
    (hp8 : isP8Magic b0 b1 b2 b3 = false) : step s = .next (s.raised .unsupported) := by
  have hd : decodeSniff s.input = .ok (.sniffLegacy b0 b1 b2 b3) := by rw [hi, decodeSniff_of_neither rest hpxa hp8]
  rw [(step_of_fetchByIndex (fetch_sniff hs hp)).1 _ hd, exec_sniffLegacy_raised]

/-- A fault returns no bytes (60_exceptions.md R198). -/
theorem okBytes_raised (e : Err) (s : State) : (s.raised e).okBytes = none := rfl

/-- Settles O35: the step raises Unsupported, on any other rest of the input too, and raising leaves the input as it
was. -/
theorem legacyIsUnsupported : Obligations.LegacyIsUnsupported := by
  intro s b0 b1 b2 b3 rest hs hp hi hpxa hp8
  refine ⟨_, step_sniff_of_neither hs hp hi hpxa hp8, hasRaised_raised _ s, okBytes_raised _ s, fun rest' => ?_⟩
  exact step_sniff_of_neither (s := { s with input := b0 :: b1 :: b2 :: b3 :: rest' }) hs hp rfl hpxa hp8

end Sys2Proof.Machine
end

section
/-! PROOFS. The P8 decoder (46_p8_decoder.md R170 to R176): a code that the input cuts short, the header, and the two
codes that append one byte. -/

namespace Sys2Proof.Machine

/-! ### A code cut short by the end of the input (46_p8_decoder.md R173) -/

theorem nextByte_of_length_le {inp : List Byte} {k : Nat} (h : inp.length ≤ k) :
    nextByte inp k = .error .endOfInput := by
  rw [nextByte, List.getElem?_eq_none h]

theorem decodeCode_of_length_le {inp : List Byte} {k : Nat} (h : inp.length ≤ k) :
    decodeCode inp k = .error .endOfInput := by
  rw [decodeCode, nextByte_of_length_le h, error_bind]

/-- The codes of two bytes are the escape, 0, and the back-references, 60 and above (46_p8_decoder.md R175, R177). -/
theorem decodeCode_of_second_missing {inp : List Byte} {k : Nat} {val : Byte} (h0 : inp[k]? = some val)
    (htwo : val = 0#8 ∨ 60 ≤ val.toNat) (h1 : inp.length ≤ k + 1) : decodeCode inp k = .error .endOfInput := by
  simp only [decodeCode, nextByte_of_getElem? h0, nextByte_of_length_le h1, ok_bind, error_bind]
  obtain rfl | hge := htwo
  · rw [if_pos rfl]
  · have hnlt : ¬ val.toNat < p8AlphabetSize := Nat.not_lt.2 hge
    rw [if_neg hnlt, ite_self]

section
variable {s : State} (hs : s.status = .running) (hp : s.phase = .p8Codes) (hmore : s.destPos < s.p8Len.toNat)
include hs hp hmore

theorem step_code_raises_endOfInput (hd : decodeCode s.input s.p8Src = .error .endOfInput) :
    ∃ t, step s = .next t ∧ hasRaised .endOfInput s t :=
  ⟨_, step_code_of_error hs hp (moreCodes_eq_true.2 hmore) hd, hasRaised_raised .endOfInput s⟩

theorem step_code_of_second_missing {val : Byte} (h0 : s.input[s.p8Src]? = some val)
    (htwo : val = 0#8 ∨ 60 ≤ val.toNat) (h1 : s.input.length ≤ s.p8Src + 1) :
    ∃ t, step s = .next t ∧ hasRaised .endOfInput s t :=
  step_code_raises_endOfInput hs hp hmore (decodeCode_of_second_missing h0 htwo h1)

end

/-- Settles O53: what the decoder answers in each of the five cases decides the step. -/
theorem codeCutShortIsEndOfInput : Obligations.CodeCutShortIsEndOfInput := by
  intro s hs hp hmore
  have hruns {i : Instr} {n : Nat} (hd : decodeCode s.input s.p8Src = .ok (i, n)) : step s = exec i (s.setSource n) :=
    step_code_of_ok hs hp (moreCodes_eq_true.2 hmore) hd
  refine ⟨fun h => step_code_raises_endOfInput hs hp hmore (decodeCode_of_length_le h),
    fun val => step_code_of_second_missing hs hp hmore, fun val h0 hne hlt => hruns ?sym,
    fun b h0 h1 => hruns (decodeCode_esc h0 h1), fun val val2 h0 hge h1 => hruns ?back⟩
  case sym => exact decodeCode_sym h0 (decide_eq_true ⟨by bv_omega, hlt⟩)
  case back => exact decodeCode_back h0 h1 (decide_eq_true hge)

/-! ### The header (46_p8_decoder.md R170 to R172) -/

theorem decodeP8Header_of_short {inp : List Byte} (h : inp.length < 8) : decodeP8Header inp = .error .endOfInput := by
  unfold decodeP8Header
  split
  · simp only [List.length_cons] at h
    omega
  · rfl

theorem exec_hdrP8_of_gt {len : Half} {s : State} (h : p8Capacity s.entry s.cap s.p8OutCap < len.toNat) :
    exec (.hdrP8 len) s = .next (s.raised .outputExceeded) := if_pos h

theorem exec_hdrP8_of_le {len : Half} {s : State} (h : len.toNat ≤ p8Capacity s.entry s.cap s.p8OutCap) :
    exec (.hdrP8 len) s = .next (s.p8Started len (p8Capacity s.entry s.cap s.p8OutCap)) := if_neg (Nat.not_lt.2 h)

/-- Before anything is appended no cell of `OUT` holds a value (10_state.md R23). -/
theorem read_eq_none_of_destPos_eq_zero {s : State} (hf : outFilled s) (hd : s.destPos = 0) (a : Nat) :
    s.out.read a = none := by
  rw [← Option.not_isSome_iff_eq_none, hf a, hd]
  exact Nat.not_lt_zero a

/-- Settles O36: the header's decoder on a short input, one equation on each side of the capacity check, the invariant
at the header, and the capacity of each entry point. -/
theorem hdrP8ChecksCapacity : Obligations.HdrP8ChecksCapacity := by
  intro len s
  refine ⟨fun hs hp h => ?short, fun h => ⟨_, exec_hdrP8_of_gt h, hasRaised_raised .outputExceeded s⟩,
    exec_hdrP8_of_le, fun hinv hs hp => ?empty, fun he => by rw [he]; rfl, fun he hc => by rw [he, hc]; rfl,
    fun k he hc => by rw [he, hc]; rfl⟩
  case short =>
    exact ⟨_, step_p8Header_of_error hs hp (decodeP8Header_of_short h), hasRaised_raised .endOfInput s⟩
  case empty =>
    have hr := hinv.running hs
    obtain ⟨-, hdest⟩ := (phaseInv_p8Header hp).1 hr.phase
    exact read_eq_none_of_destPos_eq_zero hr.filled hdest

/-! ### The codes that append one byte (46_p8_decoder.md R175, R176) -/

theorem putByte_appends {capacity : Nat} {s : State} (h : s.destPos < capacity) (b : Byte) :
    ∃ t, putByte capacity b s = .next t ∧ onlyAppends s t ∧ appended s t 1 (fun _ => some b) :=
  ⟨_, putByte_of_lt h, onlyAppends_appendByte b s, appended_appendByte b s⟩

/-- Settles O37: with room the byte is put as it is; the escape is one of the codes of two bytes. -/
theorem escAppendsVerbatim : Obligations.EscAppendsVerbatim :=
  ⟨fun b _ hroom => putByte_appends hroom b, fun _ hs hp hmore h0 h1 =>
    step_code_of_second_missing hs hp hmore h0 (.inl rfl) (List.getElem?_eq_none_iff.1 h1)⟩

theorem p8Symbol_of_lt {alphabet : Vector Byte 60} {val : Byte} (h : val.toNat < 60) :
    p8Symbol alphabet val = alphabet[val.toNat] := dif_pos h

theorem p8Symbol_of_le {alphabet : Vector Byte 60} {val : Byte} (h : 60 ≤ val.toNat) :
    p8Symbol alphabet val = 0x3F#8 := dif_neg (Nat.not_lt.2 h)

/-- Settles O38: with room the code's symbol is put, which is the alphabet's byte or the fallback. -/
theorem symAppendsAlphabet : Obligations.SymAppendsAlphabet := by
  intro val s hroom
  obtain ⟨t, ht, honly, happ⟩ := putByte_appends hroom (p8Symbol s.cfg.alphabet val)
  refine ⟨t, ht, honly, fun hlt => ?_, fun hge => ?_⟩
  · rwa [p8Symbol_of_lt hlt] at happ
  · rwa [p8Symbol_of_le hge] at happ

end Sys2Proof.Machine
end

section
/-! PROOFS. Faults (60_exceptions.md R193, R194, R198): what a raised fault leaves, and the operands that raise
LiteralOverflow and InvalidBlock. -/

namespace Sys2Proof.Machine

/-! ### Raising (60_exceptions.md R198) -/

/-- Settles O42: `State.raised` writes the fields, and a call that is not running does not step. -/
theorem raiseEndsTheCall : Obligations.RaiseEndsTheCall := by
  intro e s
  have hstops : step (s.raised e) = .fault .noCallRunning := step_not_running nofun
  exact ⟨s.raised e, rfl, rfl, rfl, okBytes_raised e s, hasRaised_raised e s,
    fun u h => nomatch hstops.symm.trans h⟩

/-! ### LiteralOverflow (60_exceptions.md R194) -/

/-- From five one-bits on every position is past the table (30_encoding.md R69). -/
theorem lt_literalPosition_of_le {e : Nat} (h : 5 ≤ e) (v : Nat) : 255 < literalPosition e v := by
  have hpow : 2 ^ 5 ≤ 2 ^ e := Nat.pow_le_pow_right (by decide) h
  simp only [literalPosition, litBaseWidth]
  omega

theorem literalBlock_raises {e v : Nat} (h : 255 < literalPosition e v) (s : State) :
    ∃ t, literalBlock e v s = .next t ∧ hasRaised .literalOverflow s t :=
  ⟨_, if_pos h, hasRaised_raised .literalOverflow s⟩

/-- Settles O23: four one-bits stand for the positions from 240 on, five or more for none of the table. -/
theorem literalPastTableRaises : Obligations.LiteralPastTableRaises := by
  intro s
  have long {e : Nat} (he : 5 ≤ e) (v : Nat) := literalBlock_raises (lt_literalPosition_of_le he v) s
  refine ⟨fun v hv => literalBlock_raises ?lit4 s, fun v => long (e := 5) (by decide) v.toNat,
    fun v => long (e := 6) (by decide) v.toNat, fun v => long (e := 7) (by decide) v.toNat,
    fun v => long (e := 8) (by decide) v.toNat, fun v => long (e := 9) (by decide) v.toNat,
    fun v => long (e := 10) (by decide) v.toNat, fun v => long (e := 11) (by decide) v.toNat⟩
  case lit4 =>
    simp only [literalPosition, litBaseWidth]
    omega

/-! ### InvalidBlock (60_exceptions.md R193) -/

/-- A back-reference against a capacity, of either format: the three checks, then the byte-serial copy. -/
def backReference (capacity offset len : Nat) (s : State) : Outcome :=
  if copyRejected offset len capacity s.destPos then raise .invalidBlock s else copyBytes capacity offset len s

theorem copyBlock_eq_backReference (offset len : Nat) (s : State) :
    copyBlock offset len s = backReference s.maxLen.toNat offset len s := rfl

theorem p8Copy_eq_backReference (offset len : Nat) (s : State) :
    p8Copy offset len s = backReference s.p8Cap offset len s := rfl

theorem copyRejected_eq_true {offset len capacity destPos : Nat} :
    copyRejected offset len capacity destPos = true ↔ offset = 0 ∨ offset > destPos ∨ destPos + len > capacity :=
  decide_eq_true_iff

section
variable {capacity offset len : Nat} {s : State}

theorem backReference_of_rejected (h : copyRejected offset len capacity s.destPos = true) :
    backReference capacity offset len s = .next (s.raised .invalidBlock) := if_pos h

theorem backReference_of_accepted (h : copyRejected offset len capacity s.destPos = false) :
    backReference capacity offset len s = copyBytes capacity offset len s := if_neg (Bool.not_eq_true _ ▸ h)

end

theorem status_err_of_onlyAppends {s t : State} (h : onlyAppends s t) : t.status = s.status ∧ t.err = s.err := by
  rw [h]
  exact ⟨rfl, rfl⟩

/-- Settles O26: both formats run one operation; the negation of its three checks is what the copy needs to answer, and
a copy only appends. -/
theorem backReferenceRejected : Obligations.BackReferenceRejected := by
  intro i offset len capacity s hi hf
  have hexec : exec i s = backReference capacity offset len s := by
    obtain ⟨hc, rfl⟩ | ⟨val, val2, rfl, rfl, rfl, rfl⟩ := hi
    · exact (exec_of_copyOperands hc s).2.trans (copyBlock_eq_backReference offset len s)
    · exact p8Copy_eq_backReference (p8Offset val val2) (p8Length val2) s
  rw [hexec, ← copyRejected_eq_true]
  refine ⟨fun hr => ⟨_, backReference_of_rejected hr, hasRaised_raised .invalidBlock s⟩, fun hr => ?accepted⟩
  case accepted =>
    have hr := Bool.eq_false_iff.2 hr
    obtain ⟨t, ht⟩ := copyBytes_answers_of_accepted hf hr
    obtain ⟨honly, -⟩ := copyBytes_next ht
    exact ⟨t, (backReference_of_accepted hr).trans ht, status_err_of_onlyAppends honly⟩

end Sys2Proof.Machine
end

section
/-! PROOFS. An input that ends inside a block (60_exceptions.md R191): each reader rejects nothing but the end of the
input, and only within the bits it can take; no block's encoding begins another's. -/

namespace Sys2Proof.Machine

/-! ### The readers reject nothing but the end of the input -/

/-- A read whose rest cannot fail fails in its first part. -/
theorem error_of_bind_error {α β : Type} {x : Except DecodeError α} {f : α → Except DecodeError β} {e : DecodeError}
    (h : (x >>= f) = .error e) (hf : ∀ a, ∃ b, f a = .ok b) : x = .error e := by
  obtain hx | ⟨a, -, ha⟩ := bind_eq_error.1 h
  · exact hx
  · obtain ⟨b, hb⟩ := hf a
    cases hb.symm.trans ha

/-- The reader has run past the end of the input within `n` bits from bit address `k`. -/
def ranOut (inp : List Byte) (k n : Nat) (e : DecodeError) : Prop := e = .endOfInput ∧ 8 * inp.length < k + n

section
variable {inp : List Byte} {k : Nat} {e : DecodeError}

theorem ranOut_mono {l m n : Nat} (h : ranOut inp l m e) (hle : l + m ≤ k + n) : ranOut inp k n e :=
  ⟨h.1, h.2.trans_le hle⟩

theorem getBit_error {c : Cursor} (h : getBit inp c = .error e) : e = .endOfInput := by
  unfold getBit at h
  split at h
  · cases h
    rfl
  · cases h

theorem getBit_cursorAt_error (h : getBit inp (cursorAt k) = .error e) : ranOut inp k 1 e := by
  refine ⟨getBit_error h, ?_⟩
  by_contra hle
  obtain ⟨b, hb⟩ := exists_streamBit (inp := inp) (k := k) (by omega)
  cases (getBit_eq_ok.2 ⟨hb, rfl⟩).symm.trans h

theorem readBits_error {n : Nat} {c : Cursor} (h : readBits inp n c = .error e) : e = .endOfInput := by
  induction n generalizing c with
  | zero => cases h
  | succ n ih =>
    obtain hbit | ⟨⟨b, d⟩, -, h⟩ := bind_eq_error.1 h
    · exact getBit_error hbit
    · exact ih (error_of_bind_error h fun _ => ⟨_, rfl⟩)

theorem readBits_cursorAt_error {n : Nat} (h : readBits inp n (cursorAt k) = .error e) : ranOut inp k n e := by
  refine ⟨readBits_error h, ?_⟩
  by_contra hle
  obtain ⟨v, hv⟩ := (readBits_cursorAt_total inp n k).1 (.inr (by omega))
  cases hv.symm.trans h

theorem chainGroups_error {link n : Nat} {hl : link ≤ getBitsMax}
    (h : chainGroups inp link hl n (cursorAt k) = .error e) : ranOut inp k (n * link) e := by
  induction n generalizing k with
  | zero => cases h
  | succ n ih =>
    have hsucc : (n + 1) * link = n * link + link := Nat.succ_mul _ _
    obtain hgroup | ⟨⟨v, c⟩, hv, h⟩ := bind_eq_error.1 h
    · exact ranOut_mono (readBits_cursorAt_error hgroup) (by omega)
    · obtain ⟨-, -, rfl⟩ := getBits_eq_ok.1 hv
      dsimp only at h
      split at h
      · exact ranOut_mono (ih (error_of_bind_error h fun _ => ⟨_, rfl⟩)) (by omega)
      · cases h

theorem prefixOnes_error {n : Nat} (h : prefixOnes inp n (cursorAt k) = .error e) : ranOut inp k n e := by
  induction n generalizing k with
  | zero => cases h
  | succ n ih =>
    obtain hbit | ⟨⟨b, c⟩, hb, h⟩ := bind_eq_error.1 h
    · exact ranOut_mono (getBit_cursorAt_error hbit) (by omega)
    · obtain ⟨-, rfl⟩ := getBit_eq_ok.1 hb
      cases b with
      | false => cases h
      | true => exact ranOut_mono (ih (error_of_bind_error h fun _ => ⟨_, rfl⟩)) (by omega)

end

/-! ### The fields of a block and the bits they can take -/

theorem literalWidth_le (e : Nat) : literalWidth e ≤ getBitsMax := by
  simp only [literalWidth, litBaseWidth, getBitsMax]
  split <;> omega

theorem prefixBits_length_le {cap e : Nat} (h : e ≤ cap) : (prefixBits cap e).length ≤ cap := by
  rw [prefixBits, List.length_append, List.length_replicate]
  split
  · exact ‹e < cap›
  · exact h

theorem selector_length_le {sel : Nat} (h : sel ≤ 2) :
    (groupBits selectorLink selectorBudget sel).length ≤ selectorBudget := by
  interval_cases sel <;> decide

theorem numBits_length_le {sel : Nat} (v : Nat) (h : sel ≤ 2) :
    (numBits sel v).length ≤ selectorBudget + getBitsMax := by
  rw [numBits, List.length_append, fieldBits_length]
  exact Nat.add_le_add (selector_length_le h) (offsetWidth_le sel)

/-- The most bits that a block can take after its marker: selector, offset, and a length chain that its budget ends. -/
def blockReach : Nat := selectorBudget + getBitsMax + lengthGroups * lengthLink

section
variable {inp : List Byte} {k : Nat} {e : DecodeError}

theorem getSelector_error (h : getSelector inp (cursorAt k) = .error e) : ranOut inp k selectorBudget e :=
  chainGroups_error h

theorem getLengthChain_error (h : getLengthChain inp (cursorAt k) = .error e) :
    ranOut inp k (lengthGroups * lengthLink) e := chainGroups_error h

theorem decodeLiteral_error (h : decodeLiteral inp (cursorAt k) = .error e) :
    ranOut inp k (litPrefixCap + getBitsMax) e := by
  rw [decodeLiteral_eq] at h
  obtain hones | ⟨⟨m, c⟩, hm, h⟩ := bind_eq_error.1 h
  · exact ranOut_mono (prefixOnes_error hones) (by omega)
  · obtain ⟨hle, -, rfl⟩ := prefixOnes_eq_ok.1 hm
    have hwidth := literalWidth_le m
    have hprefix := prefixBits_length_le hle
    exact ranOut_mono (readBits_cursorAt_error (error_of_bind_error h fun _ => ⟨_, rfl⟩)) (by omega)

theorem getNumField_error (h : getNumField inp (cursorAt k) = .error e) :
    ranOut inp k (selectorBudget + getBitsMax) e := by
  obtain hsel | ⟨⟨sel, c⟩, hs, h⟩ := bind_eq_error.1 h
  · exact ranOut_mono (getSelector_error hsel) (by omega)
  · obtain ⟨hle, -, rfl⟩ := getSelector_eq_ok.1 hs
    have hwidth := offsetWidth_le sel
    have hlen := selector_length_le hle
    exact ranOut_mono (readBits_cursorAt_error (error_of_bind_error h fun _ => ⟨_, rfl⟩)) (by omega)

theorem decodeCopyOrRaw_error (h : decodeCopyOrRaw inp (cursorAt k) = .error e) : ranOut inp k blockReach e := by
  unfold blockReach
  obtain hnum | ⟨⟨sel, v, c⟩, hn, h⟩ := bind_eq_error.1 h
  · exact ranOut_mono (getNumField_error hnum) (by omega)
  · obtain ⟨hsel, -, -, rfl⟩ := getNumField_eq_ok.1 hn
    have hlen := numBits_length_le v hsel
    dsimp only at h
    split at h
    · cases h
    · exact ranOut_mono (getLengthChain_error (error_of_bind_error h fun _ => ⟨_, rfl⟩)) (by omega)

/-- The decoder of blocks rejects only an input that ends within the reach of a block. -/
theorem decodeBlock_error (h : decodeBlock inp (cursorAt k) = .error e) : ranOut inp k (1 + blockReach) e := by
  obtain hbit | ⟨⟨m, c⟩, hm, h⟩ := bind_eq_error.1 h
  · exact ranOut_mono (getBit_cursorAt_error hbit) (by omega)
  · obtain ⟨-, rfl⟩ := getBit_eq_ok.1 hm
    cases m with
    | true =>
      have hlit : litPrefixCap + getBitsMax ≤ blockReach := by decide
      exact ranOut_mono (decodeLiteral_error h) (by omega)
    | false => exact ranOut_mono (decodeCopyOrRaw_error h) (by omega)

end

/-! ### A block cut short -/

/-- The bits that the input has from bit address `k` on are the first bits of `bits`. -/
def streamBegins (inp : List Byte) (k : Nat) (bits : List Bool) : Prop :=
  ∀ j, k + j < 8 * inp.length → streamBit inp (k + j) = bits[j]?

theorem encode_ne_nil {i : Instr} (hw : i.wf = true) (hp : i.phase = .pxaBlocks) : encode i ≠ [] := by
  obtain ⟨m, bits, hf⟩ := exists_blockForm hw hp
  rw [hf.encode_eq]
  exact List.cons_ne_nil _ _

/-- No block's encoding begins another's (30_encoding.md R62): both decode from the longer one. -/
theorem block_eq_of_encode_prefix {i i' : Instr} (hw : i.wf = true) (hp : i.phase = .pxaBlocks) (hw' : i'.wf = true)
    (hp' : i'.phase = .pxaBlocks) (h : encode i' <+: encode i) : i' = i := by
  obtain ⟨post, hpost⟩ := h
  have hlong := blocksRoundTrip i [] [] hw hp
  have hshort := blocksRoundTrip i' [] post hw' hp'
  rw [List.append_nil, List.nil_append, ← hpost] at hlong
  rw [List.nil_append, hlong, Except.ok.injEq, Prod.mk.injEq] at hshort
  exact hshort.1.symm

/-- Bits that the stream holds begin all bits that it begins at the same place. -/
theorem prefix_of_streamHolds_of_streamBegins {inp : List Byte} {k : Nat} {xs ys : List Bool}
    (hx : streamHolds inp k xs) (hy : streamBegins inp k ys) : xs <+: ys := by
  refine List.prefix_iff_getElem?.2 fun j hj => ?_
  have hin : k + j < 8 * inp.length := by
    obtain rfl | hle := length_le_of_streamHolds hx
    · cases hj
    · omega
  rw [← hy j hin, hx j hj, List.getElem?_eq_getElem hj]

theorem decodeBlock_of_cutShort {i : Instr} {inp : List Byte} {k : Nat} (hw : i.wf = true) (hp : i.phase = .pxaBlocks)
    (hshort : 8 * inp.length < k + i.bits) (hbits : streamBegins inp k (encode i)) :
    decodeBlock inp (cursorAt k) = .error .endOfInput := by
  cases hd : decodeBlock inp (cursorAt k) with
  | error e => rw [(decodeBlock_error hd).1]
  | ok r =>
    obtain ⟨i', c⟩ := r
    obtain ⟨⟨hw', hp'⟩, hholds, -⟩ := decodeBlock_eq_ok.1 hd
    obtain rfl := block_eq_of_encode_prefix hw hp hw' hp' (prefix_of_streamHolds_of_streamBegins hholds hbits)
    have hle := (length_le_of_streamHolds hholds).resolve_left (encode_ne_nil hw hp)
    rw [encode_length hw] at hle
    omega

theorem streamBit_append_of_lt {inp : List Byte} {k : Nat} (h : k < 8 * inp.length) (more : List Byte) :
    streamBit (inp ++ more) k = streamBit inp k := by
  rw [streamBit, streamBit, List.getElem?_append_left (by omega)]

/-- With enough zero bytes put after it the input holds a block. -/
theorem exists_decodeBlock_append (inp : List Byte) (k : Nat) :
    ∃ more i c, decodeBlock (inp ++ more) (cursorAt k) = .ok (i, c) := by
  refine ⟨List.replicate (k + 1 + blockReach) 0#8, ?_⟩
  cases hd : decodeBlock (inp ++ List.replicate (k + 1 + blockReach) 0#8) (cursorAt k) with
  | ok r => exact ⟨r.1, r.2, rfl⟩
  | error e =>
    obtain ⟨-, hlt⟩ := decodeBlock_error hd
    rw [List.length_append, List.length_replicate] at hlt
    omega

/-- Where the decoder rejects, the bits that are there begin a block that is longer: the one that it reads from a longer
input. -/
theorem exists_cutShort_of_error {inp : List Byte} {k : Nat} {e : DecodeError}
    (h : decodeBlock inp (cursorAt k) = .error e) :
    ∃ i : Instr, i.wf = true ∧ i.phase = .pxaBlocks ∧ 8 * inp.length < k + i.bits ∧ streamBegins inp k (encode i) := by
  obtain ⟨more, i, c, hd⟩ := exists_decodeBlock_append inp k
  obtain ⟨⟨hw, hp⟩, hholds, -⟩ := decodeBlock_eq_ok.1 hd
  have hshort : 8 * inp.length < k + i.bits := by
    by_contra hle
    rw [← encode_length hw] at hle
    have hin : streamHolds inp k (encode i) := fun j hj => by
      rw [← hholds j hj, streamBit_append_of_lt (by omega)]
    cases (decodeBlock_eq_ok.2 ⟨⟨hw, hp⟩, hin, rfl⟩).symm.trans h
  refine ⟨i, hw, hp, hshort, fun j hj => ?_⟩
  rw [← hholds j (by rw [encode_length hw]; omega), streamBit_append_of_lt hj]

/-- Settles O52: a block that did decode there would begin the one cut short; a rejected input is completed to a block
by more bytes; the loop raises the decoder's rejection. -/
theorem blockCutShortIsEndOfInput : Obligations.BlockCutShortIsEndOfInput := by
  refine ⟨fun i inp k => decodeBlock_of_cutShort,
    fun inp k e h => ⟨(decodeBlock_error h).1, exists_cutShort_of_error h⟩, ?step⟩
  case step =>
    intro i s hs hp hmask hcur hdest hw hi hshort hbits
    have hd := decodeBlock_of_cutShort hw hi hshort hbits
    rw [cursorAt_address hmask] at hd
    exact ⟨_, step_block_of_error hs hp (moreBlocks_eq_true.2 ⟨hcur, hdest⟩) hd, hasRaised_raised .endOfInput s⟩

end Sys2Proof.Machine
end

section
/-! PROOFS. The kinds of fault (60_exceptions.md R190, R192, R195, R196): which of them a step can raise in each phase,
and from that where the three kinds of the headers and the Dispatcher come from. -/

namespace Sys2Proof.Machine

/-! ### The kinds that each instruction can raise -/

/-- The kinds of a fault that a step in a phase can raise. -/
def kindsRaisedIn : Phase → List Err
  | .sniff => [.endOfInput, .unsupported]
  | .pxaHeader => [.endOfInput, .invalidHeader]
  | .pxaBlocks => [.endOfInput, .invalidBlock, .literalOverflow, .consistencyFailure]
  | .p8Header => [.endOfInput, .outputExceeded]
  | .p8Codes => [.endOfInput, .invalidBlock]

/-- From `s` to `t` `ERR` has stayed or has become one of `kinds`. -/
def errAmong (kinds : List Err) (s t : State) : Prop := t.err = s.err ∨ t.err ∈ kinds

theorem errAmong_raised {kinds : List Err} {e : Err} (s : State) (h : e ∈ kinds) : errAmong kinds s (s.raised e) :=
  .inr h

theorem errAmong_of_raise {kinds : List Err} {e : Err} {s t : State} (he : e ∈ kinds) (h : raise e s = .next t) :
    errAmong kinds s t := by
  cases h
  exact errAmong_raised s he

section
variable {kinds : List Err} {s t : State}

theorem literalBlock_errAmong {e v : Nat} (hk : Err.literalOverflow ∈ kinds) (h : literalBlock e v s = .next t) :
    errAmong kinds s t := by
  obtain ⟨-, rfl⟩ | ⟨-, -, rfl⟩ := literalBlock_cases h
  · exact errAmong_raised s hk
  · exact .inl rfl

theorem backReference_errAmong {capacity offset len : Nat} (hk : Err.invalidBlock ∈ kinds)
    (h : backReference capacity offset len s = .next t) : errAmong kinds s t := by
  cases hr : copyRejected offset len capacity s.destPos with
  | true => exact errAmong_of_raise hk ((backReference_of_rejected hr).symm.trans h)
  | false =>
    obtain ⟨honly, -⟩ := copyBytes_next ((backReference_of_accepted hr).symm.trans h)
    exact .inl (status_err_of_onlyAppends honly).2

theorem rawRun_errAmong {k : Nat} (hk : Err.endOfInput ∈ kinds) (h : rawRun k s = .next t) : errAmong kinds s t := by
  induction k generalizing s with
  | zero =>
    cases h
    exact .inl rfl
  | succ k ih =>
    obtain ⟨e, he, rfl⟩ | ⟨c, -, rfl⟩ | ⟨v, c, -, -, -, hr⟩ := rawRun_cases h
    · obtain rfl := readBits_error he
      exact errAmong_raised s hk
    · exact .inl rfl
    · exact ih (s := (s.setCursor c).appendByte (BitVec.ofNat 8 v)) hr

end

theorem finishPxa_errAmong {kinds : List Err} {s t : State} (hk : Err.consistencyFailure ∈ kinds)
    (h : finishPxa s = .next t) : errAmong kinds s t := by
  obtain ⟨-, hf⟩ | ⟨-, hf⟩ := finishPxa_cases s
  · cases hf.symm.trans h
    exact .inl rfl
  · cases hf.symm.trans h
    exact errAmong_raised s hk

theorem exec_block_errAmong {i : Instr} {s t : State} (hi : i.phase = .pxaBlocks) (h : exec i s = .next t) :
    errAmong (kindsRaisedIn .pxaBlocks) s t := by
  cases i
  case lit0 | lit1 | lit2 | lit3 | lit4 | litE5 | litE6 | litE7 | litE8 | litE9 | litE10 | litE11 =>
    exact literalBlock_errAmong (by decide) h
  case litE12 | litE13 | litE14 | litE15 | litE16 => exact errAmong_of_raise (by decide) h
  case copy15 | copy10 | copy5 => exact backReference_errAmong (by decide) h
  case raw => exact rawRun_errAmong (by decide) h
  case p8Esc | p8Sym | p8Back | hdrPxa | hdrP8 | sniffPxa | sniffP8 | sniffLegacy => cases hi

theorem exec_code_errAmong {i : Instr} {s t : State} (hi : i.phase = .p8Codes) (h : exec i s = .next t) :
    errAmong (kindsRaisedIn .p8Codes) s t := by
  cases i
  case p8Esc | p8Sym =>
    obtain ⟨-, rfl⟩ := putByte_next_iff.1 h
    exact .inl rfl
  case p8Back => exact backReference_errAmong (by decide) h
  all_goals cases hi

theorem exec_sniff_errAmong {i : Instr} {s t : State} (hi : i.phase = .sniff) (h : exec i s = .next t) :
    errAmong (kindsRaisedIn .sniff) s t := by
  cases i
  case sniffPxa | sniffP8 =>
    cases h
    exact .inl rfl
  case sniffLegacy => exact errAmong_of_raise (s := s.routed .legacy s.phase) (by decide) h
  all_goals cases hi

theorem execHdrP8_errAmong {len : Half} {s t : State} (h : execHdrP8 len s = .next t) :
    errAmong (kindsRaisedIn .p8Header) s t := by
  rcases Nat.lt_or_ge (p8Capacity s.entry s.cap s.p8OutCap) len.toNat with hlt | hle
  · cases (exec_hdrP8_of_gt hlt).symm.trans h
    exact errAmong_raised s (by decide)
  · cases (exec_hdrP8_of_le hle).symm.trans h
    exact .inl rfl

/-! ### What the other decoders reject (60_exceptions.md R191) -/

theorem decodeSniff_error {inp : List Byte} {e : DecodeError} (h : decodeSniff inp = .error e) : e = .endOfInput := by
  unfold decodeSniff at h
  split at h
  · split at h
    · cases h
    · split at h <;> cases h
  · cases h
    rfl

theorem decodeP8Header_error {inp : List Byte} {e : DecodeError} (h : decodeP8Header inp = .error e) :
    e = .endOfInput := by
  unfold decodeP8Header at h
  split at h
  · cases h
  · cases h
    rfl

theorem nextByte_error {inp : List Byte} {k : Nat} {e : DecodeError} (h : nextByte inp k = .error e) :
    e = .endOfInput := by
  unfold nextByte at h
  split at h
  · cases h
    rfl
  · cases h

theorem decodeCode_error {inp : List Byte} {k : Nat} {e : DecodeError} (h : decodeCode inp k = .error e) :
    e = .endOfInput := by
  obtain hval | ⟨⟨val, n⟩, -, h⟩ := bind_eq_error.1 h
  · exact nextByte_error hval
  · dsimp only at h
    split at h
    · exact nextByte_error (error_of_bind_error h fun _ => ⟨_, rfl⟩)
    · split at h
      · cases h
      · exact nextByte_error (error_of_bind_error h fun _ => ⟨_, rfl⟩)

theorem decodeBlock_error_of_legal {inp : List Byte} {c : Cursor} {e : DecodeError} (hc : cursorLegal inp c)
    (h : decodeBlock inp c = .error e) : e = .endOfInput := by
  rw [← cursorAt_address hc.1] at h
  exact (decodeBlock_error h).1

/-! ### The kinds that a step can raise -/

/-- A running step leaves `ERR` as it was or raises a kind of its phase. -/
theorem step_errAmong {s t : State} (hc : cursorLegal s.input s.cur) (h : step s = .next t) :
    errAmong (kindsRaisedIn s.phase) s t := by
  have hs := running_of_step_next h
  have rejects {kinds : List Err} {e : DecodeError} (he : decodeErr e ∈ kinds)
      (hr : step s = .next (s.raised (decodeErr e))) : errAmong kinds s t := errAmong_of_raise he (hr.symm.trans h)
  cases hp : s.phase with
  | sniff =>
    obtain ⟨e, hd, he⟩ | ⟨i, hd, hi⟩ := step_sniff hs hp
    · obtain rfl := decodeSniff_error hd
      exact rejects (by decide) he
    · exact exec_sniff_errAmong (decodeSniff_ok hd).1 (hi.symm.trans h)
  | pxaHeader =>
    obtain ⟨e, -, he⟩ | ⟨i, hd, hi⟩ := step_pxaHeader hs hp
    · exact rejects (by cases e <;> decide) he
    · obtain ⟨⟨r, k, rfl⟩, -, -⟩ := decodePxaHeader_ok hd
      cases hi.symm.trans h
      exact .inl rfl
  | p8Header =>
    obtain ⟨e, hd, he⟩ | ⟨i, hd, hi⟩ := step_p8Header hs hp
    · obtain rfl := decodeP8Header_error hd
      exact rejects (by decide) he
    · obtain ⟨⟨len, rfl⟩, -⟩ := decodeP8Header_ok hd
      exact execHdrP8_errAmong (hi.symm.trans h)
  | pxaBlocks =>
    obtain ⟨-, hend⟩ | ⟨-, e, hd, he⟩ | ⟨-, i, c, hd, hi⟩ := step_block hs hp
    · exact finishPxa_errAmong (by decide) (hend.symm.trans h)
    · obtain rfl := decodeBlock_error_of_legal hc hd
      exact rejects (by decide) he
    · exact exec_block_errAmong (s := s.setCursor c) (decodeBlock_phase hd) (hi.symm.trans h)
  | p8Codes =>
    obtain ⟨-, hend⟩ | ⟨-, e, hd, he⟩ | ⟨-, i, n, hd, hi⟩ := step_code hs hp
    · cases hend.symm.trans h
      exact .inl rfl
    · obtain rfl := decodeCode_error hd
      exact rejects (by decide) he
    · exact exec_code_errAmong (s := s.setSource n) (decodeCode_pos hd).1 (hi.symm.trans h)

/-! ### The three kinds of the headers and the Dispatcher (R192, R195, R196) -/

/-- A kind that one phase alone can raise says in which phase the call stands. -/
theorem phase_eq_of_err {s t : State} {e : Err} {p : Phase} (hi : s.Inv) (h : step s = .next t) (he : t.err = e)
    (hne : e ≠ .none) (honly : ∀ q, e ∈ kindsRaisedIn q → q = p) : s.phase = p := by
  have hr := hi.running (running_of_step_next h)
  obtain hsame | hkind := step_errAmong hr.cursor h
  · exact absurd (he.symm.trans (hsame.trans hr.err)) hne
  · exact honly _ (he ▸ hkind)

theorem magicExact_iff_take {inp : List Byte} (h : 8 ≤ inp.length) : magicExact inp h ↔ inp.take 4 = pxaMagic := by
  match inp, h with
  | m0 :: m1 :: m2 :: m3 :: _ :: _ :: _ :: _ :: _, h => simp [magicExact]

theorem decodeSniff_eq_legacy {inp : List Byte} {b0 b1 b2 b3 : Byte} :
    decodeSniff inp = .ok (.sniffLegacy b0 b1 b2 b3) ↔
      inp.take 4 = [b0, b1, b2, b3] ∧ resemblesPxa b0 b1 b2 b3 = false ∧ isP8Magic b0 b1 b2 b3 = false := by
  constructor
  · intro h
    unfold decodeSniff at h
    split at h
    · split at h
      · cases h
      · split at h
        · cases h
        · cases h
          exact ⟨rfl, Bool.eq_false_iff.2 ‹_›, Bool.eq_false_iff.2 ‹_›⟩
    · cases h
  · rintro ⟨htake, hpxa, hp8⟩
    rw [← List.take_append_drop 4 inp, htake]
    exact decodeSniff_of_neither _ hpxa hp8

section
variable {s t : State} (hi : s.Inv) (h : step s = .next t)
include hi h

theorem err_eq_invalidHeader_iff :
    t.err = .invalidHeader ↔ s.phase = .pxaHeader ∧ 8 ≤ s.input.length ∧ s.input.take 4 ≠ pxaMagic := by
  have hs := running_of_step_next h
  constructor
  · intro he
    have hp : s.phase = .pxaHeader := phase_eq_of_err hi h he (by decide) (fun q => by cases q <;> decide)
    rcases Nat.lt_or_ge s.input.length 8 with hlen | hlen
    · cases (step_pxaHeader_of_short hs hp hlen).symm.trans h
      cases he
    · refine ⟨hp, hlen, fun hm => ?_⟩
      cases (step_pxaHeader_of_magic hs hp hlen ((magicExact_iff_take hlen).2 hm)).symm.trans h
      cases (hi.running hs).err.symm.trans he
  · rintro ⟨hp, hlen, hm⟩
    cases (step_pxaHeader_of_badMagic hs hp hlen (mt (magicExact_iff_take hlen).1 hm)).symm.trans h
    rfl

theorem err_eq_outputExceeded_iff :
    t.err = .outputExceeded ↔ s.phase = .p8Header ∧ ∃ len, decodeP8Header s.input = .ok (.hdrP8 len) ∧
      p8Capacity s.entry s.cap s.p8OutCap < len.toNat := by
  have hs := running_of_step_next h
  constructor
  · intro he
    have hp : s.phase = .p8Header := phase_eq_of_err hi h he (by decide) (fun q => by cases q <;> decide)
    obtain ⟨e, hd, hstep⟩ | ⟨i, hd, hstep⟩ := step_p8Header hs hp
    · obtain rfl := decodeP8Header_error hd
      cases hstep.symm.trans h
      cases he
    · obtain ⟨⟨len, rfl⟩, -⟩ := decodeP8Header_ok hd
      refine ⟨hp, len, hd, Nat.lt_of_not_le fun hle => ?_⟩
      cases (hstep.trans (exec_hdrP8_of_le hle)).symm.trans h
      cases (hi.running hs).err.symm.trans he
  · rintro ⟨hp, len, hd, hgt⟩
    cases ((step_p8Header_of_ok hs hp hd).trans (exec_hdrP8_of_gt hgt)).symm.trans h
    rfl

theorem err_eq_unsupported_iff :
    t.err = .unsupported ↔ s.phase = .sniff ∧ ∃ b0 b1 b2 b3, s.input.take 4 = [b0, b1, b2, b3] ∧
      resemblesPxa b0 b1 b2 b3 = false ∧ isP8Magic b0 b1 b2 b3 = false := by
  have hs := running_of_step_next h
  simp only [← decodeSniff_eq_legacy]
  constructor
  · intro he
    have hp : s.phase = .sniff := phase_eq_of_err hi h he (by decide) (fun q => by cases q <;> decide)
    refine ⟨hp, ?_⟩
    obtain ⟨e, hd, hstep⟩ | ⟨i, hd, hstep⟩ := step_sniff hs hp
    · obtain rfl := decodeSniff_error hd
      cases hstep.symm.trans h
      cases he
    · have hphase := (decodeSniff_ok hd).1
      cases i
      case sniffLegacy b0 b1 b2 b3 => exact ⟨b0, b1, b2, b3, hd⟩
      case sniffPxa | sniffP8 =>
        cases hstep.symm.trans h
        cases (hi.running hs).err.symm.trans he
      all_goals cases hphase
  · rintro ⟨hp, b0, b1, b2, b3, hd⟩
    have hstep := (step_of_fetchByIndex (fetch_sniff hs hp)).1 _ hd
    cases (hstep.trans (exec_sniffLegacy_raised b0 b1 b2 b3 s)).symm.trans h
    rfl

end

/-- Settles O43: each of the three kinds is raised in one phase only, and there by one outcome of the step. -/
theorem headerKindsRaisedOnlyByTheirUnit : Obligations.HeaderKindsRaisedOnlyByTheirUnit := fun _ _ hi _ h =>
  ⟨err_eq_invalidHeader_iff hi h, err_eq_outputExceeded_iff hi h, err_eq_unsupported_iff hi h⟩

end Sys2Proof.Machine
end

section
/-! PROOFS. The start of a call (10_state.md R31, 70_reset_and_hazards.md R220), the values it gives and that it sees no
other call. -/

namespace Sys2Proof.Machine

/-- Settles O3: reset is the start of a call with the default build. -/
theorem resetMeetsInvariant : Obligations.ResetMeetsInvariant :=
  everyStartMeetsInvariant defaultConfig [] none .auto 0 defaultConfig_wf

/-- With the identity in `LIT_INIT` both tables are the identity (10_state.md R31, decision D3). -/
theorem readTable_of_identity {t : Table} (h : t = identityTable) (i : Byte) :
    readTable t i = i ∧ readTable (inverseTable t) i = i := by
  subst h
  rw [inverseTable_identityTable]
  exact ⟨readTable_identityTable i, readTable_identityTable i⟩

/-- Settles O5: `State.start` writes the values down; the identity is its own inverse. -/
theorem startOfCallValues : Obligations.StartOfCallValues := by
  intro cfg input cap entry p8OutCap
  refine ⟨rfl, fun _ => rfl, readTable_of_identity, rfl, Memory.read_nil, rfl, rfl, ?_, ?_, ?_⟩ <;>
    · rintro rfl
      rfl

/-- Settles O6: `State.beginCall` keeps nothing but the counter of free values. -/
theorem newCallForgetsTheOld : Obligations.NewCallForgetsTheOld := fun _ _ _ _ _ _ => rfl

end Sys2Proof.Machine
end

section
/-! PROOFS. Fields in a row (40_bit_reader.md R94) and the values of chains (41_chain_decoder.md R101). -/

namespace Sys2Proof.Machine

/-! ### Two fields in a row (40_bit_reader.md R94) -/

/-- The first field holds the low bits. -/
theorem readBits_add (inp : List Byte) (a b : Nat) (c : Cursor) :
    readBits inp (a + b) c = (do
      let (x, c1) ← readBits inp a c
      let (y, c2) ← readBits inp b c1
      .ok (x + y * 2 ^ a, c2)) := by
  induction a generalizing c with
  | zero =>
    rw [Nat.zero_add, readBits, ok_bind]
    cases hb : readBits inp b c <;> simp [hb]
  | succ a ih =>
    rw [Nat.add_right_comm, readBits, readBits]
    cases getBit inp c with
    | error e => rfl
    | ok p =>
      obtain ⟨bit, c1⟩ := p
      simp only [ok_bind, ih]
      cases readBits inp a c1 with
      | error e => rfl
      | ok q =>
        obtain ⟨x, c2⟩ := q
        simp only [ok_bind]
        cases readBits inp b c2 with
        | error e => rfl
        | ok r =>
          obtain ⟨y, c3⟩ := r
          simp only [ok_bind, Except.ok.injEq, Prod.mk.injEq, and_true]
          rw [Nat.pow_succ]
          ring

/-- Settles O9: `get_bits` is `readBits` with a bound, and each of the two reads answers or ends. -/
theorem getBitsSplits : Obligations.GetBitsSplits := by
  intro inp a b h c
  simp only [getBits, readBits_add]
  cases readBits inp a c with
  | error e => rfl
  | ok p =>
    simp only [ok_bind]
    cases readBits inp b p.2 <;> rfl

/-! ### Chains (41_chain_decoder.md R101) -/

/-- Settles O10: the selector answers what its bits encode, and the three encodings are these. -/
theorem selectorChainTable : Obligations.SelectorChainTable := by
  intro inp k
  have reads {sel : Nat} (hsel : sel ≤ 2) {bits : List Bool} (hbits : groupBits selectorLink selectorBudget sel = bits)
      (h : streamHolds inp k bits) : getSelector inp (cursorAt k) = .ok (sel, cursorAt (k + bits.length)) :=
    getSelector_eq_ok.2 ⟨hsel, hbits ▸ h, hbits ▸ rfl⟩
  have two {b0 b1 : Bool} (h0 : streamBit inp k = some b0) (h1 : streamBit inp (k + 1) = some b1) :
      streamHolds inp k [b0, b1] := streamHolds_cons.2 ⟨h0, streamHolds_singleton.2 h1⟩
  exact ⟨fun h0 => reads (by decide) (by decide) (streamHolds_singleton.2 h0),
    fun h0 h1 => reads (by decide) (by decide) (two h0 h1), fun h0 h1 => reads (by decide) (by decide) (two h0 h1)⟩

/-- A group of ones is read as the greatest value of its width. -/
theorem getBits_of_ones {inp : List Byte} {link k : Nat} (h : link ≤ getBitsMax)
    (hones : ∀ i, i < link → streamBit inp (k + i) = some true) :
    getBits inp link h (cursorAt k) = .ok (2 ^ link - 1, cursorAt (k + link)) := by
  refine getBits_eq_ok.2 ⟨Nat.sub_lt (Nat.two_pow_pos link) Nat.one_pos, ?_, rfl⟩
  rw [fieldBits_max]
  intro j hj
  rw [List.length_replicate] at hj
  rw [hones j hj, List.getElem?_replicate_of_lt hj]

/-- Settles O12: `link` more bits of budget are one more group, which the ones fill. -/
theorem maximalGroupAddsItsValue : Obligations.MaximalGroupAddsItsValue := by
  intro inp link budget h h' k v c hones hchain
  have hgroups : (budget + link + link - 1) / link = (budget + link - 1) / link + 1 := by
    rw [← Nat.add_div_right _ h.1]
    congr 1
    omega
  have hrest : chainGroups inp link h.2.1 ((budget + link - 1) / link) (cursorAt (k + link)) = .ok (v, c) := hchain
  rw [getChain, hgroups, chainGroups, getBits_of_ones h.2.1 hones]
  simp only [ok_bind, if_true, hrest]

end Sys2Proof.Machine
end

section
/-! PROOFS. The encodings of the headers and of the Dispatcher's classes (30_encoding.md R61, R71, R75), the table
positions of the LIT forms (R63, R69), and words of the spec's vectors. -/

namespace Sys2Proof.Machine

/-! ### Headers and classes (30_encoding.md R61, R71, R75) -/

/-- A header field is read back from its two bytes (20_memory.md R42). -/
theorem bigEndian_halfBytes (v : Half) :
    bigEndian (BitVec.ofNat 8 (v.toNat / 256)) (BitVec.ofNat 8 (v.toNat % 256)) = v := by
  apply BitVec.eq_of_toNat_eq
  rw [bigEndian_toNat, BitVec.toNat_ofNat, BitVec.toNat_ofNat]
  omega

theorem decodePxaHeader_encode (rawLen compLen : Half) (post : List Byte) :
    decodePxaHeader (packBits (encode (.hdrPxa rawLen compLen)) ++ post) = .ok (.hdrPxa rawLen compLen) := by
  rw [encode, packBits_byteBits]
  simp [halfBytes, decodePxaHeader, bigEndian_halfBytes]

theorem decodeP8Header_encode (len : Half) (post : List Byte) :
    decodeP8Header (packBits (encode (.hdrP8 len)) ++ post) = .ok (.hdrP8 len) := by
  rw [encode, packBits_byteBits]
  simp [halfBytes, decodeP8Header, bigEndian_halfBytes]

theorem decodeSniff_of_resemblesPxa {b0 b1 b2 b3 : Byte} (rest : List Byte) (h : resemblesPxa b0 b1 b2 b3 = true) :
    decodeSniff (b0 :: b1 :: b2 :: b3 :: rest) = .ok (.sniffPxa b0 b1 b2 b3) := by
  simp only [decodeSniff, h, if_true]

/-- The P8 magic matches no position of the PXA magic. -/
theorem decodeSniff_p8Magic (rest : List Byte) :
    decodeSniff (0x3A#8 :: 0x63#8 :: 0x3A#8 :: 0x00#8 :: rest) = .ok .sniffP8 := rfl

/-- Settles O17: the packed encoding is the bytes of the header or class, which the decoder of its place reads. -/
theorem headersAndSniffsRoundTrip : Obligations.HeadersAndSniffsRoundTrip := by
  intro i post hw
  refine ⟨fun hp => ?pxa, fun hp => ?p8, fun hp => ?sniff⟩
  case pxa =>
    cases i
    case hdrPxa rawLen compLen => exact decodePxaHeader_encode rawLen compLen post
    all_goals cases hp
  case p8 =>
    cases i
    case hdrP8 len => exact decodeP8Header_encode len post
    all_goals cases hp
  case sniff =>
    cases i
    case sniffPxa b0 b1 b2 b3 =>
      rw [encode, packBits_byteBits]
      exact decodeSniff_of_resemblesPxa post hw
    case sniffP8 =>
      rw [encode, packBits_byteBits]
      exact decodeSniff_p8Magic post
    case sniffLegacy b0 b1 b2 b3 =>
      obtain ⟨hpxa, hp8⟩ := Bool.and_eq_true_iff.1 hw
      rw [encode, packBits_byteBits]
      exact decodeSniff_of_neither post (Bool.not_inj (y := false) hpxa) (Bool.not_inj (y := false) hp8)
    all_goals cases hp

/-! ### The positions of the LIT forms (30_encoding.md R63) -/

/-- The positions of one number of one-bits come before those of a greater one. -/
theorem literalPosition_lt_of_lt {e v e' : Nat} (hv : v < 2 ^ (4 + e)) (he : e < e') (v' : Nat) :
    literalPosition e v < literalPosition e' v' := by
  have hpow : 2 ^ (e + 1) ≤ 2 ^ e' := Nat.pow_le_pow_right (by decide) he
  have hpos := Nat.two_pow_pos e
  rw [Nat.pow_succ] at hpow
  rw [Nat.pow_add] at hv
  simp only [literalPosition, litBaseWidth]
  omega

/-- A position has one form and one field. -/
theorem literalPosition_injective {e v e' v' : Nat} (hv : v < 2 ^ (4 + e)) (hv' : v' < 2 ^ (4 + e'))
    (h : literalPosition e' v' = literalPosition e v) : e' = e ∧ v' = v := by
  obtain hlt | rfl | hgt := Nat.lt_trichotomy e' e
  · exact absurd h (literalPosition_lt_of_lt hv' hlt v).ne
  · exact ⟨rfl, Nat.add_left_cancel h⟩
  · exact absurd h (literalPosition_lt_of_lt hv hgt v').ne'

/-- The number of one-bits of a position `p` is the binary logarithm of `p / 16 + 1`. -/
theorem exists_literalPosition_eq (p : Nat) : ∃ e v, v < 2 ^ (4 + e) ∧ literalPosition e v = p := by
  have hlow := Nat.pow_log_le_self 2 (Nat.succ_ne_zero (p / 16))
  have hhigh := Nat.lt_pow_succ_log_self (by decide : 1 < 2) (p / 16).succ
  generalize Nat.log 2 (p / 16).succ = e at hlow hhigh
  rw [Nat.pow_succ] at hhigh
  refine ⟨e, p - (2 ^ e - 1) * 16, ?_, ?_⟩
  · rw [Nat.pow_add]
    omega
  · simp only [literalPosition, litBaseWidth]
    omega

/-- Settles O18: every position has one form, and from five one-bits on it is past the table. -/
theorem everyTablePositionHasOneLit : Obligations.EveryTablePositionHasOneLit := by
  refine ⟨fun p hp => ?_, fun e v he => lt_literalPosition_of_le he v⟩
  obtain ⟨e, v, hv, rfl⟩ := exists_literalPosition_eq p
  have he : e ≤ 4 := by
    by_contra hgt
    have := lt_literalPosition_of_le (Nat.lt_of_not_le hgt) v
    omega
  exact ⟨e, v, he, hv, rfl, fun e' v' => literalPosition_injective hv⟩

/-! ### Words of the spec's vectors -/

/-- Settles O2: the decoders run on the words. -/
theorem specWordsDecode : Obligations.SpecWordsDecode := ⟨rfl, rfl, rfl, rfl, rfl, rfl, rfl, rfl⟩

end Sys2Proof.Machine
end

section
/-! PROOFS. The block loop (42_block_decoder.md R115, 44_pxa_engine.md R144 to R148, 70_reset_and_hazards.md R227):
the RAW run, who writes the tables, the header's state, the end of the loop, and the LIT forms without a field. -/

namespace Sys2Proof.Machine

/-! ### The RAW run (42_block_decoder.md R115) -/

/-- Bytes appended one after the other. -/
def State.appendBytes (s : State) (bs : List Byte) : State := bs.foldl (fun u b => u.appendByte b) s

@[simp] theorem State.appendBytes_nil (s : State) : s.appendBytes [] = s := rfl

@[simp] theorem State.appendBytes_cons (s : State) (b : Byte) (bs : List Byte) :
    s.appendBytes (b :: bs) = (s.appendByte b).appendBytes bs := rfl

theorem onlyAppends_appendBytes (s : State) (bs : List Byte) : onlyAppends s (s.appendBytes bs) := by
  induction bs generalizing s with
  | nil => exact onlyAppends_refl s
  | cons b bs ih => exact onlyAppends_trans (onlyAppends_appendByte b s) (ih (s.appendByte b))

/-- Moving the cursor and appending do not meet. -/
theorem appendBytes_setCursor (s : State) (c : Cursor) (bs : List Byte) :
    (s.setCursor c).appendBytes bs = (s.appendBytes bs).setCursor c := by
  induction bs generalizing s with
  | nil => rfl
  | cons b bs ih => exact ih (s.appendByte b)

theorem appended_appendBytes (s : State) (bs : List Byte) : appended s (s.appendBytes bs) bs.length (bs[·]?) := by
  induction bs generalizing s with
  | nil => exact ⟨rfl, nofun, fun _ _ => rfl⟩
  | cons b bs ih =>
    obtain ⟨hd, hread, hkept⟩ := ih (s.appendByte b)
    simp only [State.appendByte_destPos] at hd hread hkept
    refine ⟨by rw [State.appendBytes_cons, hd, List.length_cons]; omega, fun k hk => ?_, fun a ha => ?_⟩
    · cases k with
      | zero => exact (hkept _ (.inl (Nat.lt_succ_self _))).trans (Memory.read_write_same _ _ _)
      | succ k =>
        rw [← Nat.add_assoc, Nat.add_right_comm]
        exact hread k (Nat.lt_of_succ_lt_succ hk)
    · rw [List.length_cons] at ha
      exact (hkept a (by omega)).trans (Memory.read_write_other _ _ (by omega))

/-! One turn of the run, by what the reader answers. -/

section
variable {s : State} (n : Nat)

theorem rawRun_of_error {e : DecodeError} (h : getBits s.input rawWidth (by decide) s.cur = .error e) :
    rawRun (n + 1) s = .next (s.raised (decodeErr e)) := by
  rw [rawRun]
  simp only [h]
  rfl

theorem rawRun_of_zero {c : Cursor} (h : getBits s.input rawWidth (by decide) s.cur = .ok (0, c)) :
    rawRun (n + 1) s = .next (s.setCursor c) := by
  rw [rawRun]
  simp only [h, if_true]

theorem rawRun_of_byte {v : Nat} {c : Cursor} (h : getBits s.input rawWidth (by decide) s.cur = .ok (v, c))
    (hv : v ≠ 0) (hroom : s.destPos < s.maxLen.toNat) :
    rawRun (n + 1) s = rawRun n ((s.setCursor c).appendByte (BitVec.ofNat 8 v)) := by
  rw [rawRun]
  simp only [h, if_neg hv, putByte_of_lt (s := s.setCursor c) hroom, andThen_next]

end

/-- A run of non-zero bytes with room for it is appended, and the loop goes on behind it. -/
theorem rawRun_of_readRun {bs : List Byte} {s : State} {c : Cursor} (n : Nat)
    (hread : readRun s.input bs.length s.cur = .ok (bs, c)) (hne : ∀ b ∈ bs, b ≠ 0#8)
    (hroom : s.destPos + bs.length ≤ s.maxLen.toNat) :
    rawRun (bs.length + n) s = rawRun n ((s.appendBytes bs).setCursor c) := by
  induction bs generalizing s with
  | nil =>
    cases hread
    rw [List.length_nil, Nat.zero_add]
    rfl
  | cons b bs ih =>
    obtain ⟨⟨v, c1⟩, hv, hread⟩ := bind_eq_ok.1 hread
    obtain ⟨⟨bs', c2⟩, hbs, hread⟩ := bind_eq_ok.1 hread
    simp only [Except.ok.injEq, Prod.mk.injEq, List.cons.injEq] at hread
    obtain ⟨⟨rfl, rfl⟩, rfl⟩ := hread
    obtain ⟨hb, hne⟩ := List.forall_mem_cons.1 hne
    have hv0 : v ≠ 0 := fun h => hb (by rw [h])
    rw [List.length_cons] at hroom
    rw [List.length_cons, Nat.add_right_comm, rawRun_of_byte _ hv hv0 (by omega),
      ih (s := (s.setCursor c1).appendByte (BitVec.ofNat 8 v)) hbs hne (by
        rw [State.appendByte_destPos, Nat.add_right_comm]
        exact hroom),
      ← State.appendBytes_cons, appendBytes_setCursor]
    rfl

/-- After a run and with the cursor at `c`, only `OUT`, `DEST_POS` and `CUR` differ, and the run stands in `OUT`. -/
theorem rawRun_result (s : State) (bs : List Byte) (c : Cursor) :
    (s.appendBytes bs).setCursor c =
        { s with out := (s.appendBytes bs).out, destPos := (s.appendBytes bs).destPos, cur := c } ∧
      appended s ((s.appendBytes bs).setCursor c) bs.length (bs[·]?) :=
  ⟨congrArg (State.setCursor c) (onlyAppends_appendBytes s bs), appended_appendBytes s bs⟩

/-- Settles O27: behind the run, with room for `n` more bytes, the loop stops at once if `n` is 0, and else the next
read decides. -/
theorem rawRunAppends : Obligations.RawRunAppends := by
  intro s bs c hread hne
  have runs {n : Nat} (hn : s.destPos + bs.length + n = s.maxLen.toNat) :
      exec .raw s = rawRun n ((s.appendBytes bs).setCursor c) := by
    rw [← rawRun_of_readRun n hread hne (by omega), show bs.length + n = s.maxLen.toNat - s.destPos by omega]
    rfl
  have hinput : ((s.appendBytes bs).setCursor c).input = s.input := by rw [(rawRun_result s bs c).1]
  refine ⟨fun c' hz hroom => ?zero, fun hfull => ?full, fun he hroom => ?ends⟩
  case zero =>
    obtain ⟨n, hn⟩ := Nat.exists_eq_add_of_lt hroom
    refine ⟨(s.appendBytes bs).setCursor c', ?_, rawRun_result s bs c'⟩
    rw [runs (n := n + 1) (by omega), rawRun_of_zero n (by rw [hinput]; exact hz)]
    rfl
  case full => exact ⟨_, runs (n := 0) (by omega), rawRun_result s bs c⟩
  case ends =>
    obtain ⟨n, hn⟩ := Nat.exists_eq_add_of_lt hroom
    have hcall : sameCall s ((s.appendBytes bs).setCursor c) := by
      rw [(rawRun_result s bs c).1]
      exact sameCall_refl s
    refine ⟨((s.appendBytes bs).setCursor c).raised .endOfInput, ?_, rfl, rfl, rfl, hcall⟩
    rw [runs (n := n + 1) (by omega), rawRun_of_error n (by rw [hinput]; exact he)]
    rfl

/-! ### Who writes the tables (10_state.md R16, 70_reset_and_hazards.md R227) -/

/-- From `s` to `t` the tables have stayed, unless a fault has freed them. -/
def tablesKept (s t : State) : Prop := t.status ≠ .fault → t.lit = s.lit ∧ t.lpos = s.lpos

theorem tablesKept_of_raise {e : Err} {s t : State} (h : raise e s = .next t) : tablesKept s t := by
  cases h
  exact fun ht => absurd rfl ht

theorem tablesKept_of_onlyAppends {s t : State} (h : onlyAppends s t) : tablesKept s t := by
  intro _
  rw [h]
  exact ⟨rfl, rfl⟩

theorem backReference_tablesKept {capacity offset len : Nat} {s t : State}
    (h : backReference capacity offset len s = .next t) : tablesKept s t := by
  cases hr : copyRejected offset len capacity s.destPos with
  | true => exact tablesKept_of_raise ((backReference_of_rejected hr).symm.trans h)
  | false => exact tablesKept_of_onlyAppends (copyBytes_next ((backReference_of_accepted hr).symm.trans h)).1

theorem rawRun_tablesKept {k : Nat} {s t : State} (h : rawRun k s = .next t) : tablesKept s t := by
  induction k generalizing s with
  | zero =>
    cases h
    exact tablesKept_of_onlyAppends (onlyAppends_refl _)
  | succ k ih =>
    obtain ⟨e, -, rfl⟩ | ⟨c, -, rfl⟩ | ⟨v, c, -, -, -, hr⟩ := rawRun_cases h
    · exact tablesKept_of_raise rfl
    · exact fun _ => ⟨rfl, rfl⟩
    · exact ih (s := (s.setCursor c).appendByte (BitVec.ofNat 8 v)) hr

theorem execHdrP8_tablesKept {len : Half} {s t : State} (h : execHdrP8 len s = .next t) : tablesKept s t := by
  rcases Nat.lt_or_ge (p8Capacity s.entry s.cap s.p8OutCap) len.toNat with hlt | hle
  · exact tablesKept_of_raise (s := s) ((exec_hdrP8_of_gt hlt).symm.trans h)
  · cases (exec_hdrP8_of_le hle).symm.trans h
    exact fun _ => ⟨rfl, rfl⟩

/-- Settles O28: one case per form of instruction; the LIT forms have a table position or raise. -/
theorem onlyLitWritesTheTable : Obligations.OnlyLitWritesTheTable := by
  intro i s t h ht hi
  cases i
  case lit0 | lit1 | lit2 | lit3 | lit4 | litE5 | litE6 | litE7 | litE8 | litE9 | litE10 | litE11 => cases hi
  case litE12 | litE13 | litE14 | litE15 | litE16 => exact .inl (tablesKept_of_raise h ht)
  case copy15 | copy10 | copy5 => exact .inl (backReference_tablesKept h ht)
  case raw => exact .inl (rawRun_tablesKept h ht)
  case p8Esc | p8Sym =>
    obtain ⟨-, rfl⟩ := putByte_next_iff.1 h
    exact .inl ⟨rfl, rfl⟩
  case p8Back => exact .inl (backReference_tablesKept h ht)
  case hdrPxa r k =>
    cases h
    exact .inr ⟨r, k, rfl, rfl, rfl⟩
  case hdrP8 => exact .inl (execHdrP8_tablesKept h ht)
  case sniffPxa | sniffP8 =>
    cases h
    exact .inl ⟨rfl, rfl⟩
  case sniffLegacy => exact .inl (tablesKept_of_raise (s := s.routed .legacy s.phase) h ht)

/-! ### The header and the end of the loop (44_pxa_engine.md R142 to R148) -/

/-- Settles O30: HDR.PXA is one update of the state. -/
theorem hdrPxaInitialises : Obligations.HdrPxaInitialises := by
  intro r k s
  refine ⟨s.pxaStarted r k, rfl, rfl, fun hc => ?_, fun n hc => ?_, fun hcfg => tablesInverse_inverseTable hcfg.1,
    readTable_of_identity⟩
  · rw [State.pxaStarted_maxLen, hc, pxaCapacity_none]
  · rw [State.pxaStarted_maxLen, hc, pxaCapacity_some]

/-- Settles O31: without a next block the step is the completion check. -/
theorem pxaLoopEnds : Obligations.PxaLoopEnds := by
  intro s hs hp hdone
  rw [step_block_of_done hs hp (decide_eq_false hdone)]
  obtain ⟨hfull, hf⟩ | ⟨hne, hf⟩ := finishPxa_cases s
  · exact ⟨fun _ => hf, fun hne => absurd hfull hne⟩
  · exact ⟨fun hfull => absurd hfull hne, fun _ => ⟨_, hf, hasRaised_raised _ s⟩⟩

/-! ### LiteralOverflow without a field (30_encoding.md R69, decisions D6 and D7) -/

theorem literalTooWide_raises (s : State) : ∃ t, literalTooWide s = .next t ∧ hasRaised .literalOverflow s t :=
  ⟨_, rfl, hasRaised_raised .literalOverflow s⟩

/-- Settles O24: the five forms are one operation. -/
theorem overlongLiteralRaises : Obligations.OverlongLiteralRaises := fun s =>
  ⟨literalTooWide_raises s, literalTooWide_raises s, literalTooWide_raises s, literalTooWide_raises s,
    literalTooWide_raises s⟩

end Sys2Proof.Machine
end

section
/-! PROOFS. The Dispatcher's classes (45_dispatcher.md R160, R161), and the P8 back-reference and the end of the P8 loop
(46_p8_decoder.md R177, R178, R181). -/

namespace Sys2Proof.Machine

/-! ### The classes of an input (45_dispatcher.md R160, R161) -/

theorem decodeSniff_of_short {inp : List Byte} (h : inp.length < 4) : decodeSniff inp = .error .endOfInput := by
  unfold decodeSniff
  split
  · simp only [List.length_cons] at h
    omega
  · rfl

/-- An input of four bytes or more begins with four bytes. -/
theorem exists_eq_cons_of_length_le {inp : List Byte} (h : 4 ≤ inp.length) :
    ∃ rest, inp = inp[0] :: inp[1] :: inp[2] :: inp[3] :: rest := by
  match inp, h with
  | _ :: _ :: _ :: _ :: rest, _ => exact ⟨rest, rfl⟩

theorem resemblesPxa_eq_true {b0 b1 b2 b3 : Byte} :
    resemblesPxa b0 b1 b2 b3 = true ↔ b0 = 0x00#8 ∨ b1 = 0x70#8 ∨ b2 = 0x78#8 ∨ b3 = 0x61#8 := by
  simp only [resemblesPxa, Bool.or_eq_true, beq_iff_eq, or_assoc]

theorem isP8Magic_eq_true {b0 b1 b2 b3 : Byte} : isP8Magic b0 b1 b2 b3 = true ↔ [b0, b1, b2, b3] = p8Magic := by
  simp only [isP8Magic, Bool.and_eq_true, beq_iff_eq, p8Magic, List.cons.injEq, and_true, and_assoc]

section
variable {s : State} (hs : s.status = .running) (hp : s.phase = .sniff)
include hs hp

theorem step_sniff_of_ok {i : Instr} (hd : decodeSniff s.input = .ok i) : step s = exec i s :=
  (step_of_fetchByIndex (fetch_sniff hs hp)).1 i hd

theorem step_sniff_of_error {e : DecodeError} (hd : decodeSniff s.input = .error e) :
    step s = .next (s.raised (decodeErr e)) :=
  (step_of_fetchByIndex (fetch_sniff hs hp)).2 e hd

end

/-- Settles O34: the decoder of the Dispatcher's bytes on a short input and on the three classes. -/
theorem dispatcherClassifies : Obligations.DispatcherClassifies := by
  intro s hs hp
  refine ⟨fun hshort => ⟨_, step_sniff_of_error hs hp (decodeSniff_of_short hshort), hasRaised_raised _ s⟩, fun h => ?_⟩
  obtain ⟨rest, hinput⟩ := exists_eq_cons_of_length_le h
  have htake : s.input.take 4 = [s.input[0], s.input[1], s.input[2], s.input[3]] := congrArg (List.take 4) hinput
  generalize s.input[0] = b0, s.input[1] = b1, s.input[2] = b2, s.input[3] = b3 at hinput htake ⊢
  rw [← resemblesPxa_eq_true, htake]
  refine ⟨fun hpxa => ?pxa, fun hmagic => ?p8, fun hpxa hmagic => ?neither⟩
  case pxa =>
    exact step_sniff_of_ok hs hp (hinput ▸ decodeSniff_of_resemblesPxa rest hpxa)
  case p8 =>
    cases hmagic
    exact step_sniff_of_ok hs hp (hinput ▸ decodeSniff_p8Magic rest)
  case neither =>
    have hp8 : isP8Magic b0 b1 b2 b3 = false := Bool.eq_false_iff.2 (mt isP8Magic_eq_true.1 hmagic)
    exact ⟨_, step_sniff_of_neither hs hp hinput (Bool.eq_false_iff.2 hpxa) hp8, hasRaised_raised _ s⟩

/-! ### The P8 back-reference (46_p8_decoder.md R177, R178) -/

/-- Settles O39: in range it passes the three checks against `P8_CAP`, so it is the byte-serial copy. -/
theorem backCopiesEarlierBytes : Obligations.BackCopiesEarlierBytes := by
  intro val val2 s offset len hf hpos hreach hfit
  have haccepted : copyRejected offset len s.p8Cap s.destPos = false := copyRejected_eq_false.2 ⟨hpos, hreach, hfit⟩
  obtain ⟨t, ht, honly, happ, -⟩ := copyBytes_appends hf hpos hreach hfit
  exact ⟨t, (backReference_of_accepted haccepted).trans ht, honly, happ⟩

/-! ### The end of the P8 loop (46_p8_decoder.md R181) -/

/-- `OUT[0 .. n)` ends with the snippet, each byte at its place. -/
theorem endsWith_eq_true {m : Memory} {n : Nat} {snippet : List Byte} :
    endsWith m n snippet = true ↔
      snippet.length ≤ n ∧ ∀ i, i < snippet.length → m.read (n - snippet.length + i) = snippet[i]? := by
  simp only [endsWith, Bool.and_eq_true, decide_eq_true_eq, List.all_eq_true, List.mem_range, beq_iff_eq]

/-- Settles O40: `strip_trailer` is an if-else chain over the two trailers. -/
theorem p8LoopEnds : Obligations.P8LoopEnds := by
  intro s hs hp hdone
  refine ⟨_, step_code_of_done hs hp (decide_eq_false (Nat.not_lt.2 hdone)), ?_⟩
  simp only [← endsWith_eq_true, stripTrailer]
  refine ⟨fun h1 => ?first, fun h1 h2 => ?second, fun h1 h2 => ?none⟩
  case first =>
    rw [if_pos h1]
    exact Nat.sub_add_cancel (endsWith_eq_true.1 h1).1
  case second =>
    rw [if_neg h1, if_pos h2]
    exact Nat.sub_add_cancel (endsWith_eq_true.1 h2).1
  case none => rw [if_neg h1, if_neg h2]

end Sys2Proof.Machine
end

section
/-! PROOFS. The end of a call (60_exceptions.md R190, 44_pxa_engine.md R147, 70_reset_and_hazards.md R223): the kinds of
fault of each phase, and a bound on the steps from the bits that every block and every code consumes. -/

namespace Sys2Proof.Machine

/-- Settles O44: a step leaves `ERR` or raises a kind of its phase, and a faulted call has a kind. -/
theorem faultKindsOfEachPhase : Obligations.FaultKindsOfEachPhase := by
  intro s t hi hs h hfault
  have hr := hi.running hs
  have hne : t.err ≠ .none := ((stepKeepsInvariant s t hi h).fault hfault).1
  have hkind : t.err ∈ kindsRaisedIn s.phase :=
    (step_errAmong hr.cursor h).resolve_left fun hsame => hne (hsame.trans hr.err)
  generalize s.phase = p at hkind ⊢
  cases p <;> simpa only [kindsRaisedIn, List.mem_cons, List.not_mem_nil, or_false] using hkind

/-! ### What a block consumes (44_pxa_engine.md R147) -/

/-- Reading the fields takes at least 6 bits, and running the block does not move the cursor back. -/
theorem BlockRan.address_bounds {s t : State} {i : Instr} {c : Cursor} (hc : cursorLegal s.input s.cur)
    (hd : decodeBlock s.input s.cur = .ok (i, c)) (hr : BlockRan (s.setCursor c) t) :
    Cursor.address s.cur + 6 ≤ Cursor.address t.cur ∧ Cursor.address t.cur ≤ 8 * s.input.length := by
  rw [← cursorAt_address hc.1] at hd
  obtain ⟨j, rfl, hj, hle⟩ := decodeBlock_pos hd
  obtain ⟨hlegal, hadvance⟩ := hr.cursor (cursorLegal_cursorAt hle)
  rw [State.setCursor_cur, address_cursorAt] at hadvance
  exact ⟨hj.trans hadvance, address_le_of_legal hlegal⟩

theorem status_of_faultsFrom {s t : State} (h : faultsFrom s t) : t.status = .fault := by
  obtain ⟨e, u, -, -, rfl⟩ := h
  rfl

/-- Settles O32: of all that a step can do in the block loop, only a block leaves the call running. -/
theorem everyBlockConsumesBits : Obligations.EveryBlockConsumesBits := by
  intro s t hi hs hp h ht
  cases step_transition h with
  | block _ hd hr =>
    exact ⟨(congrArg State.phase hr.frame).trans hp, hr.address_bounds (hi.running hs).cursor hd⟩
  | faulted hf => cases (status_of_faultsFrom hf).symm.trans ht
  | pxaDone => cases ht
  | sniffedPxa hq | sniffedP8 hq | pxaHeader _ _ hq | p8Header _ hq | code hq | p8Done hq => cases hq.symm.trans hp

/-! ### The steps of a call (70_reset_and_hazards.md R223) -/

/-- A bound on the steps of a running call before the one that ends it: the bits or bytes that its loop has not yet
read, and before a loop one step for each place on the way to it. -/
def State.stepsLeft (s : State) : Nat :=
  match s.phase with
  | .sniff => 8 * s.input.length + 2
  | .pxaHeader | .p8Header => 8 * s.input.length + 1
  | .pxaBlocks => 8 * s.input.length - Cursor.address s.cur
  | .p8Codes => s.input.length - s.p8Src

theorem stepsLeft_sniff {s : State} (hp : s.phase = .sniff) : s.stepsLeft = 8 * s.input.length + 2 := by
  simp only [State.stepsLeft, hp]

theorem stepsLeft_header {s : State} (hp : s.phase = .pxaHeader ∨ s.phase = .p8Header) :
    s.stepsLeft = 8 * s.input.length + 1 := by
  obtain hp | hp := hp <;> simp only [State.stepsLeft, hp]

theorem stepsLeft_pxaBlocks {s : State} (hp : s.phase = .pxaBlocks) :
    s.stepsLeft = 8 * s.input.length - Cursor.address s.cur := by
  simp only [State.stepsLeft, hp]

theorem stepsLeft_p8Codes {s : State} (hp : s.phase = .p8Codes) : s.stepsLeft = s.input.length - s.p8Src := by
  simp only [State.stepsLeft, hp]

theorem stepsLeft_start_le (cfg : Config) (input : List Byte) (cap : Option Nat) (entry : Entry) (p8OutCap : Nat) :
    (State.start cfg input cap entry p8OutCap).stepsLeft ≤ 8 * input.length + 2 := by
  cases entry
  case auto => exact (stepsLeft_sniff rfl).le
  case pxa => exact (stepsLeft_header (.inl rfl)).le.trans (Nat.le_succ _)
  case p8 => exact (stepsLeft_header (.inr rfl)).le.trans (Nat.le_succ _)

/-- A step ends the call or brings its end closer. -/
theorem Transition.ended_or_closer {s t : State} (h : Transition s t) (hs : s.status = .running)
    (hc : cursorLegal s.input s.cur) : t.ended ∨ t.status = .running ∧ t.stepsLeft < s.stepsLeft := by
  cases h with
  | faulted hf => exact .inl (.inr (status_of_faultsFrom hf))
  | pxaDone | p8Done => exact .inl (.inl rfl)
  | sniffedPxa hp =>
    rw [stepsLeft_sniff hp, stepsLeft_header (s := s.routed .pxa .pxaHeader) (.inl rfl)]
    exact .inr ⟨hs, Nat.lt_succ_self _⟩
  | sniffedP8 hp =>
    rw [stepsLeft_sniff hp, stepsLeft_header (s := s.routed .p8 .p8Header) (.inr rfl)]
    exact .inr ⟨hs, Nat.lt_succ_self _⟩
  | pxaHeader r k hp =>
    rw [stepsLeft_header (.inl hp), stepsLeft_pxaBlocks (s := s.pxaStarted r k) rfl]
    exact .inr ⟨hs, Nat.lt_succ_of_le (Nat.sub_le _ _)⟩
  | p8Header len hp =>
    rw [stepsLeft_header (.inr hp), stepsLeft_p8Codes (s := s.p8Started len _) rfl, State.p8Started_input]
    exact .inr ⟨hs, by omega⟩
  | block hp hd hr =>
    obtain ⟨hlow, hhigh⟩ := hr.address_bounds hc hd
    rw [stepsLeft_pxaBlocks hp, stepsLeft_pxaBlocks ((congrArg State.phase hr.frame).trans hp),
      congrArg State.input hr.frame, State.setCursor_input]
    exact .inr ⟨(congrArg State.status hr.frame).trans hs, by omega⟩
  | code hp hd hr =>
    obtain ⟨-, hlow, hhigh⟩ := decodeCode_pos hd
    rw [stepsLeft_p8Codes hp, stepsLeft_p8Codes ((congrArg State.phase hr.frame).trans hp), hr.frame]
    exact .inr ⟨hs, Nat.sub_lt_sub_left (hlow.trans_le hhigh) hlow⟩

/-- From a running state that meets the invariant the call ends within the bound and one step. -/
theorem exists_end_of_running {s : State} (hi : s.Inv) (hs : s.status = .running) :
    ∃ n t, n ≤ s.stepsLeft + 1 ∧ runSteps n s = .next t ∧ t.ended := by
  induction hleft : s.stepsLeft using Nat.strong_induction_on generalizing s with
  | _ left ih =>
    subst hleft
    obtain ⟨u, hu⟩ := runningStepAnswers s hi hs
    obtain hended | ⟨hrunning, hlt⟩ := (step_transition hu).ended_or_closer hs (hi.running hs).cursor
    · refine ⟨1, u, Nat.le_add_left _ _, ?_, hended⟩
      rw [runSteps_succ, hu]
      rfl
    · obtain ⟨n, t, hn, hrun, ht⟩ := ih _ hlt (stepKeepsInvariant s u hi hu) hrunning rfl
      refine ⟨n + 1, t, by omega, ?_, ht⟩
      rw [runSteps_succ, hu]
      exact hrun

/-- Settles O49: the bound at the start of a call. -/
theorem everyCallEnds : Obligations.EveryCallEnds := by
  intro cfg input cap entry p8OutCap hcfg
  obtain ⟨n, t, hn, hrun, ht⟩ :=
    exists_end_of_running (everyStartMeetsInvariant cfg input cap entry p8OutCap hcfg) rfl
  exact ⟨n, t, hn.trans (Nat.succ_le_succ (stepsLeft_start_le cfg input cap entry p8OutCap)), hrun, ht⟩

end Sys2Proof.Machine
end

section
/-! PROOFS. A capped PXA call beside the uncapped call of the same input (44_pxa_engine.md R152, conflict C3, decision
D12): step by step they differ in the cap alone, until the capped call is full or a COPY crosses the cap. -/

namespace Sys2Proof.Machine

/-! ### The uncapped call's state with a cap -/

/-- The state of an uncapped PXA call as it is with the cap `k`: `CAP` and the capacity that it gives. -/
def State.capAt (k : Nat) (u : State) : State := { u with cap := some k, maxLen := pxaCapacity (some k) u.rawLen }

theorem start_capAt (cfg : Config) (input : List Byte) (k : Nat) (entry : Entry) (p8OutCap : Nat) :
    State.start cfg input (some k) entry p8OutCap = (State.start cfg input none entry p8OutCap).capAt k := by
  simp [State.start, State.capAt, pxaCapacity]

theorem capAt_maxLen_toNat (k : Nat) (u : State) : (u.capAt k).maxLen.toNat = min k u.rawLen.toNat :=
  pxaCapacity_some k u.rawLen

/-- Without a cap the capacity is `RAW_LEN`, which no cap exceeds. -/
theorem capAt_maxLen_le (k : Nat) {u : State} (hmax : u.maxLen = u.rawLen) :
    (u.capAt k).maxLen.toNat ≤ u.maxLen.toNat := by
  rw [capAt_maxLen_toNat, hmax]
  exact Nat.min_le_right _ _

/-- What an instruction that has room under the cap does in the capped call, where it goes from `u` to `t` without one:
the same, or InvalidBlock, or a part of it that fills the capped output, where a RAW run stops (decision D8). -/
inductive BlockCapped (k : Nat) (t : State) : State → Prop
  | same : BlockCapped k t (t.capAt k)
  | rejected {s : State} (hs : s.status = .fault) (he : s.err = .invalidBlock) : BlockCapped k t s
  | full {w : State} (hr : BlockRan w t) (hfull : w.destPos = (w.capAt k).maxLen.toNat) : BlockCapped k t (w.capAt k)

section
variable {k : Nat} {u t : State}

theorem ne_raised_of_ne_fault (ht : t.status ≠ .fault) (e : Err) (s : State) : t ≠ s.raised e := by
  rintro rfl
  exact ht rfl

theorem literalBlock_capAt {e v : Nat} (h : literalBlock e v u = .next t) (ht : t.status ≠ .fault)
    (hroom : u.destPos < (u.capAt k).maxLen.toNat) : literalBlock e v (u.capAt k) = .next (t.capAt k) := by
  obtain ⟨-, hfault⟩ | ⟨hle, -, rfl⟩ := literalBlock_cases h
  · exact absurd hfault (ne_raised_of_ne_fault ht _ u)
  · exact literalBlock_of_le (s := u.capAt k) rfl hle hroom

/-- The copy reads `OUT` and `DEST_POS` only, and a capacity only bounds it. -/
theorem copyBytes_capAt {capacity capacity' offset len : Nat} (h : copyBytes capacity offset len u = .next t)
    (hfit : u.destPos + len ≤ capacity') : copyBytes capacity' offset len (u.capAt k) = .next (t.capAt k) := by
  induction len generalizing u with
  | zero =>
    cases h
    rfl
  | succ n ih =>
    have hread : (u.capAt k).readOut ((u.capAt k).destPos - offset) = u.readOut (u.destPos - offset) := rfl
    rw [copyBytes] at h ⊢
    rw [hread]
    cases hb : u.readOut (u.destPos - offset) with
    | none => simp [hb] at h
    | some b =>
      simp only [hb] at h
      obtain ⟨v, hv, hrest⟩ := andThen_eq_next.1 h
      obtain ⟨-, rfl⟩ := putByte_next_iff.1 hv
      simp only [putByte_of_lt (s := u.capAt k) (show u.destPos < capacity' by omega), andThen_next]
      exact ih hrest (by rw [State.appendByte_destPos]; omega)

theorem copyBlock_capAt {offset len : Nat} (h : copyBlock offset len u = .next t) (ht : t.status ≠ .fault) :
    ∃ s, copyBlock offset len (u.capAt k) = .next s ∧ BlockCapped k t s := by
  obtain ⟨-, hfault⟩ | ⟨-, hcopy⟩ := copyBlock_cases offset len u
  · cases hfault.symm.trans h
    exact absurd rfl ht
  · obtain ⟨-, hrejected⟩ | ⟨haccepted, hcapped⟩ := copyBlock_cases offset len (u.capAt k)
    · exact ⟨_, hrejected, .rejected rfl rfl⟩
    · obtain ⟨-, -, hfit⟩ := copyRejected_eq_false.1 haccepted
      exact ⟨_, hcapped.trans (copyBytes_capAt (hcopy.symm.trans h) hfit), .same⟩

/-- The capped run has room for `n` more bytes, the uncapped one for `r` more. -/
theorem rawRun_capAt {n r : Nat} (h : rawRun (n + r) u = .next t) (ht : t.status ≠ .fault)
    (hroom : u.destPos + n = (u.capAt k).maxLen.toNat) :
    ∃ s, rawRun n (u.capAt k) = .next s ∧ BlockCapped k t s := by
  induction n generalizing u with
  | zero =>
    have hran := (rawRun_ran h).resolve_left fun hf => ht (status_of_faultsFrom hf)
    exact ⟨_, rfl, .full hran hroom⟩
  | succ n ih =>
    rw [Nat.add_right_comm] at h
    obtain ⟨e, -, hfault⟩ | ⟨c, hg, rfl⟩ | ⟨v, c, hg, hv, -, hr⟩ := rawRun_cases h
    · exact absurd hfault (ne_raised_of_ne_fault ht _ u)
    · exact ⟨_, rawRun_of_zero n (s := u.capAt k) hg, .same⟩
    · rw [rawRun_of_byte n (s := u.capAt k) hg hv (show u.destPos < _ by omega)]
      exact ih hr (Nat.add_right_comm u.destPos 1 n ▸ hroom)

/-- A block of the uncapped call that raises no fault, run in the capped call with room left. -/
theorem exec_block_capAt {i : Instr} (hi : i.phase = .pxaBlocks) (hmax : u.maxLen = u.rawLen)
    (h : exec i u = .next t) (ht : t.status ≠ .fault) (hroom : u.destPos < (u.capAt k).maxLen.toNat) :
    ∃ s, exec i (u.capAt k) = .next s ∧ BlockCapped k t s := by
  cases i
  case lit0 | lit1 | lit2 | lit3 | lit4 | litE5 | litE6 | litE7 | litE8 | litE9 | litE10 | litE11 =>
    exact ⟨_, literalBlock_capAt h ht hroom, .same⟩
  case litE12 | litE13 | litE14 | litE15 | litE16 =>
    cases h
    exact absurd rfl ht
  case copy15 | copy10 | copy5 => exact copyBlock_capAt h ht
  case raw =>
    have hle := capAt_maxLen_le k hmax
    have hsplit : u.maxLen.toNat - u.destPos =
        (u.capAt k).maxLen.toNat - u.destPos + (u.maxLen.toNat - (u.capAt k).maxLen.toNat) := by omega
    have hrun : rawRun (u.maxLen.toNat - u.destPos) u = .next t := h
    rw [hsplit] at hrun
    exact rawRun_capAt hrun ht (Nat.add_sub_cancel' hroom.le)
  case p8Esc | p8Sym | p8Back | hdrPxa | hdrP8 | sniffPxa | sniffP8 | sniffLegacy => cases hi

end

/-! ### Runs of the uncapped call up to its `Ok` -/

/-- The output of `s` stands at the front of that of `t`. -/
def outBegins (s t : State) : Prop := s.destPos ≤ t.destPos ∧ ∀ a, a < s.destPos → t.out.read a = s.out.read a

theorem outBegins_refl (s : State) : outBegins s s := ⟨Nat.le_refl _, fun _ _ => rfl⟩

theorem outBegins_trans {s t u : State} (h : outBegins s t) (k : outBegins t u) : outBegins s u :=
  ⟨h.1.trans k.1, fun a ha => (k.2 a (ha.trans_le h.1)).trans (h.2 a ha)⟩

section
variable {n : Nat} {u f : State}

/-- A run cannot go on after the end of the call. -/
theorem eq_of_runSteps_of_not_running (hu : u.status ≠ .running) (h : runSteps n u = .next f) : f = u := by
  cases n with
  | zero =>
    cases h
    rfl
  | succ n =>
    rw [runSteps_succ, step_not_running hu] at h
    cases h

theorem ne_fault_of_runs_to_done (h : runSteps n u = .next f) (hf : f.status = .done) : u.status ≠ .fault := by
  intro hu
  obtain rfl := eq_of_runSteps_of_not_running (by simp [hu]) h
  cases hu.symm.trans hf

/-- A running call that comes to its end takes a step, and the rest of the run. -/
theorem exists_step_of_runs_to_done (hs : u.status = .running) (h : runSteps n u = .next f) (hf : f.status = .done) :
    ∃ t m, step u = .next t ∧ runSteps m t = .next f ∧ t.status ≠ .fault := by
  cases n with
  | zero =>
    cases h
    cases hs.symm.trans hf
  | succ n =>
    obtain ⟨t, hstep, hrest⟩ := andThen_eq_next.1 ((runSteps_succ n u).symm.trans h)
    exact ⟨t, n, hstep, hrest, ne_fault_of_runs_to_done hrest hf⟩

/-- What is in the output stays there (10_state.md R19). -/
theorem outBegins_of_runs_to_done (hi : u.Inv) (h : runSteps n u = .next f) (hf : f.status = .done) :
    outBegins u f := by
  refine (runSteps_induction (P := fun t => t.Inv ∧ (t.status ≠ .fault → outBegins u t)) ?_
    ⟨hi, fun _ => outBegins_refl u⟩ h).2 (by simp [hf])
  rintro t t' ⟨ht, hbegins⟩ hstep
  have hs := running_of_step_next hstep
  refine ⟨stepKeepsInvariant t t' ht hstep, fun hne => outBegins_trans (hbegins (by simp [hs])) ?_⟩
  obtain ⟨hle, hkept, -, -⟩ := outputOnlyGrows t t' ht hs hstep hne
  exact ⟨hle, hkept⟩

/-- A call is on the P8 path. -/
def onP8Path (s : State) : Prop := s.phase = .p8Header ∨ s.phase = .p8Codes

/-- A call on the P8 path stays there, and its `FORMAT` is not PXA. -/
theorem onP8Path_step {s t : State} (hi : s.Inv) (hp : onP8Path s) (h : step s = .next t) (ht : t.status ≠ .fault) :
    onP8Path t ∧ t.format ≠ .pxa := by
  have hs := running_of_step_next h
  have hformat := format_ne_pxa (s := s) hp (hi.running hs).phase
  cases step_transition h with
  | faulted hf => exact absurd (status_of_faultsFrom hf) ht
  | p8Header => exact ⟨.inr rfl, hformat⟩
  | code hq _ hr =>
    rw [onP8Path, hr.frame]
    exact ⟨hp, hformat⟩
  | p8Done => exact ⟨hp, hformat⟩
  | sniffedPxa hq | sniffedP8 hq | pxaHeader _ _ hq | block hq | pxaDone hq =>
    obtain hp | hp := hp <;> cases hq.symm.trans hp

theorem not_onP8Path_of_runs_to_pxa (hi : u.Inv) (hs : u.status = .running) (h : runSteps n u = .next f)
    (hf : f.status = .done) (hpxa : f.format = .pxa) : ¬ onP8Path u := by
  intro hp
  have hend := runSteps_induction (P := fun t => t.Inv ∧ (t.status ≠ .fault → onP8Path t ∧ t.format ≠ .pxa)) ?_
    ⟨hi, fun _ => ⟨hp, format_ne_pxa hp (hi.running hs).phase⟩⟩ h
  · exact (hend.2 (by simp [hf])).2 hpxa
  · rintro t t' ⟨ht, hpath⟩ hstep
    have hrunning := running_of_step_next hstep
    exact ⟨stepKeepsInvariant t t' ht hstep, onP8Path_step ht (hpath (by simp [hrunning])).1 hstep⟩

end

/-! ### The capped call along the uncapped one -/

/-- Where a capped call can stand while the uncapped call of its input ends with `Ok` in the state `f`: at a state of
the uncapped call, or full, or ended. -/
inductive CappedCourse (k : Nat) (f : State) : State → Prop
  | along {u : State} {n : Nat} (hi : u.Inv) (hs : u.status = .running) (hcap : u.cap = none)
      (hrun : runSteps n u = .next f) : CappedCourse k f (u.capAt k)
  | full {s : State} (hs : s.status = .running) (hp : s.phase = .pxaBlocks) (hpxa : s.format = .pxa)
      (hfull : s.destPos = s.maxLen.toNat) (hout : outBegins s f) : CappedCourse k f s
  | done {s : State} (hs : s.status = .done) (hpxa : s.format = .pxa) (hout : outBegins s f) : CappedCourse k f s
  | rejected {s : State} (hs : s.status = .fault) (he : s.err = .invalidBlock) : CappedCourse k f s

theorem moreBlocks_eq_false_of_full {s : State} (h : s.destPos = s.maxLen.toNat) : moreBlocks s = false :=
  decide_eq_false fun hm => hm.2.ne h

/-- A full call ends with `Ok` (44_pxa_engine.md R148). -/
theorem step_of_full {s t : State} (hs : s.status = .running) (hp : s.phase = .pxaBlocks)
    (hfull : s.destPos = s.maxLen.toNat) (h : step s = .next t) : t = s.finished s.maxLen.toNat := by
  rw [step_block_of_done hs hp (moreBlocks_eq_false_of_full hfull)] at h
  obtain ⟨-, hf⟩ | ⟨hne, -⟩ := finishPxa_cases s
  · cases hf.symm.trans h
    rfl
  · exact absurd hfull hne

section
variable {k m : Nat} {f u t s : State}

/-- Outside the loops the two calls do the same. -/
theorem CappedCourse.of_same (hi : u.Inv) (hcap : u.cap = none) (h : step u = .next t) (hrest : runSteps m t = .next f)
    (ht : t.status = .running) (hstep : step (u.capAt k) = .next (t.capAt k)) (hs : step (u.capAt k) = .next s) :
    CappedCourse k f s := by
  cases hstep.symm.trans hs
  obtain ⟨-, -, hcap', -, -⟩ := stepKeepsParameters u t h
  exact .along (stepKeepsInvariant u t hi h) ht (hcap'.trans hcap) hrest

variable (hf : f.status = .done)
include hf

theorem cappedCourse_sniff (hi : u.Inv) (hrunning : u.status = .running) (hp : u.phase = .sniff)
    (hcap : u.cap = none) (h : step u = .next t) (hrest : runSteps m t = .next f) (hs : step (u.capAt k) = .next s) :
    CappedCourse k f s := by
  have ht := ne_fault_of_runs_to_done hrest hf
  obtain ⟨e, -, he⟩ | ⟨i, hd, hexec⟩ := step_sniff hrunning hp
  · exact absurd (Host.Outcome.next.inj (h.symm.trans he)) (ne_raised_of_ne_fault ht _ u)
  · have hexec' := step_sniff_of_ok (s := u.capAt k) hrunning hp hd
    have hphase := (decodeSniff_ok hd).1
    have h' := hexec.symm.trans h
    cases i
    case sniffPxa | sniffP8 =>
      cases h'
      exact .of_same hi hcap h hrest hrunning hexec' hs
    case sniffLegacy =>
      cases h'
      exact absurd rfl ht
    all_goals cases hphase

theorem cappedCourse_pxaHeader (hi : u.Inv) (hrunning : u.status = .running) (hp : u.phase = .pxaHeader)
    (hcap : u.cap = none) (h : step u = .next t) (hrest : runSteps m t = .next f) (hs : step (u.capAt k) = .next s) :
    CappedCourse k f s := by
  have ht := ne_fault_of_runs_to_done hrest hf
  obtain ⟨e, -, he⟩ | ⟨i, hd, hexec⟩ := step_pxaHeader hrunning hp
  · exact absurd (Host.Outcome.next.inj (h.symm.trans he)) (ne_raised_of_ne_fault ht _ u)
  · have hexec' := (step_of_fetchByIndex (fetch_pxaHeader (s := u.capAt k) hrunning hp)).1 i hd
    obtain ⟨⟨r, c, rfl⟩, -, -⟩ := decodePxaHeader_ok hd
    cases hexec.symm.trans h
    exact .of_same hi hcap h hrest hrunning hexec' hs

/-- Where the capped loop ends while the capped output is not full, the input has ended for both, and the uncapped call
would raise ConsistencyFailure. -/
theorem full_of_capped_loop_ends (hrunning : u.status = .running) (hp : u.phase = .pxaBlocks)
    (hmax : u.maxLen = u.rawLen) (hle : u.destPos ≤ (u.capAt k).maxLen.toNat) (h : step u = .next t)
    (hrest : runSteps m t = .next f) (hm : moreBlocks (u.capAt k) = false) :
    u.destPos = (u.capAt k).maxLen.toNat := by
  by_contra hne
  have hlt : u.destPos < (u.capAt k).maxLen.toNat := Nat.lt_of_le_of_ne hle hne
  have hm' : moreBlocks u = false := decide_eq_false fun hmore => of_decide_eq_false hm ⟨hmore.1, hlt⟩
  rw [step_block_of_done hrunning hp hm'] at h
  obtain ⟨hfull, -⟩ | ⟨-, hfault⟩ := finishPxa_cases u
  · exact (hlt.trans_le (capAt_maxLen_le k hmax)).ne hfull
  · exact ne_raised_of_ne_fault (ne_fault_of_runs_to_done hrest hf) _ u (Host.Outcome.next.inj (h.symm.trans hfault))

/-- What an instruction of the capped call can do, as a course of the call. -/
theorem CappedCourse.of_blockCapped (hi : t.Inv) (ht : t.status = .running) (hp : t.phase = .pxaBlocks)
    (hcap : t.cap = none) (hrest : runSteps m t = .next f) (h : BlockCapped k t s) : CappedCourse k f s := by
  cases h with
  | same => exact .along hi ht hcap hrest
  | rejected hs he => exact .rejected hs he
  | @full w hr hfull =>
    have hbegins : outBegins w t := ⟨hr.output.destPos_le, hr.output.written⟩
    have hformat := ((phaseInv_pxaBlocks hp).1 (hi.running ht).phase).1
    exact .full ((congrArg State.status hr.frame).symm.trans ht) ((congrArg State.phase hr.frame).symm.trans hp)
      ((congrArg State.format hr.frame).symm.trans hformat) hfull
      (outBegins_trans hbegins (outBegins_of_runs_to_done hi hrest hf))

/-- The capped loop ends: both calls have come to the same place and the capped output is full. -/
theorem cappedCourse_loopEnd (hi : u.Inv) (hrunning : u.status = .running) (hp : u.phase = .pxaBlocks)
    (hmax : u.maxLen = u.rawLen) (hle : u.destPos ≤ (u.capAt k).maxLen.toNat) (h : step u = .next t)
    (hrest : runSteps m t = .next f) (hm : moreBlocks (u.capAt k) = false) (hs : step (u.capAt k) = .next s) :
    CappedCourse k f s := by
  have hfull := full_of_capped_loop_ends hf hrunning hp hmax hle h hrest hm
  have hformat := ((phaseInv_pxaBlocks hp).1 (hi.running hrunning).phase).1
  have hrun : runSteps (m + 1) u = .next f := by rw [runSteps_succ, h, andThen_next, hrest]
  have hout : outBegins u f := outBegins_of_runs_to_done hi hrun hf
  obtain rfl := step_of_full (s := u.capAt k) hrunning hp hfull hs
  exact .done rfl hformat hout

/-- One turn of the capped loop: the uncapped loop takes it too, and both run the block that the input holds there. -/
theorem cappedCourse_turn (hi : u.Inv) (hrunning : u.status = .running) (hp : u.phase = .pxaBlocks)
    (hcap : u.cap = none) (hmax : u.maxLen = u.rawLen) (h : step u = .next t) (hrest : runSteps m t = .next f)
    (hm : moreBlocks (u.capAt k) = true) (hs : step (u.capAt k) = .next s) : CappedCourse k f s := by
  have ht := ne_fault_of_runs_to_done hrest hf
  obtain ⟨hcur, hroom⟩ := moreBlocks_eq_true.1 hm
  have hm' : moreBlocks u = true := moreBlocks_eq_true.2 ⟨hcur, hroom.trans_le (capAt_maxLen_le k hmax)⟩
  cases hd : decodeBlock u.input u.cur with
  | error e =>
    have hfault := (step_block_of_error hrunning hp hm' hd).symm.trans h
    exact absurd (Host.Outcome.next.inj hfault).symm (ne_raised_of_ne_fault ht _ u)
  | ok p =>
    obtain ⟨i, c⟩ := p
    have hphase := decodeBlock_phase hd
    have hexec := (step_block_of_ok hrunning hp hm' hd).symm.trans h
    have hran := (exec_block hphase hexec).resolve_left fun hfault => ht (status_of_faultsFrom hfault)
    obtain ⟨s', hs', hcapped⟩ := exec_block_capAt (u := u.setCursor c) hphase hmax hexec ht hroom
    cases hs'.symm.trans ((step_block_of_ok (s := u.capAt k) hrunning hp hm hd).symm.trans hs)
    exact .of_blockCapped hf (stepKeepsInvariant u t hi h) ((congrArg State.status hran.frame).trans hrunning)
      ((congrArg State.phase hran.frame).trans hp) ((congrArg State.cap hran.frame).trans hcap) hrest hcapped

theorem cappedCourse_pxaBlocks (hi : u.Inv) (hrunning : u.status = .running) (hp : u.phase = .pxaBlocks)
    (hcap : u.cap = none) (h : step u = .next t) (hrest : runSteps m t = .next f) (hik : (u.capAt k).Inv)
    (hs : step (u.capAt k) = .next s) : CappedCourse k f s := by
  obtain ⟨-, hcapacity, -, -⟩ := (phaseInv_pxaBlocks hp).1 (hi.running hrunning).phase
  obtain ⟨-, -, hle, -⟩ := (phaseInv_pxaBlocks (s := u.capAt k) hp).1 (hik.running hrunning).phase
  have hmax : u.maxLen = u.rawLen := by rw [hcapacity, hcap, pxaCapacity_none]
  cases hm : moreBlocks (u.capAt k) with
  | false => exact cappedCourse_loopEnd hf hi hrunning hp hmax hle h hrest hm hs
  | true => exact cappedCourse_turn hf hi hrunning hp hcap hmax h hrest hm hs

/-- Every step of the capped call keeps its course. -/
theorem CappedCourse.step (hpxa : f.format = .pxa) {s' : State} (hi : s.Inv) (hc : CappedCourse k f s)
    (h : step s = .next s') : CappedCourse k f s' := by
  have hs := running_of_step_next h
  cases hc with
  | @along u n hu hrunning hcap hrun =>
    obtain ⟨t, m, hstep, hrest, -⟩ := exists_step_of_runs_to_done hrunning hrun hf
    have hpath := not_onP8Path_of_runs_to_pxa hu hrunning hrun hf hpxa
    cases hp : u.phase with
    | sniff => exact cappedCourse_sniff hf hu hrunning hp hcap hstep hrest h
    | pxaHeader => exact cappedCourse_pxaHeader hf hu hrunning hp hcap hstep hrest h
    | pxaBlocks => exact cappedCourse_pxaBlocks hf hu hrunning hp hcap hstep hrest hi h
    | p8Header => exact absurd (.inl hp) hpath
    | p8Codes => exact absurd (.inr hp) hpath
  | full _ hp hformat hfull hout =>
    obtain rfl := step_of_full hs hp hfull h
    exact .done rfl hformat hout
  | done hdone => cases hs.symm.trans hdone
  | rejected hfault => cases hs.symm.trans hfault

end

/-! ### The bytes returned -/

/-- After `Ok` of the PXA route the bytes returned are the output, and their number is the capacity that the header and
the cap give (44_pxa_engine.md R143, R150). -/
theorem returned_of_pxa_done {s : State} (hi : s.Inv) (hh : headerInv s) (hs : s.status = .done)
    (hpxa : s.format = .pxa) :
    s.okBytes = some ((List.range s.destPos).filterMap s.out.read) ∧
      ∃ h : 8 ≤ s.input.length, s.destPos = (pxaCapacity s.cap (bigEndian s.input[4] s.input[5])).toNat := by
  obtain ⟨-, -, -, n, hn, -, hend⟩ := hi.done hs
  obtain ⟨rfl, hmax⟩ := hend hpxa
  obtain ⟨hrunning, -⟩ | ⟨h8, hraw, hcapacity⟩ := hh (by simp [hs]) hpxa
  · cases hs.symm.trans hrunning
  · have hfield : s.rawLen = bigEndian s.input[4] s.input[5] :=
      BitVec.eq_of_toNat_eq (hraw.trans (bigEndian_toNat _ _).symm)
    refine ⟨by simp only [State.okBytes, hs, hn, Option.map_some], h8, ?_⟩
    rw [hmax, hcapacity, hfield]

/-- The first `k` of the `n` values that `g` has below `n`. -/
theorem take_filterMap_range {α : Type} {g : Nat → Option α} {n : Nat} (hg : ∀ a, a < n → (g a).isSome = true)
    (k : Nat) : ((List.range n).filterMap g).take k = (List.range (min k n)).filterMap g := by
  obtain hle | hle := Nat.le_total k n
  · obtain ⟨r, rfl⟩ := Nat.exists_eq_add_of_le hle
    have hlen : ((List.range k).filterMap g).length = k := by
      rw [List.filterMap_length_eq_length.2 fun a ha => hg a ((List.mem_range.1 ha).trans_le hle), List.length_range]
    rw [Nat.min_eq_left hle, List.range_add, List.filterMap_append, List.take_left' hlen]
  · have hlen : ((List.range n).filterMap g).length ≤ k :=
      (List.length_filterMap_le _ _).trans (by rwa [List.length_range])
    rw [Nat.min_eq_right hle, List.take_of_length_le hlen]

theorem not_ended_of_running {s : State} (hs : s.status = .running) : ¬ s.ended := by
  simp [hs]

/-- Settles O51: a capped call that ends has kept its course, so it has raised InvalidBlock, or its output stands at the
front of the uncapped one, as long as the cap or the whole. -/
theorem cappedPxaIsPrefix : Obligations.CappedPxaIsPrefix := by
  intro cfg input k entry p8OutCap m n s u hcfg hrunS hended hrunU hdone hpxa
  obtain ⟨⟨-, hinputU, hcapU, -, -⟩, hinvU, hhdrU⟩ := runSteps_start hcfg hrunU
  obtain ⟨⟨-, hinputS, hcapS, -, -⟩, hinvS, hhdrS⟩ := runSteps_start hcfg hrunS
  obtain ⟨hbytesU, h8, hlenU⟩ := returned_of_pxa_done hinvU hhdrU hdone hpxa
  have hcourse : CappedCourse k u s := by
    refine (runSteps_induction (P := fun t => t.Inv ∧ CappedCourse k u t) ?_ ⟨?_, ?_⟩ hrunS).2
    · rintro t t' ⟨ht, hc⟩ h
      exact ⟨stepKeepsInvariant t t' ht h, hc.step hdone hpxa ht h⟩
    · exact everyStartMeetsInvariant cfg input (some k) entry p8OutCap hcfg
    · rw [start_capAt]
      exact .along (everyStartMeetsInvariant cfg input none entry p8OutCap hcfg) rfl rfl hrunU
  refine ⟨_, hbytesU, ?_⟩
  cases hcourse with
  | along _ hs => exact absurd hended (not_ended_of_running hs)
  | full hs => exact absurd hended (not_ended_of_running hs)
  | rejected hs he => exact .inr ⟨hs, he⟩
  | done hs hformat hout =>
    obtain ⟨hbytesS, h8', hlenS⟩ := returned_of_pxa_done hinvS hhdrS hs hformat
    have hinput : s.input = u.input := hinputS.trans hinputU.symm
    have hmin : s.destPos = min k u.destPos := by
      simp only [hinput, show s.cap = some k from hcapS, pxaCapacity_some] at hlenS
      rw [hlenS, hlenU, show u.cap = none from hcapU, pxaCapacity_none]
    refine .inl ⟨hs, ?_⟩
    rw [hbytesS, take_filterMap_range fun a ha => ((hinvU.done hdone).filled a).2 ha, ← hmin]
    exact congrArg some (List.filterMap_congr fun a ha => (hout.2 a (List.mem_range.1 ha)).symm)

end Sys2Proof.Machine
end
